-- ==== Sys2Proof/Word.lean ====
section
/-! DEFINITION. The word types of QHC: bytes, 32-bit words (commands, CP, host registers), 64-bit
scalars and 512-bit numbers (00_scope.md R7, R8). -/

namespace Sys2Proof

/-- One byte of LMEM or of the block buffer (R43, R49). -/
abbrev Byte := BitVec 8

/-- A command word, the command pointer or a host register (R34, R60, R120). -/
abbrev Word32 := BitVec 32

/-- A scalar register or a digest word (R31, R42): XLEN = 64. -/
abbrev Word64 := BitVec 64

/-- A number register (R35): NBITS = 512. -/
abbrev Number := BitVec 512

end Sys2Proof
end

