-- ==== Sys2Proof/Machine/Bytes.lean ====
section
/-! DEFINITION. Byte sequences and bit fields: the conversions of 00_scope.md R11 and R13, the field
notation of R8, and the replacement of a field inside a wider value. -/

namespace Sys2Proof

/-- R11: LE_n(v), the n-byte sequence whose byte i is (v >> 8i) & 0xFF. -/
def toLE : Nat → Nat → List Byte
  | 0, _ => []
  | n + 1, v => BitVec.ofNat 8 v :: toLE n (v / 256)

/-- R11: BE_n(v), the same bytes, most significant first. -/
def toBE (n v : Nat) : List Byte := (toLE n v).reverse

/-- R10, R11: fromLE(s) = Σ s[i]·2^(8i). -/
def fromLE : List Byte → Nat
  | [] => 0
  | b :: bs => b.toNat + 256 * fromLE bs

/-- R11: fromBE(s). -/
def fromBE (s : List Byte) : Nat := fromLE s.reverse

/-- R13: BYTEREV_k(v) = fromLE(BE_k(v)), the k bytes of v in reverse order. -/
def byteRev (k v : Nat) : Nat := fromLE (toBE k v)

/-- The field `f` placed at bits [lo+n-1 : lo] of a 32-bit word, the other bits 0 (R8). -/
def placeField {n : Nat} (f : BitVec n) (lo : Nat) : Word32 := f.setWidth 32 <<< lo

/-- A one-bit field. -/
def bitField (b : Bool) (lo : Nat) : Word32 := placeField (BitVec.ofBool b) lo

/-- `v[lo+k-1 : lo] <- f`, all other bits of `v` kept (R8; MOVK R457, NSETW R214). -/
def insertField {n k : Nat} (v : BitVec n) (lo : Nat) (f : BitVec k) : BitVec n :=
  (v &&& ~~~((BitVec.allOnes k).setWidth n <<< lo)) ||| (f.setWidth n <<< lo)

end Sys2Proof
end

