-- ==== Sys2Proof/Syntax.lean ====
section
/-! DEFINITION. The instructions of QHC: one constructor per row of spec/opcode_table.json
(30_encoding.md R128), with typed operands (R121 to R127). -/

namespace Sys2Proof

/-- A scalar register X0..X15 (R31): every value of a 4-bit field names one (R125). -/
abbrev XReg := Fin 16

/-- A number register N0..N3 (R35): a field value 4..15 names none (R125). -/
abbrev NReg := Fin 4

/-- The operand size code sz of a number-register command: SIZE = 32·(sz+1) bits (R126). -/
abbrev SizeCode := Fin 16

/-- The width bit w of a word-unit command (R127); also the native word width of a hash variant. -/
inductive Width where
  | w32 | w64
deriving DecidableEq, Repr

/-- The word width WW of a number-register command (R126). -/
inductive NumWidth where
  | ww8 | ww16 | ww32 | ww64
deriving DecidableEq, Repr

/-- The variants of the hash engine, MODE 0..6 of 00_scope.md R6. MODE 7 is reserved and names none. -/
inductive Mode where
  | sha256 | sha224 | sha512 | sha384 | sha512t256 | sha512t224 | rmd160
deriving DecidableEq, Repr

/-- The selector of HSTAT (R305). -/
inductive StatSel where
  | total | off | mode | state
deriving DecidableEq, Repr

/-- The 48 commands of R128. Operands stand in the order of the assembler (R133). -/
inductive Instr where
  | nop
  | halt
  | jmp (off16 : BitVec 16)
  | jz (off16 : BitVec 16)
  | jnz (off16 : BitVec 16)
  | movi (rd : XReg) (imm16 : BitVec 16)
  | movk (rd : XReg) (imm16 : BitVec 16) (hw : Fin 4)
  | mov (rd ra : XReg)
  | addi (rd ra : XReg) (imm16 : BitVec 16)
  | tstx (ra : XReg)
  | ld8 (rd ra : XReg) (imm16 : BitVec 16)
  | ld16 (rd ra : XReg) (imm16 : BitVec 16)
  | ld32 (rd ra : XReg) (imm16 : BitVec 16)
  | ld64 (rd ra : XReg) (imm16 : BitVec 16)
  | st8 (rs ra : XReg) (imm16 : BitVec 16)
  | st16 (rs ra : XReg) (imm16 : BitVec 16)
  | st32 (rs ra : XReg) (imm16 : BitVec 16)
  | st64 (rs ra : XReg) (imm16 : BitVec 16)
  | wadd (w : Width) (rd ra rb : XReg)
  | wrotr (w : Width) (rd ra : XReg) (sh6 : Fin 64)
  | wrotl (w : Width) (rd ra : XReg) (sh6 : Fin 64)
  | wrotrv (w : Width) (rd ra rb : XReg)
  | wrotlv (w : Width) (rd ra rb : XReg)
  | wbswap (w : Width) (rd ra : XReg)
  | wch (w : Width) (rd ra rb rc : XReg)
  | wmaj (w : Width) (rd ra rb rc : XReg)
  | wbsig0 (w : Width) (rd ra : XReg)
  | wbsig1 (w : Width) (rd ra : XReg)
  | wssig0 (w : Width) (rd ra : XReg)
  | wssig1 (w : Width) (rd ra : XReg)
  | nld (sz : SizeCode) (nd : NReg) (ra : XReg)
  | nst (sz : SizeCode) (ns : NReg) (ra : XReg)
  | nclr (nd : NReg)
  | nmov (sz : SizeCode) (nd na : NReg)
  | nadds (sz : SizeCode) (ww : NumWidth) (nd : NReg) (ra : XReg)
  | nmuls (sz : SizeCode) (ww : NumWidth) (nd : NReg) (ra : XReg)
  | ndivs (sz : SizeCode) (ww : NumWidth) (nd : NReg) (xr xb : XReg)
  | nisz (sz : SizeCode) (na : NReg)
  | neq (sz : SizeCode) (na nb : NReg)
  | nbswap (sz : SizeCode) (nd na : NReg)
  | nbswapw (sz : SizeCode) (ww : NumWidth) (nd na : NReg)
  | ngetw (ww : NumWidth) (rd : XReg) (na : NReg) (idx8 : Fin 256)
  | nsetw (ww : NumWidth) (nd : NReg) (ra : XReg) (idx8 : Fin 256)
  | hinit (mode : Mode)
  | hupd (ra rb : XReg)
  | hdig (ra : XReg)
  | hstat (rd : XReg) (sel : StatSel)
  | hwipe
deriving DecidableEq, Repr

end Sys2Proof
end

