-- ==== Sys2Proof/Machine/Fields.lean ====
section
/-! DEFINITION. What the operand codes and the hash variants stand for: word widths, operand sizes
(30_encoding.md R126, R127) and the variant parameters of 00_scope.md R6. -/

namespace Sys2Proof

/-- R127: w = 0 is 32-bit operation, w = 1 is 64-bit operation. -/
abbrev Width.bits : Width → Nat
  | .w32 => 32
  | .w64 => 64

/-- The bytes of a w-bit word. -/
abbrev Width.bytes : Width → Nat
  | .w32 => 4
  | .w64 => 8

/-- R126: WW = 8, 16, 32, 64 bits. -/
abbrev NumWidth.bits : NumWidth → Nat
  | .ww8 => 8
  | .ww16 => 16
  | .ww32 => 32
  | .ww64 => 64

/-- WW / 8. -/
abbrev NumWidth.bytes : NumWidth → Nat
  | .ww8 => 1
  | .ww16 => 2
  | .ww32 => 4
  | .ww64 => 8

/-- R126: SIZE = 32·(sz+1) bits. -/
abbrev sizeBits (sz : SizeCode) : Nat := 32 * (sz.val + 1)

/-- SIZE / 8. -/
abbrev sizeBytes (sz : SizeCode) : Nat := 4 * (sz.val + 1)

/-- R6: the native word width w of a variant. -/
def Mode.width : Mode → Width
  | .sha256 => .w32
  | .sha224 => .w32
  | .sha512 => .w64
  | .sha384 => .w64
  | .sha512t256 => .w64
  | .sha512t224 => .w64
  | .rmd160 => .w32

/-- R6: B, the block size in bytes. -/
def Mode.blockBytes (m : Mode) : Nat :=
  match m.width with
  | .w32 => 64
  | .w64 => 128

/-- R6, R310: LB, the size of the length field in bytes. -/
def Mode.lengthBytes (m : Mode) : Nat :=
  match m.width with
  | .w32 => 8
  | .w64 => 16

/-- R6: OUT, the digest size in bytes. -/
def Mode.digestBytes : Mode → Nat
  | .sha256 => 32
  | .sha224 => 28
  | .sha512 => 64
  | .sha384 => 48
  | .sha512t256 => 32
  | .sha512t224 => 28
  | .rmd160 => 20

end Sys2Proof
end

