-- ==== Sys2Proof/WellFormed.lean ====
section
/-! DEFINITION. The field-value checks of 30_encoding.md R131 that the operand types do not already
make: SIZE mod WW = 0 and sh6 < w. (A number register beyond N3 and MODE 7 have no term of `Instr`.) -/

namespace Sys2Proof

/-- R126: a command that uses WW needs SIZE mod WW = 0. -/
abbrev sizeFitsWidth (sz : SizeCode) (ww : NumWidth) : Bool := sizeBits sz % ww.bits == 0

/-- R131, R253: an immediate rotate amount is below the word width. -/
abbrev rotateFits (w : Width) (sh6 : Fin 64) : Bool := decide (sh6.val < w.bits)

/-- The field values of the instruction are legal (R131, first sentence). -/
def Instr.wellFormed : Instr → Bool
  | .nop => true
  | .halt => true
  | .jmp _ => true
  | .jz _ => true
  | .jnz _ => true
  | .movi _ _ => true
  | .movk _ _ _ => true
  | .mov _ _ => true
  | .addi _ _ _ => true
  | .tstx _ => true
  | .ld8 _ _ _ => true
  | .ld16 _ _ _ => true
  | .ld32 _ _ _ => true
  | .ld64 _ _ _ => true
  | .st8 _ _ _ => true
  | .st16 _ _ _ => true
  | .st32 _ _ _ => true
  | .st64 _ _ _ => true
  | .wadd _ _ _ _ => true
  | .wrotr w _ _ sh => rotateFits w sh
  | .wrotl w _ _ sh => rotateFits w sh
  | .wrotrv _ _ _ _ => true
  | .wrotlv _ _ _ _ => true
  | .wbswap _ _ _ => true
  | .wch _ _ _ _ _ => true
  | .wmaj _ _ _ _ _ => true
  | .wbsig0 _ _ _ => true
  | .wbsig1 _ _ _ => true
  | .wssig0 _ _ _ => true
  | .wssig1 _ _ _ => true
  | .nld _ _ _ => true
  | .nst _ _ _ => true
  | .nclr _ => true
  | .nmov _ _ _ => true
  | .nadds sz ww _ _ => sizeFitsWidth sz ww
  | .nmuls sz ww _ _ => sizeFitsWidth sz ww
  | .ndivs sz ww _ _ _ => sizeFitsWidth sz ww
  | .nisz _ _ => true
  | .neq _ _ _ => true
  | .nbswap _ _ _ => true
  | .nbswapw sz ww _ _ => sizeFitsWidth sz ww
  | .ngetw _ _ _ _ => true
  | .nsetw _ _ _ _ => true
  | .hinit _ => true
  | .hupd _ _ => true
  | .hdig _ => true
  | .hstat _ _ => true
  | .hwipe => true

end Sys2Proof
end

