-- ==== Sys2Proof/Decode.lean ====
section
/-! DEFINITION. Decoding and encoding (30_encoding.md R120 to R132): the table of R128 as rows of
mask and pattern, the decoder that follows the order of R132 and rejects by name, and the encoder
written from the same field positions (R121). -/

namespace Sys2Proof

/-! ## Fields (R121) -/

/-- OP = cmd[31:24]. -/
def opOf (c : Word32) : BitVec 8 := c.extractLsb' 24 8
/-- rd = cmd[23:20]. -/
def rdOf (c : Word32) : BitVec 4 := c.extractLsb' 20 4
/-- ra = cmd[19:16]. -/
def raOf (c : Word32) : BitVec 4 := c.extractLsb' 16 4
/-- rb = cmd[15:12]. -/
def rbOf (c : Word32) : BitVec 4 := c.extractLsb' 12 4
/-- rc = cmd[11:8]. -/
def rcOf (c : Word32) : BitVec 4 := c.extractLsb' 8 4
/-- imm16 or off16 = cmd[15:0]. -/
def imm16Of (c : Word32) : BitVec 16 := c.extractLsb' 0 16
/-- hw = cmd[19:18]. -/
def hwOf (c : Word32) : BitVec 2 := c.extractLsb' 18 2
/-- sh6 = cmd[13:8]. -/
def sh6Of (c : Word32) : BitVec 6 := c.extractLsb' 8 6
/-- idx8 = cmd[15:8]. -/
def idx8Of (c : Word32) : BitVec 8 := c.extractLsb' 8 8
/-- sz = cmd[7:4]. -/
def szOf (c : Word32) : BitVec 4 := c.extractLsb' 4 4
/-- ww = cmd[3:2]. -/
def wwOf (c : Word32) : BitVec 2 := c.extractLsb' 2 2
/-- w = cmd[0]. -/
def wOf (c : Word32) : BitVec 1 := c.extractLsb' 0 1
/-- mode = cmd[2:0]. -/
def modeOf (c : Word32) : BitVec 3 := c.extractLsb' 0 3
/-- sel = cmd[1:0]. -/
def selOf (c : Word32) : BitVec 2 := c.extractLsb' 0 2

/-! ## Operand codes (R125 to R127; 00_scope.md R6; R305) -/

/-- The field value of an operand whose type is a number below 2^n. -/
def finCode {n : Nat} (f : Fin (2 ^ n)) : BitVec n := BitVec.ofFin f

/-- R125: the field value of a number register. -/
def nCode (r : NReg) : BitVec 4 := BitVec.ofNat 4 r.val

/-- R125: a number-register field holds 0..3; 4..15 names no register. -/
def nReg? (f : BitVec 4) : Option NReg :=
  if h : f.toNat < 4 then some ⟨f.toNat, h⟩ else none

/-- R127. -/
def Width.code : Width → BitVec 1
  | .w32 => 0
  | .w64 => 1

/-- R127. -/
def widthOf (c : BitVec 1) : Width := if c = 0 then .w32 else .w64

/-- R126. -/
def NumWidth.code : NumWidth → BitVec 2
  | .ww8 => 0
  | .ww16 => 1
  | .ww32 => 2
  | .ww64 => 3

/-- R126. -/
def numWidthOf (c : BitVec 2) : NumWidth :=
  if c = 0 then .ww8 else if c = 1 then .ww16 else if c = 2 then .ww32 else .ww64

/-- The MODE numbers of R6. -/
def Mode.code : Mode → BitVec 3
  | .sha256 => 0
  | .sha224 => 1
  | .sha512 => 2
  | .sha384 => 3
  | .sha512t256 => 4
  | .sha512t224 => 5
  | .rmd160 => 6

/-- R6: MODE 7 is reserved. -/
def mode? (c : BitVec 3) : Option Mode :=
  if c = 0 then some .sha256 else if c = 1 then some .sha224 else if c = 2 then some .sha512
  else if c = 3 then some .sha384 else if c = 4 then some .sha512t256
  else if c = 5 then some .sha512t224 else if c = 6 then some .rmd160 else none

/-- R305. -/
def StatSel.code : StatSel → BitVec 2
  | .total => 0
  | .off => 1
  | .mode => 2
  | .state => 3

/-- R305. -/
def statSelOf (c : BitVec 2) : StatSel :=
  if c = 0 then .total else if c = 1 then .off else if c = 2 then .mode else .state

/-! ## The opcode map (R128) -/

/-- Why a word is no command (R132, in this order). The sequencer raises ILLEGAL for each. -/
inductive Reject where
  /-- OP is not in the opcode map (R130). -/
  | opcode
  /-- A reserved bit is set (R129). -/
  | reservedBits
  /-- A number-register field holds 4..15 (R125). -/
  | numberRegister
  /-- HINIT with MODE 7 (R131). -/
  | mode
  /-- SIZE mod WW is not 0, or a rotate amount is not below the word width (R131). -/
  | fieldValue
deriving DecidableEq, Repr

/-- A row of R128: a word W is the command only if `W & mask = pattern`; `build` reads its fields. -/
structure OpRow where
  mnemonic : String
  pattern : Word32
  mask : Word32
  build : Word32 → Except Reject Instr

/-- A scalar-register field: every value is legal (R125). -/
abbrev xReg (f : BitVec 4) : XReg := f.toFin

/-- Read a number-register field, or reject it (R125). -/
def withN (f : BitVec 4) (k : NReg → Except Reject Instr) : Except Reject Instr :=
  match nReg? f with
  | some n => k n
  | none => .error .numberRegister

/-- Read HINIT's mode field, or reject it (R131). -/
def withMode (f : BitVec 3) (k : Mode → Except Reject Instr) : Except Reject Instr :=
  match mode? f with
  | some m => k m
  | none => .error .mode

/-- Control (OP 0x01..0x05) and scalar moves (0x10..0x14). -/
def controlRows : List OpRow := [
  ⟨"NOP", 0x01000000, 0xFFFFFFFF, fun _ => .ok .nop⟩,
  ⟨"HALT", 0x02000000, 0xFFFFFFFF, fun _ => .ok .halt⟩,
  ⟨"JMP", 0x03000000, 0xFFFF0000, fun c => .ok (.jmp (imm16Of c))⟩,
  ⟨"JZ", 0x04000000, 0xFFFF0000, fun c => .ok (.jz (imm16Of c))⟩,
  ⟨"JNZ", 0x05000000, 0xFFFF0000, fun c => .ok (.jnz (imm16Of c))⟩,
  ⟨"MOVI", 0x10000000, 0xFF0F0000, fun c => .ok (.movi (xReg (rdOf c)) (imm16Of c))⟩,
  ⟨"MOVK", 0x11000000, 0xFF030000, fun c => .ok (.movk (xReg (rdOf c)) (imm16Of c) (hwOf c).toFin)⟩,
  ⟨"MOV", 0x12000000, 0xFF00FFFF, fun c => .ok (.mov (xReg (rdOf c)) (xReg (raOf c)))⟩,
  ⟨"ADDI", 0x13000000, 0xFF000000, fun c => .ok (.addi (xReg (rdOf c)) (xReg (raOf c)) (imm16Of c))⟩,
  ⟨"TSTX", 0x14000000, 0xFFF0FFFF, fun c => .ok (.tstx (xReg (raOf c)))⟩]

/-- Loads and stores (OP 0x18..0x1F). -/
def memoryRows : List OpRow := [
  ⟨"LD8", 0x18000000, 0xFF000000, fun c => .ok (.ld8 (xReg (rdOf c)) (xReg (raOf c)) (imm16Of c))⟩,
  ⟨"LD16", 0x19000000, 0xFF000000, fun c => .ok (.ld16 (xReg (rdOf c)) (xReg (raOf c)) (imm16Of c))⟩,
  ⟨"LD32", 0x1A000000, 0xFF000000, fun c => .ok (.ld32 (xReg (rdOf c)) (xReg (raOf c)) (imm16Of c))⟩,
  ⟨"LD64", 0x1B000000, 0xFF000000, fun c => .ok (.ld64 (xReg (rdOf c)) (xReg (raOf c)) (imm16Of c))⟩,
  ⟨"ST8", 0x1C000000, 0xFF000000, fun c => .ok (.st8 (xReg (rdOf c)) (xReg (raOf c)) (imm16Of c))⟩,
  ⟨"ST16", 0x1D000000, 0xFF000000, fun c => .ok (.st16 (xReg (rdOf c)) (xReg (raOf c)) (imm16Of c))⟩,
  ⟨"ST32", 0x1E000000, 0xFF000000, fun c => .ok (.st32 (xReg (rdOf c)) (xReg (raOf c)) (imm16Of c))⟩,
  ⟨"ST64", 0x1F000000, 0xFF000000, fun c => .ok (.st64 (xReg (rdOf c)) (xReg (raOf c)) (imm16Of c))⟩]

/-- The word unit (OP 0x20..0x2B). -/
def wordRows : List OpRow := [
  ⟨"WADD", 0x20000000, 0xFF000FFE,
    fun c => .ok (.wadd (widthOf (wOf c)) (xReg (rdOf c)) (xReg (raOf c)) (xReg (rbOf c)))⟩,
  ⟨"WROTR", 0x21000000, 0xFF00C0FE,
    fun c => .ok (.wrotr (widthOf (wOf c)) (xReg (rdOf c)) (xReg (raOf c)) (sh6Of c).toFin)⟩,
  ⟨"WROTL", 0x22000000, 0xFF00C0FE,
    fun c => .ok (.wrotl (widthOf (wOf c)) (xReg (rdOf c)) (xReg (raOf c)) (sh6Of c).toFin)⟩,
  ⟨"WROTRV", 0x23000000, 0xFF000FFE,
    fun c => .ok (.wrotrv (widthOf (wOf c)) (xReg (rdOf c)) (xReg (raOf c)) (xReg (rbOf c)))⟩,
  ⟨"WROTLV", 0x24000000, 0xFF000FFE,
    fun c => .ok (.wrotlv (widthOf (wOf c)) (xReg (rdOf c)) (xReg (raOf c)) (xReg (rbOf c)))⟩,
  ⟨"WBSWAP", 0x25000000, 0xFF00FFFE,
    fun c => .ok (.wbswap (widthOf (wOf c)) (xReg (rdOf c)) (xReg (raOf c)))⟩,
  ⟨"WCH", 0x26000000, 0xFF0000FE,
    fun c => .ok (.wch (widthOf (wOf c)) (xReg (rdOf c)) (xReg (raOf c)) (xReg (rbOf c)) (xReg (rcOf c)))⟩,
  ⟨"WMAJ", 0x27000000, 0xFF0000FE,
    fun c => .ok (.wmaj (widthOf (wOf c)) (xReg (rdOf c)) (xReg (raOf c)) (xReg (rbOf c)) (xReg (rcOf c)))⟩,
  ⟨"WBSIG0", 0x28000000, 0xFF00FFFE,
    fun c => .ok (.wbsig0 (widthOf (wOf c)) (xReg (rdOf c)) (xReg (raOf c)))⟩,
  ⟨"WBSIG1", 0x29000000, 0xFF00FFFE,
    fun c => .ok (.wbsig1 (widthOf (wOf c)) (xReg (rdOf c)) (xReg (raOf c)))⟩,
  ⟨"WSSIG0", 0x2A000000, 0xFF00FFFE,
    fun c => .ok (.wssig0 (widthOf (wOf c)) (xReg (rdOf c)) (xReg (raOf c)))⟩,
  ⟨"WSSIG1", 0x2B000000, 0xFF00FFFE,
    fun c => .ok (.wssig1 (widthOf (wOf c)) (xReg (rdOf c)) (xReg (raOf c)))⟩]

/-- The number ALU (OP 0x30..0x3C). -/
def numberRows : List OpRow := [
  ⟨"NLD", 0x30000000, 0xFF00FF0F,
    fun c => withN (rdOf c) fun nd => .ok (.nld (szOf c).toFin nd (xReg (raOf c)))⟩,
  ⟨"NST", 0x31000000, 0xFF00FF0F,
    fun c => withN (rdOf c) fun ns => .ok (.nst (szOf c).toFin ns (xReg (raOf c)))⟩,
  ⟨"NCLR", 0x32000000, 0xFF0FFFFF, fun c => withN (rdOf c) fun nd => .ok (.nclr nd)⟩,
  ⟨"NMOV", 0x33000000, 0xFF00FF0F,
    fun c => withN (rdOf c) fun nd => withN (raOf c) fun na => .ok (.nmov (szOf c).toFin nd na)⟩,
  ⟨"NADDS", 0x34000000, 0xFF00FF03,
    fun c => withN (rdOf c) fun nd => .ok (.nadds (szOf c).toFin (numWidthOf (wwOf c)) nd (xReg (raOf c)))⟩,
  ⟨"NMULS", 0x35000000, 0xFF00FF03,
    fun c => withN (rdOf c) fun nd => .ok (.nmuls (szOf c).toFin (numWidthOf (wwOf c)) nd (xReg (raOf c)))⟩,
  ⟨"NDIVS", 0x36000000, 0xFF000F03,
    fun c => withN (rdOf c) fun nd =>
      .ok (.ndivs (szOf c).toFin (numWidthOf (wwOf c)) nd (xReg (raOf c)) (xReg (rbOf c)))⟩,
  ⟨"NISZ", 0x37000000, 0xFFF0FF0F, fun c => withN (raOf c) fun na => .ok (.nisz (szOf c).toFin na)⟩,
  ⟨"NEQ", 0x38000000, 0xFFF00F0F,
    fun c => withN (raOf c) fun na => withN (rbOf c) fun nb => .ok (.neq (szOf c).toFin na nb)⟩,
  ⟨"NBSWAP", 0x39000000, 0xFF00FF0F,
    fun c => withN (rdOf c) fun nd => withN (raOf c) fun na => .ok (.nbswap (szOf c).toFin nd na)⟩,
  ⟨"NBSWAPW", 0x3A000000, 0xFF00FF03,
    fun c => withN (rdOf c) fun nd => withN (raOf c) fun na =>
      .ok (.nbswapw (szOf c).toFin (numWidthOf (wwOf c)) nd na)⟩,
  ⟨"NGETW", 0x3B000000, 0xFF0000F3,
    fun c => withN (raOf c) fun na => .ok (.ngetw (numWidthOf (wwOf c)) (xReg (rdOf c)) na (idx8Of c).toFin)⟩,
  ⟨"NSETW", 0x3C000000, 0xFF0000F3,
    fun c => withN (rdOf c) fun nd => .ok (.nsetw (numWidthOf (wwOf c)) nd (xReg (raOf c)) (idx8Of c).toFin)⟩]

/-- The hash engine (OP 0x40..0x44). -/
def hashRows : List OpRow := [
  ⟨"HINIT", 0x40000000, 0xFFFFFFF8, fun c => withMode (modeOf c) fun m => .ok (.hinit m)⟩,
  ⟨"HUPD", 0x41000000, 0xFFF00FFF, fun c => .ok (.hupd (xReg (raOf c)) (xReg (rbOf c)))⟩,
  ⟨"HDIG", 0x42000000, 0xFFF0FFFF, fun c => .ok (.hdig (xReg (raOf c)))⟩,
  ⟨"HSTAT", 0x43000000, 0xFF0FFFFC, fun c => .ok (.hstat (xReg (rdOf c)) (statSelOf (selOf c)))⟩,
  ⟨"HWIPE", 0x44000000, 0xFFFFFFFF, fun _ => .ok .hwipe⟩]

/-- The 48 rows of R128. -/
def opRows : List OpRow := controlRows ++ memoryRows ++ wordRows ++ numberRows ++ hashRows

/-- The row whose OP is the word's (R132, step 1). -/
def rowOf? (c : Word32) : Option OpRow := opRows.find? fun r => opOf r.pattern == opOf c

/-- R132: (1) OP in the table, (2) reserved bits zero, (3) field values legal. -/
def decode (c : Word32) : Except Reject Instr :=
  match rowOf? c with
  | none => .error .opcode
  | some r =>
    if c &&& r.mask = r.pattern then
      match r.build c with
      | .ok i => if i.wellFormed then .ok i else .error .fieldValue
      | .error e => .error e
    else .error .reservedBits

/-- The command word in the four bytes of a fetch, the first at the lowest address: LoadLE(CP, 4) (R120). -/
def wordOfBytes (bs : List Byte) : Word32 := BitVec.ofNat 32 (fromLE bs)

/-- The four bytes of a command word as LMEM holds them (R81, R120). -/
def bytesOfWord (c : Word32) : List Byte := toLE 4 c.toNat

/-- Decode the bytes of one command, the lowest address first. -/
def decodeBytes (bs : List Byte) : Except Reject Instr := decode (wordOfBytes bs)

/-- The instruction the decoder reads from a word of the opcode table (all rows have 32 bits). -/
def decodeTableWord (nbits w : Nat) : Option Instr :=
  match decodeBytes (bytesOfWord (BitVec.ofNat 32 (w % 2 ^ nbits))) with
  | .ok i => some i
  | .error _ => none

/-! ## The encoder -/

/-- The rd and ra fields of formats I, R, WR, WI, NR and NX (R122). -/
def encRdRa (rd ra : BitVec 4) : Word32 := placeField rd 20 ||| placeField ra 16

/-- Format J (R122). -/
def encJ (pattern : Word32) (off16 : BitVec 16) : Word32 := pattern ||| placeField off16 0

/-- Format I (R122). -/
def encI (pattern : Word32) (rd ra : XReg) (imm16 : BitVec 16) : Word32 :=
  pattern ||| encRdRa (finCode rd) (finCode ra) ||| placeField imm16 0

/-- Format WR (R122), the unused rb and rc fields 0. -/
def encWR (pattern : Word32) (w : Width) (rd ra rb rc : XReg) : Word32 :=
  pattern ||| encRdRa (finCode rd) (finCode ra) ||| placeField (n := 4) (finCode rb) 12 |||
    placeField (n := 4) (finCode rc) 8 ||| placeField w.code 0

/-- Format WI (R122). -/
def encWI (pattern : Word32) (w : Width) (rd ra : XReg) (sh6 : Fin 64) : Word32 :=
  pattern ||| encRdRa (finCode rd) (finCode ra) ||| placeField (n := 6) (finCode sh6) 8 |||
    placeField w.code 0

/-- Format NR (R122), fields given as bits, the unused ones 0. -/
def encNR (pattern : Word32) (rd ra rb : BitVec 4) (sz : SizeCode) (ww : BitVec 2) : Word32 :=
  pattern ||| encRdRa rd ra ||| placeField rb 12 ||| placeField (n := 4) (finCode sz) 4 ||| placeField ww 2

/-- Format NX (R122). -/
def encNX (pattern : Word32) (rd ra : BitVec 4) (idx8 : Fin 256) (ww : NumWidth) : Word32 :=
  pattern ||| encRdRa rd ra ||| placeField (n := 8) (finCode idx8) 8 ||| placeField ww.code 2

/-- The command word of an instruction (R121, R122, R128). -/
def encode : Instr → Word32
  | .nop => 0x01000000
  | .halt => 0x02000000
  | .jmp off => encJ 0x03000000 off
  | .jz off => encJ 0x04000000 off
  | .jnz off => encJ 0x05000000 off
  | .movi rd imm => 0x10000000 ||| placeField (n := 4) (finCode rd) 20 ||| placeField imm 0
  | .movk rd imm hw => 0x11000000 ||| placeField (n := 4) (finCode rd) 20 ||| placeField (n := 2) (finCode hw) 18 ||| placeField imm 0
  | .mov rd ra => encI 0x12000000 rd ra 0
  | .addi rd ra imm => encI 0x13000000 rd ra imm
  | .tstx ra => encI 0x14000000 0 ra 0
  | .ld8 rd ra imm => encI 0x18000000 rd ra imm
  | .ld16 rd ra imm => encI 0x19000000 rd ra imm
  | .ld32 rd ra imm => encI 0x1A000000 rd ra imm
  | .ld64 rd ra imm => encI 0x1B000000 rd ra imm
  | .st8 rs ra imm => encI 0x1C000000 rs ra imm
  | .st16 rs ra imm => encI 0x1D000000 rs ra imm
  | .st32 rs ra imm => encI 0x1E000000 rs ra imm
  | .st64 rs ra imm => encI 0x1F000000 rs ra imm
  | .wadd w rd ra rb => encWR 0x20000000 w rd ra rb 0
  | .wrotr w rd ra sh => encWI 0x21000000 w rd ra sh
  | .wrotl w rd ra sh => encWI 0x22000000 w rd ra sh
  | .wrotrv w rd ra rb => encWR 0x23000000 w rd ra rb 0
  | .wrotlv w rd ra rb => encWR 0x24000000 w rd ra rb 0
  | .wbswap w rd ra => encWR 0x25000000 w rd ra 0 0
  | .wch w rd ra rb rc => encWR 0x26000000 w rd ra rb rc
  | .wmaj w rd ra rb rc => encWR 0x27000000 w rd ra rb rc
  | .wbsig0 w rd ra => encWR 0x28000000 w rd ra 0 0
  | .wbsig1 w rd ra => encWR 0x29000000 w rd ra 0 0
  | .wssig0 w rd ra => encWR 0x2A000000 w rd ra 0 0
  | .wssig1 w rd ra => encWR 0x2B000000 w rd ra 0 0
  | .nld sz nd ra => encNR 0x30000000 (nCode nd) (finCode ra) 0 sz 0
  | .nst sz ns ra => encNR 0x31000000 (nCode ns) (finCode ra) 0 sz 0
  | .nclr nd => encNR 0x32000000 (nCode nd) 0 0 0 0
  | .nmov sz nd na => encNR 0x33000000 (nCode nd) (nCode na) 0 sz 0
  | .nadds sz ww nd ra => encNR 0x34000000 (nCode nd) (finCode ra) 0 sz ww.code
  | .nmuls sz ww nd ra => encNR 0x35000000 (nCode nd) (finCode ra) 0 sz ww.code
  | .ndivs sz ww nd xr xb => encNR 0x36000000 (nCode nd) (finCode xr) (finCode xb) sz ww.code
  | .nisz sz na => encNR 0x37000000 0 (nCode na) 0 sz 0
  | .neq sz na nb => encNR 0x38000000 0 (nCode na) (nCode nb) sz 0
  | .nbswap sz nd na => encNR 0x39000000 (nCode nd) (nCode na) 0 sz 0
  | .nbswapw sz ww nd na => encNR 0x3A000000 (nCode nd) (nCode na) 0 sz ww.code
  | .ngetw ww rd na idx => encNX 0x3B000000 (finCode rd) (nCode na) idx ww
  | .nsetw ww nd ra idx => encNX 0x3C000000 (nCode nd) (finCode ra) idx ww
  | .hinit m => 0x40000000 ||| placeField m.code 0
  | .hupd ra rb => 0x41000000 ||| placeField (n := 4) (finCode ra) 16 ||| placeField (n := 4) (finCode rb) 12
  | .hdig ra => 0x42000000 ||| placeField (n := 4) (finCode ra) 16
  | .hstat rd sel => 0x43000000 ||| placeField (n := 4) (finCode rd) 20 ||| placeField sel.code 0
  | .hwipe => 0x44000000

end Sys2Proof
end

