-- ==== Sys2Proof/Config.lean ====
section
/-! DEFINITION. The parameters of a QHC that the spec leaves to the platform (00_scope.md R7,
20_memory.md R87; 92_eei_decisions.md, "Open parameters"). Every machine state carries its own. -/

namespace Sys2Proof

/-- The open parameters of one QHC instance. `lmemBytes` is LMEM_BYTES with its default (R7);
`hostBase` is HOST_BASE, for which the spec gives no default (DESIGN CHOICE 0, log 2). -/
structure Config where
  lmemBytes : Nat := 65536
  hostBase : Nat := 0
deriving DecidableEq, Repr

/-- R7: LMEM_BYTES is any multiple of 4 from 64 to 2^32. -/
abbrev Config.WellFormed (c : Config) : Prop :=
  64 ≤ c.lmemBytes ∧ c.lmemBytes ≤ 2 ^ 32 ∧ c.lmemBytes % 4 = 0

end Sys2Proof
end

