-- ==== Sys2Proof/Machine/State.lean ====
section
/-! DEFINITION. Everything the spec gives QHC to remember (10_state.md R30 to R49), as plain data, and
the state after power-on reset (70_reset_and_hazards.md R551, R552). -/

namespace Sys2Proof.Machine

/-- RUN (R36). -/
inductive RunState where
  | idle | running | halted | error
deriving DecidableEq, Repr

/-- ERRCODE (R37): the codes 0..7 of 60_exceptions.md R500; 8..255 are never produced. -/
inductive ErrCode where
  | none | illegal | fetchFault | dataFault | divZero | hashState | badIndex | aborted
deriving DecidableEq, Repr

/-- HE.STATE (R41). -/
inductive HashState where
  | uninit | empty | accum | final
deriving DecidableEq, Repr

/-- The hash context HE (R40 to R45). -/
structure HashCtx where
  /-- HE.MODE (R40). -/
  mode : Mode
  /-- HE.STATE (R41). -/
  state : HashState
  /-- HE.H[0..7] (R42). -/
  h : Vector Word64 8
  /-- HE.BLK[0..127] (R43). -/
  blk : Vector Byte 128
  /-- HE.OFF (R44), 8 bits. -/
  off : BitVec 8
  /-- HE.TOTAL (R45). -/
  total : Word64
deriving DecidableEq, Repr

/-- The context after reset and after HWIPE (R551, 42_hash_engine.md R316). -/
def HashCtx.wiped : HashCtx where
  mode := .sha256
  state := .uninit
  h := Vector.replicate 8 0
  blk := Vector.replicate 128 0
  off := 0
  total := 0

/-- LMEM (R49) as the bytes that differ from what an unlisted address reads as. -/
abbrev Memory := List Host.Cell

/-- What the host does in one step (20_memory.md R90): a 32-bit read or write of an address of its own
address space. No other width is a move (92_eei_decisions.md D50). -/
inductive HostAccess where
  | read (addr : Nat)
  | write (addr : Nat) (value : Word32)
deriving DecidableEq, Repr

/-- Whose step is next. The spec lets the agents' steps interleave in any order (R30, R550); the
model holds the order still to come as data (DESIGN CHOICE, log 3). -/
inductive Turn where
  | sequencer
  | host (access : HostAccess)
  /-- The platform's reset input, with what LMEM then holds (R550, R552). -/
  | powerOn (lmem : Memory)
deriving DecidableEq, Repr

/-- The machine state. -/
structure State where
  /-- LMEM_BYTES and HOST_BASE (R7, R87): parameters, changed by no step. -/
  cfg : Config
  /-- X0..X15 (R31). -/
  xregs : Vector Word64 16
  /-- Z (R33). -/
  z : Bool
  /-- CP (R34). -/
  cp : Word32
  /-- N0..N3 (R35). -/
  nregs : Vector Number 4
  /-- RUN (R36). -/
  run : RunState
  /-- ERRCODE (R37). -/
  errcode : ErrCode
  /-- ERRCP (R37). -/
  errcp : Word32
  /-- ERRCMD (R37). -/
  errcmd : Word32
  /-- ABORT_REQ (R38). -/
  abortReq : Bool
  /-- IRQ (R39). -/
  irq : Bool
  /-- IRQ_EN (R39). -/
  irqEn : Bool
  /-- HOSTERR (R39). -/
  hostErr : Bool
  /-- HE (R40 to R45). -/
  he : HashCtx
  /-- LMEM (R49). -/
  lmem : Memory
  /-- The model's own: the turns still to come; when none is left the sequencer has every turn (log 3). -/
  turns : List Turn
  /-- The model's own: what the last host read returned (log 4). -/
  readData : Option Word32
deriving DecidableEq, Repr

/-- Why the machine stops with a fault: never. Every error of QHC is an error the sequencer takes
(60_exceptions.md R504), a next state; "nothing in QHC is stuck" (93_implementation_defined.md). -/
inductive Fault where
deriving DecidableEq, Repr

/-- Why the model gives a step no meaning. -/
inductive Refusal where
  /-- Raised by an arm of `exec` for an instruction without a meaning yet. Safe: it stops. No arm raises it. -/
  | notModelled (mnemonic : String)
  /-- Raised by a host turn whose address is not 4-byte aligned within the window. The spec does not define
  it ("refuse", 93_implementation_defined.md U13). Safe: it stops. -/
  | hostAccessUnaligned
deriving DecidableEq, Repr

/-- The state right after power-on reset of a QHC with the default parameters (R551). LMEM is unspecified
there (R552); this state lists nothing, so every byte reads 0 (DESIGN CHOICE, log 1). -/
def State.reset : State where
  cfg := {}
  xregs := Vector.replicate 16 0
  z := false
  cp := 0
  nregs := Vector.replicate 4 0
  run := .idle
  errcode := .none
  errcp := 0
  errcmd := 0
  abortReq := false
  irq := false
  irqEn := false
  hostErr := false
  he := .wiped
  lmem := []
  turns := []
  readData := none

end Sys2Proof.Machine
end

