-- ==== Sys2Proof/Machine/Ops.lean ====
section
/-! DEFINITION. The named operations every meaning is made of: LMEM bytes and ranges (00_scope.md R10,
20_memory.md R81, R85), registers, completing a command, taking an error (60_exceptions.md R504) and
restarting after one (10_state.md R61, 60_exceptions.md R511), reset (70_reset_and_hazards.md R550, R551),
and fetching (45_sequencer.md R450). -/

namespace Sys2Proof.Machine

/-! ## LMEM -/

/-- What an address that the memory does not list reads as (DESIGN CHOICE, log 1). -/
def Memory.unlisted : Byte := 0

/-- The byte at an address. -/
def Memory.get : Memory → Nat → Byte
  | [], _ => Memory.unlisted
  | (k, b) :: rest, a => if k = a then b else Memory.get rest a

/-- The list without an entry for the address. -/
def Memory.drop : Memory → Nat → Memory
  | [], _ => []
  | (k, b) :: rest, a => if k = a then Memory.drop rest a else (k, b) :: Memory.drop rest a

/-- The list with one byte put in its place, the addresses rising. -/
def Memory.put : Memory → Nat → Byte → Memory
  | [], a, v => [(a, v)]
  | (k, b) :: rest, a, v =>
    if a < k then (a, v) :: (k, b) :: rest
    else if k = a then (a, v) :: rest
    else (k, b) :: Memory.put rest a v

/-- Write one byte, keeping the canonical form: the value an unlisted address reads as is not listed. -/
def Memory.set (m : Memory) (a : Nat) (v : Byte) : Memory :=
  if v = Memory.unlisted then m.drop a else m.put a v

/-- The canonical form: addresses strictly rising, no entry equal to what an unlisted address reads as. -/
def Memory.wf : Memory → Bool
  | [] => true
  | [(_, b)] => b != Memory.unlisted
  | (k, b) :: (k', b') :: rest => b != Memory.unlisted && decide (k < k') && Memory.wf ((k', b') :: rest)

/-- Every listed address is below the bound. -/
def Memory.below (m : Memory) (bound : Nat) : Bool := m.all fun c => decide (c.1 < bound)

/-- `LMEM[a], ..., LMEM[a+n-1]` (R10). -/
def Memory.readBytes (m : Memory) : Nat → Nat → List Byte
  | _, 0 => []
  | a, n + 1 => m.get a :: m.readBytes (a + 1) n

/-- Write the sequence to `LMEM[a], LMEM[a+1], ...` (R10). -/
def Memory.writeBytes (m : Memory) : Nat → List Byte → Memory
  | _, [] => m
  | a, b :: bs => Memory.writeBytes (m.set a b) (a + 1) bs

/-- `LoadLE(a, n)` (R10, R81). -/
def Memory.loadLE (m : Memory) (a n : Nat) : Nat := fromLE (m.readBytes a n)

/-- `StoreLE(a, n, v)` (R10, R81). -/
def Memory.storeLE (m : Memory) (a n v : Nat) : Memory := m.writeBytes a (toLE n v)

/-- The canonical memory of `bound` bytes that the given list of cells describes; of two entries for one
address the first counts, and entries at or beyond the bound count for nothing. -/
def Memory.ofCells (bound : Nat) : List Host.Cell → Memory
  | [] => []
  | (k, b) :: rest =>
    if k < bound then Memory.set (Memory.ofCells bound rest) k b else Memory.ofCells bound rest

/-- R10, R85: the access of `n` bytes at `a` is in range (unbounded integers, no wrap). -/
abbrev State.inRange (s : State) (a n : Nat) : Prop := a + n ≤ s.cfg.lmemBytes

/-! ## Registers -/

/-- X[r] (R31: none is hardwired). -/
def State.x (s : State) (r : XReg) : Word64 := s.xregs[r]

/-- X[r] <- v. -/
def State.setX (s : State) (r : XReg) (v : Word64) : State := { s with xregs := s.xregs.set r v }

/-- N[r] (R35). -/
def State.n (s : State) (r : NReg) : Number := s.nregs[r]

/-- N[r] <- v. -/
def State.setN (s : State) (r : NReg) (v : Number) : State := { s with nregs := s.nregs.set r v }

/-- Z <- b (R33). -/
def State.setZ (s : State) (b : Bool) : State := { s with z := b }

/-- CP <- v (R34). -/
def State.setCp (s : State) (v : Word32) : State := { s with cp := v }

/-- CP <- (CP + 4) mod 2^32 (R34). -/
def State.advance (s : State) : State := s.setCp (s.cp + 4)

/-- Replace the hash context. -/
def State.setHe (s : State) (c : HashCtx) : State := { s with he := c }

/-- Replace LMEM. -/
def State.setLmem (s : State) (m : Memory) : State := { s with lmem := m }

/-- The turns still to come, once the next one is taken (log 3). -/
def State.setTurns (s : State) (rest : List Turn) : State := { s with turns := rest }

/-- The interrupt line to the host, IRQ & IRQ_EN (R39, R508). -/
def State.irqLine (s : State) : Bool := s.irq && s.irqEn

/-! ## How a command ends -/

/-- The answer of a meaning. -/
abbrev Answer := Host.Outcome State Fault Refusal

/-- The command completed: its writes are in `s`, and CP moves past it (R34, R450). -/
def complete (s : State) : Answer := .next s.advance

/-- ERROR_ENTRY(code, ecp, ecmd), the only trap mechanism (R504). -/
def State.errorEntry (s : State) (code : ErrCode) (ecp ecmd : Word32) : State :=
  { s with
    run := .error
    errcode := code
    errcp := ecp
    errcmd := ecmd
    cp := ecp
    irq := true }

/-- `raise code` of the command `i` at CP (00_scope.md R12): no effect but ERROR_ENTRY(code, CP, cmd).
The command word is the encoding of `i`, which is the word that was fetched (log 7). -/
def raise (code : ErrCode) (i : Instr) (s : State) : Answer := .next (s.errorEntry code s.cp (encode i))

/-- HALT's stop (45_sequencer.md R452): RUN <- HALTED and IRQ <- 1. -/
def State.halt (s : State) : State := { s with run := .halted, irq := true }

/-- The return from an error or a halt: the host's START (R61, R511). Ignored while RUNNING. -/
def State.start (s : State) : State :=
  match s.run with
  | .running => s
  | _ => { s with errcode := .none, abortReq := false, run := .running }

/-- CTRL.ABORT (R61, R38): a request while RUNNING, ignored otherwise. -/
def State.requestAbort (s : State) : State :=
  match s.run with
  | .running => { s with abortReq := true }
  | _ => s

/-- Every piece of state at its reset value except LMEM (R551, R550), and except what is not QHC's state:
the parameters and the host's side (log 3, log 4). -/
def State.softReset (s : State) : State :=
  { State.reset with cfg := s.cfg, lmem := s.lmem, turns := s.turns, readData := s.readData }

/-- Power-on reset (R550, R552): as the soft reset, with LMEM holding whatever it then holds. -/
def State.powerOn (s : State) (lmem : List Host.Cell) : State :=
  s.softReset.setLmem (Memory.ofCells s.cfg.lmemBytes lmem)

/-! ## Fetch -/

/-- R501: a command is fetched only from a 4-byte-aligned CP with CP + 4 <= LMEM_BYTES. -/
abbrev State.canFetch (s : State) : Prop := s.cp.toNat % 4 = 0 ∧ s.inRange s.cp.toNat 4

/-- The four bytes at CP. -/
def State.fetchBytes (s : State) : List Byte := s.lmem.readBytes s.cp.toNat 4

/-- The command word at CP, LoadLE(CP, 4) (R450). -/
def State.fetchWord (s : State) : Word32 := wordOfBytes s.fetchBytes

/-- The state with the word of a command placed where the next fetch reads it. -/
def State.placeWord (s : State) (c : Word32) : State :=
  s.setLmem (s.lmem.writeBytes s.cp.toNat (bytesOfWord c))

/-- A running sequencer whose next step is its fetch: RUN = RUNNING, no abort pending, no other turn
before it, and a CP it can fetch at (address 0 where the state's CP is not one). -/
def State.readyToFetch (s : State) : State :=
  { s with
    run := .running
    abortReq := false
    turns := []
    cp := if s.canFetch then s.cp else 0 }

end Sys2Proof.Machine
end

