-- ==== Sys2Proof/Machine/WordFunctions.lean ====
section
/-! DEFINITION. The bit-mixing functions of 41_word_unit.md R251 and the word helpers of 00_scope.md R13,
used by the word unit and by the SHA-2 compression (43_sha2_compression.md R351). -/

namespace Sys2Proof.Machine

/-- ROTR_w (R13). -/
def rotR {w : Nat} (x : BitVec w) (n : Nat) : BitVec w := x.rotateRight n

/-- ROTL_w (R13). -/
def rotL {w : Nat} (x : BitVec w) (n : Nat) : BitVec w := x.rotateLeft n

/-- BSWAP_w (R13): the bytes of the word in reverse order. -/
def bswap (w : Width) (x : BitVec w.bits) : BitVec w.bits := BitVec.ofNat w.bits (byteRev w.bytes x.toNat)

/-- Choose (R251). -/
def ch {w : Nat} (x y z : BitVec w) : BitVec w := (x &&& y) ^^^ (~~~x &&& z)

/-- Majority (R251). -/
def maj {w : Nat} (x y z : BitVec w) : BitVec w := (x &&& y) ^^^ (x &&& z) ^^^ (y &&& z)

/-- BSIG0, the round function Σ0 (R251). -/
def bsig0 : (w : Width) → BitVec w.bits → BitVec w.bits
  | .w32, x => rotR x 2 ^^^ rotR x 13 ^^^ rotR x 22
  | .w64, x => rotR x 28 ^^^ rotR x 34 ^^^ rotR x 39

/-- BSIG1, the round function Σ1 (R251). -/
def bsig1 : (w : Width) → BitVec w.bits → BitVec w.bits
  | .w32, x => rotR x 6 ^^^ rotR x 11 ^^^ rotR x 25
  | .w64, x => rotR x 14 ^^^ rotR x 18 ^^^ rotR x 41

/-- SSIG0, the schedule function σ0 (R251). -/
def ssig0 : (w : Width) → BitVec w.bits → BitVec w.bits
  | .w32, x => rotR x 7 ^^^ rotR x 18 ^^^ (x >>> 3)
  | .w64, x => rotR x 1 ^^^ rotR x 8 ^^^ (x >>> 7)

/-- SSIG1, the schedule function σ1 (R251). -/
def ssig1 : (w : Width) → BitVec w.bits → BitVec w.bits
  | .w32, x => rotR x 17 ^^^ rotR x 19 ^^^ (x >>> 10)
  | .w64, x => rotR x 19 ^^^ rotR x 61 ^^^ (x >>> 6)

end Sys2Proof.Machine
end

