-- ==== Sys2Proof/Machine/Ripemd160.lean ====
section
/-! DEFINITION. RMD160_COMPRESS, the compression of RIPEMD-160 (44_ripemd160.md R400 to R404, R411). -/

namespace Sys2Proof.Machine

/-- The five words of a line, or of the state (R400, R403). -/
structure RmdVars where
  a : Word32
  b : Word32
  c : Word32
  d : Word32
  e : Word32
deriving DecidableEq, Repr

/-- The first `n` little-endian 32-bit words of a byte sequence (R401). -/
def wordsLE : Nat → List Byte → List Word32
  | 0, _ => []
  | n + 1, bs => BitVec.ofNat 32 (fromLE (bs.take 4)) :: wordsLE n (bs.drop 4)

/-- f(j, x, y, z) (R402). -/
def rmdF (j : Nat) (x y z : Word32) : Word32 :=
  if j ≤ 15 then x ^^^ y ^^^ z
  else if j ≤ 31 then (x &&& y) ||| (~~~x &&& z)
  else if j ≤ 47 then (x ||| ~~~y) ^^^ z
  else if j ≤ 63 then (x &&& z) ||| (y &&& ~~~z)
  else x ^^^ (y ||| ~~~z)

/-- One step of a line (R403): function index `fj`, message word `x`, constant `k`, rotation `s`. -/
def rmdStep (fj : Nat) (x k : Word32) (s : Nat) (v : RmdVars) : RmdVars where
  a := v.e
  b := rotL (v.a + rmdF fj v.b v.c v.d + x + k) s + v.e
  c := v.b
  d := rotL v.c 10
  e := v.d

/-- The left line's step j (R403, R405, R407, R409). -/
def leftStep (x : List Word32) (v : RmdVars) (j : Nat) : RmdVars :=
  rmdStep j (x.getD (leftIndex.getD j 0) 0) (leftConst.getD (j / 16) 0) (leftRotate.getD j 0) v

/-- The right line's step j (R403, R406, R408, R409). -/
def rightStep (x : List Word32) (v : RmdVars) (j : Nat) : RmdVars :=
  rmdStep (79 - j) (x.getD (rightIndex.getD j 0) 0) (rightConst.getD (j / 16) 0) (rightRotate.getD j 0) v

/-- The step numbers 0..79. -/
def rmdSteps : List Nat := List.range 80

/-- The low 32 bits of H[0..4]. -/
def rmdStart (h : Vector Word64 8) : RmdVars where
  a := h[0].setWidth 32
  b := h[1].setWidth 32
  c := h[2].setWidth 32
  d := h[3].setWidth 32
  e := h[4].setWidth 32

/-- Combination (R404) of the state `u` with the left line `l` and the right line `r`; H[5..7] stay 0 (R411). -/
def rmdCombine (u l r : RmdVars) : Vector Word64 8 :=
  #v[(u.b + l.c + r.d).setWidth 64, (u.c + l.d + r.e).setWidth 64, (u.d + l.e + r.a).setWidth 64,
     (u.e + l.a + r.b).setWidth 64, (u.a + l.b + r.c).setWidth 64, 0, 0, 0]

/-- RMD160_COMPRESS(H, M) (R400). -/
def rmd160Compress (h : Vector Word64 8) (m : List Byte) : Vector Word64 8 :=
  let x := wordsLE 16 m
  let u := rmdStart h
  rmdCombine u (rmdSteps.foldl (leftStep x) u) (rmdSteps.foldl (rightStep x) u)

end Sys2Proof.Machine
end

