-- ==== Sys2Proof/Machine/Sha2.lean ====
section
/-! DEFINITION. SHA2_COMPRESS_w, the compression of SHA-256 and SHA-512 (43_sha2_compression.md R350 to R355). -/

namespace Sys2Proof.Machine

/-- The working registers a..h (R354). -/
structure Sha2Vars (n : Nat) where
  a : BitVec n
  b : BitVec n
  c : BitVec n
  d : BitVec n
  e : BitVec n
  f : BitVec n
  g : BitVec n
  h : BitVec n
deriving DecidableEq, Repr

/-- The first `n` big-endian words of a byte sequence (R352). -/
def wordsBE (w : Width) : Nat → List Byte → List (BitVec w.bits)
  | 0, _ => []
  | n + 1, bs => BitVec.ofNat w.bits (fromBE (bs.take w.bytes)) :: wordsBE w n (bs.drop w.bytes)

/-- The next schedule word from the words before it, the newest first (R353): the words 2, 7, 15 and 16
places back. -/
def nextScheduleWord (w : Width) (ws : List (BitVec w.bits)) : BitVec w.bits :=
  ssig1 w (ws.getD 1 0) + ws.getD 6 0 + ssig0 w (ws.getD 14 0) + ws.getD 15 0

/-- The schedule extended by `n` words, the newest first (R353). -/
def extendSchedule (w : Width) : Nat → List (BitVec w.bits) → List (BitVec w.bits)
  | 0, ws => ws
  | n + 1, ws => extendSchedule w n (nextScheduleWord w ws :: ws)

/-- W[0..R-1] of a block (R352, R353), R being the number of round constants. -/
def schedule (w : Width) (m : List Byte) : List (BitVec w.bits) :=
  (extendSchedule w ((roundConstants w).length - 16) (wordsBE w 16 m).reverse).reverse

/-- One round (R354) with the pair (K[t], W[t]). -/
def sha2Round (w : Width) (v : Sha2Vars w.bits) (kw : BitVec w.bits × BitVec w.bits) : Sha2Vars w.bits :=
  let t1 := v.h + bsig1 w v.e + ch v.e v.f v.g + kw.1 + kw.2
  let t2 := bsig0 w v.a + maj v.a v.b v.c
  { a := t1 + t2, b := v.a, c := v.b, d := v.c, e := v.d + t1, f := v.e, g := v.f, h := v.g }

/-- The low w bits of H[0..7] as the working registers' start (R350, R354). -/
def sha2Start (w : Width) (h : Vector Word64 8) : Sha2Vars w.bits where
  a := h[0].setWidth w.bits
  b := h[1].setWidth w.bits
  c := h[2].setWidth w.bits
  d := h[3].setWidth w.bits
  e := h[4].setWidth w.bits
  f := h[5].setWidth w.bits
  g := h[6].setWidth w.bits
  h := h[7].setWidth w.bits

/-- Feed-forward (R355): each state word plus its working register mod 2^w, zero-extended to 64 bits. -/
def sha2Feed (w : Width) (u v : Sha2Vars w.bits) : Vector Word64 8 :=
  #v[(u.a + v.a).setWidth 64, (u.b + v.b).setWidth 64, (u.c + v.c).setWidth 64, (u.d + v.d).setWidth 64,
     (u.e + v.e).setWidth 64, (u.f + v.f).setWidth 64, (u.g + v.g).setWidth 64, (u.h + v.h).setWidth 64]

/-- SHA2_COMPRESS_w(H, M) (R350). -/
def sha2Compress (w : Width) (h : Vector Word64 8) (m : List Byte) : Vector Word64 8 :=
  sha2Feed w (sha2Start w h) (((roundConstants w).zip (schedule w m)).foldl (sha2Round w) (sha2Start w h))

end Sys2Proof.Machine
end

