-- ==== Sys2Proof/Machine/HashEngine.lean ====
section
/-! DEFINITION. The hash engine's internal procedures: SEED, COMPRESS, APPEND, FINALIZE, LENFIELD and OUTPUT
(42_hash_engine.md R302, R306, R308 to R310, R313). -/

namespace Sys2Proof.Machine

/-- SEED[mode] (R302; 43_sha2_compression.md R362 to R367; 44_ripemd160.md R410). -/
def seedOf : Mode → Vector Word64 8
  | .sha256 => seedSha256
  | .sha224 => seedSha224
  | .sha512 => seedSha512
  | .sha384 => seedSha384
  | .sha512t256 => seedSha512t256
  | .sha512t224 => seedSha512t224
  | .rmd160 => seedRmd160

/-- HINIT's context (R302). -/
def HashCtx.init (m : Mode) : HashCtx where
  mode := m
  state := .empty
  h := seedOf m
  blk := Vector.replicate 128 0
  off := 0
  total := 0

/-- The compression function of a mode, which depends on the state width only (R308). -/
def compressFn : Mode → Vector Word64 8 → List Byte → Vector Word64 8
  | .sha256 => sha2Compress .w32
  | .sha224 => sha2Compress .w32
  | .sha512 => sha2Compress .w64
  | .sha384 => sha2Compress .w64
  | .sha512t256 => sha2Compress .w64
  | .sha512t224 => sha2Compress .w64
  | .rmd160 => rmd160Compress

/-- HE.BLK[0..B-1]. -/
def HashCtx.block (c : HashCtx) : List Byte := c.blk.toList.take c.mode.blockBytes

/-- COMPRESS() (R308). -/
def HashCtx.compress (c : HashCtx) : HashCtx :=
  { c with h := compressFn c.mode c.h c.block, off := 0 }

/-- HE.BLK[HE.OFF] <- b (R306). -/
def HashCtx.putByte (c : HashCtx) (b : Byte) : HashCtx := { c with blk := c.blk.setIfInBounds c.off.toNat b }

/-- One byte of APPEND: it goes to HE.BLK[HE.OFF], and a block that it fills is compressed at once (R306; log 8). -/
def HashCtx.appendByte (c : HashCtx) (b : Byte) : HashCtx :=
  if c.off.toNat + 1 < c.mode.blockBytes then { c.putByte b with off := c.off + 1 }
  else (c.putByte b).compress

/-- APPEND(m) (R306, in the form R315 gives as its reason; log 8). -/
def HashCtx.append (c : HashCtx) (m : List Byte) : HashCtx := m.foldl HashCtx.appendByte c

/-- The bytes of `blk` with those of [lo, lo+n) set to 0 (R309, steps 3 and 4). -/
def zeroBytes (blk : Vector Byte 128) : Nat → Nat → Vector Byte 128
  | _, 0 => blk
  | lo, n + 1 => zeroBytes (blk.setIfInBounds lo 0) (lo + 1) n

/-- HE.BLK[HE.OFF .. hi-1] <- 0. -/
def HashCtx.zeroTo (c : HashCtx) (hi : Nat) : HashCtx :=
  { c with blk := zeroBytes c.blk c.off.toNat (hi - c.off.toNat) }

/-- R309 step 1: (8·HE.TOTAL) mod 2^(8·LB). -/
def HashCtx.lengthBits (c : HashCtx) : Nat := (8 * c.total.toNat) % 2 ^ (8 * c.mode.lengthBytes)

/-- LENFIELD (R310): big-endian for SHA-2, little-endian for RIPEMD-160. -/
def lengthField (m : Mode) (lbits : Nat) : List Byte :=
  match m with
  | .sha256 => toBE m.lengthBytes lbits
  | .sha224 => toBE m.lengthBytes lbits
  | .sha512 => toBE m.lengthBytes lbits
  | .sha384 => toBE m.lengthBytes lbits
  | .sha512t256 => toBE m.lengthBytes lbits
  | .sha512t224 => toBE m.lengthBytes lbits
  | .rmd160 => toLE m.lengthBytes lbits

/-- The offset of the length field in the block, B - LB. -/
def Mode.lengthOffset (m : Mode) : Nat := m.blockBytes - m.lengthBytes

/-- R309 step 3: no room for the length field means zeros to the end of the block and an extra compression. -/
def HashCtx.makeRoom (c : HashCtx) : HashCtx :=
  if Mode.lengthOffset c.mode < c.off.toNat then (c.zeroTo c.mode.blockBytes).compress else c

/-- R309 step 4: zeros up to the length field. -/
def HashCtx.padZeros (c : HashCtx) : HashCtx :=
  { c.zeroTo (Mode.lengthOffset c.mode) with off := BitVec.ofNat 8 (Mode.lengthOffset c.mode) }

/-- FINALIZE() (R309, steps 1 to 6). -/
def HashCtx.finalize (c : HashCtx) : HashCtx :=
  let padded := ((c.append [0x80]).makeRoom.padZeros).append (lengthField c.mode c.lengthBits)
  { padded with state := .final, off := BitVec.ofNat 8 c.mode.blockBytes }

/-- The whole state in wire byte order, before truncation (R313). -/
def HashCtx.wireBytes (c : HashCtx) : List Byte :=
  match c.mode with
  | .sha256 => c.h.toList.flatMap fun v => toBE 4 v.toNat
  | .sha224 => c.h.toList.flatMap fun v => toBE 4 v.toNat
  | .sha512 => c.h.toList.flatMap fun v => toBE 8 v.toNat
  | .sha384 => c.h.toList.flatMap fun v => toBE 8 v.toNat
  | .sha512t256 => c.h.toList.flatMap fun v => toBE 8 v.toNat
  | .sha512t224 => c.h.toList.flatMap fun v => toBE 8 v.toNat
  | .rmd160 => c.h.toList.flatMap fun v => toLE 4 v.toNat

/-- OUTPUT(): the first OUT bytes (R313). -/
def HashCtx.output (c : HashCtx) : List Byte := c.wireBytes.take c.mode.digestBytes

end Sys2Proof.Machine
end

