-- ==== Sys2Proof/Machine/Operands.lean ====
section
/-! DEFINITION. The operand forms: effective addresses (45_sequencer.md R461), branch targets
(30_encoding.md R124), word-unit operands (41_word_unit.md R250) and the SIZE and WW views of number
registers and scalars (40_number_alu.md R200, R201). -/

namespace Sys2Proof.Machine

/-- R461: EA = (X[ra] + sext_64(imm16)) mod 2^64, as an unbounded integer from here on. -/
def effAddr (s : State) (ra : XReg) (imm16 : BitVec 16) : Nat := (s.x ra + imm16.signExtend 64).toNat

/-- R124: target = (CP + 4·sext_32(off16)) mod 2^32. -/
def branchTarget (s : State) (off16 : BitVec 16) : Word32 := s.cp + 4 * off16.signExtend 32

/-- R250: the operand X[r][w-1:0]. -/
def wordOperand (w : Width) (s : State) (r : XReg) : BitVec w.bits := (s.x r).setWidth w.bits

/-- R250: the w-bit result written as zext_64(r). -/
def writeWord (w : Width) (s : State) (rd : XReg) (r : BitVec w.bits) : State := s.setX rd (r.setWidth 64)

/-- R255, R256: the rotate amount X[rb] mod w, of the full 64-bit register. -/
def rotateAmount (w : Width) (s : State) (rb : XReg) : Nat := (s.x rb).toNat % w.bits

/-- R200: V(i) = N[i][SIZE-1:0]. -/
def numberValue (sz : SizeCode) (s : State) (r : NReg) : Nat := (s.n r).toNat % 2 ^ sizeBits sz

/-- R200: N[d] <- zext_512(r) for a SIZE-bit result. -/
def writeNumber (sz : SizeCode) (s : State) (rd : NReg) (r : Nat) : State :=
  s.setN rd (BitVec.ofNat 512 (r % 2 ^ sizeBits sz))

/-- R201: the scalar X[s][WW-1:0]. -/
def scalarValue (ww : NumWidth) (s : State) (r : XReg) : Nat := (s.x r).toNat % 2 ^ ww.bits

/-- R213, R214: the word index is inside the 512-bit register. -/
abbrev indexInRange (ww : NumWidth) (idx8 : Fin 256) : Prop := idx8.val < 512 / ww.bits

end Sys2Proof.Machine
end

