-- ==== Sys2Proof/Machine/HashCommands.lean ====
section
/-! DEFINITION. The hash commands HINIT, HUPD, HDIG, HSTAT and HWIPE (42_hash_engine.md R301 to R305, R316). -/

namespace Sys2Proof.Machine

/-- R302: legal in every state. -/
def execHinit (m : Mode) (s : State) : Answer := complete (s.setHe (HashCtx.init m))

/-- HE.STATE after HUPD of L bytes (R301, R303): `if L > 0: HE.STATE <- ACCUM`. -/
def afterUpdate (old : HashState) (len : Nat) : HashState := if len = 0 then old else .accum

/-- The context after HUPD has taken `len` bytes `m` (R303). -/
def HashCtx.update (c : HashCtx) (m : List Byte) (len : Nat) : HashCtx :=
  { c.append m with
    total := BitVec.ofNat 64 (c.total.toNat + len)
    state := afterUpdate c.state len }

/-- R301, R303: HUPD is legal in EMPTY and ACCUM. -/
def acceptsUpdate : HashState → Bool
  | .uninit => false
  | .empty => true
  | .accum => true
  | .final => false

/-- R303: a = X[ra], L = X[rb]; HASH_STATE, then DATA_FAULT. -/
def execHupd (ra rb : XReg) (s : State) : Answer :=
  if acceptsUpdate s.he.state then
    if s.inRange (s.x ra).toNat (s.x rb).toNat then
      complete (s.setHe
        (s.he.update (s.lmem.readBytes (s.x ra).toNat (s.x rb).toNat) (s.x rb).toNat))
    else raise .dataFault (.hupd ra rb) s
  else raise .hashState (.hupd ra rb) s

/-- R304: the context that HDIG outputs, finalized unless it is FINAL already. -/
def HashCtx.digested (c : HashCtx) : HashCtx :=
  match c.state with
  | .final => c
  | _ => c.finalize

/-- R304: d = X[ra]; HASH_STATE, then DATA_FAULT, both before finalizing. -/
def execHdig (ra : XReg) (s : State) : Answer :=
  match s.he.state with
  | .uninit => raise .hashState (.hdig ra) s
  | _ =>
    if s.inRange (s.x ra).toNat s.he.mode.digestBytes then
      complete ((s.setHe s.he.digested).setLmem
        (s.lmem.writeBytes (s.x ra).toNat s.he.digested.output))
    else raise .dataFault (.hdig ra) s

/-- The codes of HE.STATE (10_state.md R41). -/
def HashState.code : HashState → BitVec 2
  | .uninit => 0
  | .empty => 1
  | .accum => 2
  | .final => 3

/-- R305: the selected field, zero-extended. -/
def HashCtx.status (c : HashCtx) : StatSel → Word64
  | .total => c.total
  | .off => c.off.setWidth 64
  | .mode => c.mode.code.setWidth 64
  | .state => c.state.code.setWidth 64

/-- R305: legal in every state. -/
def execHstat (rd : XReg) (sel : StatSel) (s : State) : Answer := complete (s.setX rd (s.he.status sel))

/-- R316: legal in every state. -/
def execHwipe (s : State) : Answer := complete (s.setHe .wiped)

end Sys2Proof.Machine
end

