-- ==== Sys2Proof/Machine/HostPort.lean ====
section
/-! DEFINITION. The host interface: the register block (10_state.md R60 to R68), the LMEM window and the
accesses dropped while RUNNING (20_memory.md R90, R91). Offsets are bytes from HOST_BASE (R87). -/

namespace Sys2Proof.Machine

/-- The codes of RUN (R36). -/
def RunState.code : RunState → BitVec 2
  | .idle => 0
  | .running => 1
  | .halted => 2
  | .error => 3

/-- The codes of ERRCODE (60_exceptions.md R500). -/
def ErrCode.code : ErrCode → BitVec 8
  | .none => 0
  | .illegal => 1
  | .fetchFault => 2
  | .dataFault => 3
  | .divZero => 4
  | .hashState => 5
  | .badIndex => 6
  | .aborted => 7

/-- CTRL as read (R61): the write-1-to-set bits read 0. -/
def State.ctrlWord (s : State) : Word32 := bitField s.irqEn 3

/-- STATUS as read (R62). -/
def State.statusWord (s : State) : Word32 :=
  placeField s.run.code 0 ||| bitField s.irq 2 ||| bitField s.hostErr 3 ||| bitField s.z 4 |||
    placeField s.errcode.code 8 ||| placeField s.he.mode.code 16 ||| placeField s.he.state.code 20

/-- PARAM0 (R66): LMEM_BYTES, in 32 bits (R8; log 12). -/
def State.param0 (s : State) : Word32 := BitVec.ofNat 32 s.cfg.lmemBytes

/-- PARAM1 (R66): NX = 16, NN = 4, NBITS/32 = 16, modes 0..6. -/
def param1 : Word32 :=
  placeField (16 : BitVec 8) 0 ||| placeField (4 : BitVec 8) 8 ||| placeField (16 : BitVec 8) 16 |||
    placeField (0x7F : BitVec 8) 24

/-- The first byte offset of the LMEM window (R68, R90). -/
def lmemWindow : Nat := 0x10000

/-- The offset is in the LMEM window (R90). -/
abbrev State.inWindow (s : State) (o : Nat) : Prop := lmemWindow ≤ o ∧ o < lmemWindow + s.cfg.lmemBytes

/-- What a register of the block reads as; reserved, unmapped and write-only offsets read 0 (R60 to R68, R90). -/
def State.registerWord (s : State) (o : Nat) : Word32 :=
  if o = 0x000 then 0x51484301
  else if o = 0x004 then s.ctrlWord
  else if o = 0x008 then s.statusWord
  else if o = 0x00C then s.cp
  else if o = 0x010 then s.errcp
  else if o = 0x014 then s.errcmd
  else if o = 0x018 then s.param0
  else if o = 0x01C then param1
  else 0

/-- A host read at a window offset (R90, R91): the value goes to the host, HOSTERR is set if it is dropped. -/
def State.hostRead (s : State) (o : Nat) : State :=
  if s.inWindow o then
    if s.run = .running then { s with hostErr := true, readData := some 0 }
    else { s with readData := some (BitVec.ofNat 32 (s.lmem.loadLE (o - lmemWindow) 4)) }
  else { s with readData := some (s.registerWord o) }

/-- A write of CTRL (R61): SOFT_RESET alone, or IRQ_EN, then ABORT, then START. -/
def State.writeCtrl (s : State) (v : Word32) : State :=
  if v.getLsbD 2 then s.softReset
  else
    let s1 := { s with irqEn := v.getLsbD 3 }
    let s2 := if v.getLsbD 1 then s1.requestAbort else s1
    if v.getLsbD 0 then s2.start else s2

/-- A write of STATUS (R62): IRQ and HOSTERR are cleared by a 1. -/
def State.writeStatus (s : State) (v : Word32) : State :=
  { s with irq := s.irq && !v.getLsbD 2, hostErr := s.hostErr && !v.getLsbD 3 }

/-- A write of CP (R63, R91): dropped with HOSTERR while RUNNING. -/
def State.writeCp (s : State) (v : Word32) : State :=
  if s.run = .running then { s with hostErr := true } else { s with cp := v }

/-- A host write at a window offset (R61 to R67, R90, R91). -/
def State.hostWrite (s : State) (o : Nat) (v : Word32) : State :=
  if s.inWindow o then
    if s.run = .running then { s with hostErr := true }
    else { s with lmem := s.lmem.storeLE (o - lmemWindow) 4 v.toNat }
  else if o = 0x004 then s.writeCtrl v
  else if o = 0x008 then s.writeStatus v
  else if o = 0x00C then s.writeCp v
  else s

/-- The window of a QHC in the host's address space (R87, R90): the 32-bit offsets, and all of LMEM. -/
def Config.windowBytes (c : Config) : Nat := max (2 ^ 32) (lmemWindow + c.lmemBytes)

/-- The window offset of a host address; none for an address of another device (R87). -/
def Config.windowOffset (c : Config) (addr : Nat) : Option Nat :=
  if c.hostBase ≤ addr ∧ addr - c.hostBase < Config.windowBytes c then some (addr - c.hostBase) else none

/-- The address of a host access. -/
def HostAccess.addr : HostAccess → Nat
  | .read a => a
  | .write a _ => a

/-- The effect of an aligned access at a window offset (R90). -/
def State.hostEffect (s : State) (o : Nat) : HostAccess → State
  | .read _ => s.hostRead o
  | .write _ v => s.hostWrite o v

/-- The host's turn: one 32-bit access (R30, R90). An access outside the window does not reach QHC (log 11);
one that is not 4-byte aligned is refused (93_implementation_defined.md U13; log 10). -/
def hostTurn (a : HostAccess) (s : State) : Answer :=
  match Config.windowOffset s.cfg a.addr with
  | none => .next s
  | some o => if o % 4 = 0 then .next (s.hostEffect o a) else .refused .hostAccessUnaligned

end Sys2Proof.Machine
end

