-- ==== Sys2Proof/Machine/Control.lean ====
section
/-! DEFINITION. The control commands NOP, HALT, JMP, JZ and JNZ (45_sequencer.md R451 to R455). -/

namespace Sys2Proof.Machine

/-- R451: no change but CP. -/
def execNop (s : State) : Answer := complete s

/-- R452: CP moves on, RUN <- HALTED, IRQ <- 1. -/
def execHalt (s : State) : Answer := complete s.halt

/-- R453. -/
def execJmp (off16 : BitVec 16) (s : State) : Answer := .next (s.setCp (branchTarget s off16))

/-- R454: taken when Z = 1. -/
def execJz (off16 : BitVec 16) (s : State) : Answer :=
  if s.z then .next (s.setCp (branchTarget s off16)) else complete s

/-- R455: taken when Z = 0. -/
def execJnz (off16 : BitVec 16) (s : State) : Answer :=
  if s.z then complete s else .next (s.setCp (branchTarget s off16))

end Sys2Proof.Machine
end

