-- ==== Sys2Proof/Machine/LoadStore.lean ====
section
/-! DEFINITION. The scalar loads and stores LD8 to LD64 and ST8 to ST64 (45_sequencer.md R461 to R469). -/

namespace Sys2Proof.Machine

/-- The loads' shared form: X[rd] <- zext_64(LoadLE(EA, n)), or DATA_FAULT (R461, R85). -/
def loadX (n : Nat) (i : Instr) (rd ra : XReg) (imm16 : BitVec 16) (s : State) : Answer :=
  if s.inRange (effAddr s ra imm16) n then
    complete (s.setX rd (BitVec.ofNat 64 (s.lmem.loadLE (effAddr s ra imm16) n)))
  else raise .dataFault i s

/-- The stores' shared form: StoreLE(EA, n, X[rs]), or DATA_FAULT with nothing written (R461, R85). -/
def storeX (n : Nat) (i : Instr) (rs ra : XReg) (imm16 : BitVec 16) (s : State) : Answer :=
  if s.inRange (effAddr s ra imm16) n then
    complete (s.setLmem (s.lmem.storeLE (effAddr s ra imm16) n (s.x rs).toNat))
  else raise .dataFault i s

/-- R462. -/
def execLd8 (rd ra : XReg) (imm16 : BitVec 16) (s : State) : Answer := loadX 1 (.ld8 rd ra imm16) rd ra imm16 s

/-- R463. -/
def execLd16 (rd ra : XReg) (imm16 : BitVec 16) (s : State) : Answer := loadX 2 (.ld16 rd ra imm16) rd ra imm16 s

/-- R464. -/
def execLd32 (rd ra : XReg) (imm16 : BitVec 16) (s : State) : Answer := loadX 4 (.ld32 rd ra imm16) rd ra imm16 s

/-- R465. -/
def execLd64 (rd ra : XReg) (imm16 : BitVec 16) (s : State) : Answer := loadX 8 (.ld64 rd ra imm16) rd ra imm16 s

/-- R466. -/
def execSt8 (rs ra : XReg) (imm16 : BitVec 16) (s : State) : Answer := storeX 1 (.st8 rs ra imm16) rs ra imm16 s

/-- R467. -/
def execSt16 (rs ra : XReg) (imm16 : BitVec 16) (s : State) : Answer := storeX 2 (.st16 rs ra imm16) rs ra imm16 s

/-- R468. -/
def execSt32 (rs ra : XReg) (imm16 : BitVec 16) (s : State) : Answer := storeX 4 (.st32 rs ra imm16) rs ra imm16 s

/-- R469. -/
def execSt64 (rs ra : XReg) (imm16 : BitVec 16) (s : State) : Answer := storeX 8 (.st64 rs ra imm16) rs ra imm16 s

end Sys2Proof.Machine
end

