-- ==== Sys2Proof/Machine/Flags.lean ====
section
/-! DEFINITION. The values of the one flag Z (10_state.md R33): there is no carry, sign or overflow flag. -/

namespace Sys2Proof.Machine

/-- Z of ADDI and TSTX: the 64-bit value is 0 (45_sequencer.md R459, R460). -/
def zeroFlag (v : Word64) : Bool := v == 0

/-- Z of NISZ: the SIZE-bit value is 0 (40_number_alu.md R209). -/
def numberZeroFlag (v : Nat) : Bool := v == 0

/-- Z of NEQ: the two SIZE-bit values are equal (R210). -/
def numberEqualFlag (v w : Nat) : Bool := v == w

end Sys2Proof.Machine
end

