-- ==== Sys2Proof/Machine/NumberAlu.lean ====
section
/-! DEFINITION. The fixed-width integer ALU, NLD to NSETW (40_number_alu.md R200 to R214). Values are
unsigned integers; results are computed exactly and reduced mod 2^SIZE (R215). -/

namespace Sys2Proof.Machine

/-- R202: N[rd] <- zext_512(LoadLE(X[ra], SIZE/8)), or DATA_FAULT. -/
def execNld (sz : SizeCode) (nd : NReg) (ra : XReg) (s : State) : Answer :=
  if s.inRange (s.x ra).toNat (sizeBytes sz) then
    complete (writeNumber sz s nd (s.lmem.loadLE (s.x ra).toNat (sizeBytes sz)))
  else raise .dataFault (.nld sz nd ra) s

/-- R203: MemWrite(X[ra], LE_{SIZE/8}(N[rs][SIZE-1:0])), or DATA_FAULT. -/
def execNst (sz : SizeCode) (ns : NReg) (ra : XReg) (s : State) : Answer :=
  if s.inRange (s.x ra).toNat (sizeBytes sz) then
    complete (s.setLmem (s.lmem.storeLE (s.x ra).toNat (sizeBytes sz) (numberValue sz s ns)))
  else raise .dataFault (.nst sz ns ra) s

/-- R204: all 512 bits 0. -/
def execNclr (nd : NReg) (s : State) : Answer := complete (s.setN nd 0)

/-- R205. -/
def execNmov (sz : SizeCode) (nd na : NReg) (s : State) : Answer :=
  complete (writeNumber sz s nd (numberValue sz s na))

/-- R206: (V + n) mod 2^SIZE. -/
def execNadds (sz : SizeCode) (ww : NumWidth) (nd : NReg) (ra : XReg) (s : State) : Answer :=
  if sizeFitsWidth sz ww then
    complete (writeNumber sz s nd (numberValue sz s nd + scalarValue ww s ra))
  else raise .illegal (.nadds sz ww nd ra) s

/-- R207: (V · n) mod 2^SIZE. -/
def execNmuls (sz : SizeCode) (ww : NumWidth) (nd : NReg) (ra : XReg) (s : State) : Answer :=
  if sizeFitsWidth sz ww then
    complete (writeNumber sz s nd (numberValue sz s nd * scalarValue ww s ra))
  else raise .illegal (.nmuls sz ww nd ra) s

/-- R208: quotient to N[rd], remainder to X[ra]; divisor 0 raises DIV_ZERO. -/
def execNdivs (sz : SizeCode) (ww : NumWidth) (nd : NReg) (xr xb : XReg) (s : State) : Answer :=
  if sizeFitsWidth sz ww then
    if scalarValue ww s xb = 0 then raise .divZero (.ndivs sz ww nd xr xb) s
    else
      complete ((writeNumber sz s nd (numberValue sz s nd / scalarValue ww s xb)).setX xr
        (BitVec.ofNat 64 (numberValue sz s nd % scalarValue ww s xb)))
  else raise .illegal (.ndivs sz ww nd xr xb) s

/-- R209: Z <- V = 0. -/
def execNisz (sz : SizeCode) (na : NReg) (s : State) : Answer :=
  complete (s.setZ (numberZeroFlag (numberValue sz s na)))

/-- R210: Z <- V(ra) = V(rb). -/
def execNeq (sz : SizeCode) (na nb : NReg) (s : State) : Answer :=
  complete (s.setZ (numberEqualFlag (numberValue sz s na) (numberValue sz s nb)))

/-- R211: all SIZE/8 bytes reversed. -/
def execNbswap (sz : SizeCode) (nd na : NReg) (s : State) : Answer :=
  complete (writeNumber sz s nd (byteRev (sizeBytes sz) (numberValue sz s na)))

/-- The bytes of R212's result, lowest first: those of word k of `v` in reverse order, for k = from, from+1, ... -/
def swappedWordBytes (wordBytes v : Nat) : Nat → Nat → List Byte
  | _, 0 => []
  | k, n + 1 => toBE wordBytes (v / 2 ^ (8 * wordBytes * k)) ++ swappedWordBytes wordBytes v (k + 1) n

/-- R212: the bytes of each WW-bit word reversed, the order of the words kept. -/
def execNbswapw (sz : SizeCode) (ww : NumWidth) (nd na : NReg) (s : State) : Answer :=
  if sizeFitsWidth sz ww then
    complete (writeNumber sz s nd
      (fromLE (swappedWordBytes ww.bytes (numberValue sz s na) 0 (sizeBits sz / ww.bits))))
  else raise .illegal (.nbswapw sz ww nd na) s

/-- R213: X[rd] <- zext_64(word idx of N[ra]), or BAD_INDEX. -/
def execNgetw (ww : NumWidth) (rd : XReg) (na : NReg) (idx8 : Fin 256) (s : State) : Answer :=
  if indexInRange ww idx8 then
    complete (s.setX rd (((s.n na).extractLsb' (idx8.val * ww.bits) ww.bits).setWidth 64))
  else raise .badIndex (.ngetw ww rd na idx8) s

/-- R214: word idx of N[rd] <- X[ra][WW-1:0], all other bits kept, or BAD_INDEX. -/
def execNsetw (ww : NumWidth) (nd : NReg) (ra : XReg) (idx8 : Fin 256) (s : State) : Answer :=
  if indexInRange ww idx8 then
    complete (s.setN nd (insertField (s.n nd) (idx8.val * ww.bits) ((s.x ra).setWidth ww.bits)))
  else raise .badIndex (.nsetw ww nd ra idx8) s

end Sys2Proof.Machine
end

