-- ==== Sys2Proof/Machine/Scalar.lean ====
section
/-! DEFINITION. The scalar moves and arithmetic MOVI, MOVK, MOV, ADDI and TSTX (45_sequencer.md R456 to R460). -/

namespace Sys2Proof.Machine

/-- R456: X[rd] <- zext_64(imm16). -/
def execMovi (rd : XReg) (imm16 : BitVec 16) (s : State) : Answer :=
  complete (s.setX rd (imm16.setWidth 64))

/-- R457: X[rd][16·hw+15 : 16·hw] <- imm16, the other 48 bits kept. -/
def execMovk (rd : XReg) (imm16 : BitVec 16) (hw : Fin 4) (s : State) : Answer :=
  complete (s.setX rd (insertField (s.x rd) (16 * hw.val) imm16))

/-- R458: X[rd] <- X[ra]. -/
def execMov (rd ra : XReg) (s : State) : Answer := complete (s.setX rd (s.x ra))

/-- R459: X[rd] <- (X[ra] + sext_64(imm16)) mod 2^64 and Z <- that is 0. -/
def execAddi (rd ra : XReg) (imm16 : BitVec 16) (s : State) : Answer :=
  let r := s.x ra + imm16.signExtend 64
  complete ((s.setX rd r).setZ (zeroFlag r))

/-- R460: Z <- X[ra] = 0. -/
def execTstx (ra : XReg) (s : State) : Answer := complete (s.setZ (zeroFlag (s.x ra)))

end Sys2Proof.Machine
end

