-- ==== Sys2Proof/Machine/WordUnit.lean ====
section
/-! DEFINITION. The word unit, WADD to WSSIG1 (41_word_unit.md R250 to R263). -/

namespace Sys2Proof.Machine

/-- A word-unit command of one operand: X[rd] <- zext_64(f(a)) (R250). -/
def wordOp1 (w : Width) (f : BitVec w.bits → BitVec w.bits) (rd ra : XReg) (s : State) : Answer :=
  complete (writeWord w s rd (f (wordOperand w s ra)))

/-- A word-unit command of two operands (R250). -/
def wordOp2 (w : Width) (f : BitVec w.bits → BitVec w.bits → BitVec w.bits) (rd ra rb : XReg) (s : State) : Answer :=
  complete (writeWord w s rd (f (wordOperand w s ra) (wordOperand w s rb)))

/-- A word-unit command of three operands (R250). -/
def wordOp3 (w : Width) (f : BitVec w.bits → BitVec w.bits → BitVec w.bits → BitVec w.bits)
    (rd ra rb rc : XReg) (s : State) : Answer :=
  complete (writeWord w s rd (f (wordOperand w s ra) (wordOperand w s rb) (wordOperand w s rc)))

/-- R252. -/
def execWadd (w : Width) (rd ra rb : XReg) (s : State) : Answer := wordOp2 w (fun a b => a + b) rd ra rb s

/-- R253: `if sh >= w: raise ILLEGAL`, else ROTR_w. -/
def execWrotr (w : Width) (rd ra : XReg) (sh6 : Fin 64) (s : State) : Answer :=
  if rotateFits w sh6 then wordOp1 w (fun a => rotR a sh6.val) rd ra s
  else raise .illegal (.wrotr w rd ra sh6) s

/-- R254: as R253 with ROTL_w. -/
def execWrotl (w : Width) (rd ra : XReg) (sh6 : Fin 64) (s : State) : Answer :=
  if rotateFits w sh6 then wordOp1 w (fun a => rotL a sh6.val) rd ra s
  else raise .illegal (.wrotl w rd ra sh6) s

/-- R255: the amount is X[rb] mod w. -/
def execWrotrv (w : Width) (rd ra rb : XReg) (s : State) : Answer :=
  wordOp1 w (fun a => rotR a (rotateAmount w s rb)) rd ra s

/-- R256. -/
def execWrotlv (w : Width) (rd ra rb : XReg) (s : State) : Answer :=
  wordOp1 w (fun a => rotL a (rotateAmount w s rb)) rd ra s

/-- R257. -/
def execWbswap (w : Width) (rd ra : XReg) (s : State) : Answer := wordOp1 w (bswap w) rd ra s

/-- R258. -/
def execWch (w : Width) (rd ra rb rc : XReg) (s : State) : Answer := wordOp3 w ch rd ra rb rc s

/-- R259. -/
def execWmaj (w : Width) (rd ra rb rc : XReg) (s : State) : Answer := wordOp3 w maj rd ra rb rc s

/-- R260. -/
def execWbsig0 (w : Width) (rd ra : XReg) (s : State) : Answer := wordOp1 w (bsig0 w) rd ra s

/-- R261. -/
def execWbsig1 (w : Width) (rd ra : XReg) (s : State) : Answer := wordOp1 w (bsig1 w) rd ra s

/-- R262. -/
def execWssig0 (w : Width) (rd ra : XReg) (s : State) : Answer := wordOp1 w (ssig0 w) rd ra s

/-- R263. -/
def execWssig1 (w : Width) (rd ra : XReg) (s : State) : Answer := wordOp1 w (ssig1 w) rd ra s

end Sys2Proof.Machine
end

