-- ==== Sys2Proof/Machine/Dispatch.lean ====
section
/-! DEFINITION. One arm per instruction, each a call of its meaning (45_sequencer.md R450, "execute the command's rule"). -/

namespace Sys2Proof.Machine

def exec (i : Instr) (s : State) : Host.Outcome State Fault Refusal :=
  match i with
  -- Control (45_sequencer.md)
  | .nop => Sys2Proof.Machine.execNop s
  | .halt => Sys2Proof.Machine.execHalt s
  | .jmp off16 => Sys2Proof.Machine.execJmp off16 s
  | .jz off16 => Sys2Proof.Machine.execJz off16 s
  | .jnz off16 => Sys2Proof.Machine.execJnz off16 s
  -- Scalar moves (45_sequencer.md)
  | .movi rd imm16 => Sys2Proof.Machine.execMovi rd imm16 s
  | .movk rd imm16 hw => Sys2Proof.Machine.execMovk rd imm16 hw s
  | .mov rd ra => Sys2Proof.Machine.execMov rd ra s
  | .addi rd ra imm16 => Sys2Proof.Machine.execAddi rd ra imm16 s
  | .tstx ra => Sys2Proof.Machine.execTstx ra s
  -- Loads and stores (45_sequencer.md)
  | .ld8 rd ra imm16 => Sys2Proof.Machine.execLd8 rd ra imm16 s
  | .ld16 rd ra imm16 => Sys2Proof.Machine.execLd16 rd ra imm16 s
  | .ld32 rd ra imm16 => Sys2Proof.Machine.execLd32 rd ra imm16 s
  | .ld64 rd ra imm16 => Sys2Proof.Machine.execLd64 rd ra imm16 s
  | .st8 rs ra imm16 => Sys2Proof.Machine.execSt8 rs ra imm16 s
  | .st16 rs ra imm16 => Sys2Proof.Machine.execSt16 rs ra imm16 s
  | .st32 rs ra imm16 => Sys2Proof.Machine.execSt32 rs ra imm16 s
  | .st64 rs ra imm16 => Sys2Proof.Machine.execSt64 rs ra imm16 s
  -- Word unit (41_word_unit.md)
  | .wadd w rd ra rb => Sys2Proof.Machine.execWadd w rd ra rb s
  | .wrotr w rd ra sh6 => Sys2Proof.Machine.execWrotr w rd ra sh6 s
  | .wrotl w rd ra sh6 => Sys2Proof.Machine.execWrotl w rd ra sh6 s
  | .wrotrv w rd ra rb => Sys2Proof.Machine.execWrotrv w rd ra rb s
  | .wrotlv w rd ra rb => Sys2Proof.Machine.execWrotlv w rd ra rb s
  | .wbswap w rd ra => Sys2Proof.Machine.execWbswap w rd ra s
  | .wch w rd ra rb rc => Sys2Proof.Machine.execWch w rd ra rb rc s
  | .wmaj w rd ra rb rc => Sys2Proof.Machine.execWmaj w rd ra rb rc s
  | .wbsig0 w rd ra => Sys2Proof.Machine.execWbsig0 w rd ra s
  | .wbsig1 w rd ra => Sys2Proof.Machine.execWbsig1 w rd ra s
  | .wssig0 w rd ra => Sys2Proof.Machine.execWssig0 w rd ra s
  | .wssig1 w rd ra => Sys2Proof.Machine.execWssig1 w rd ra s
  -- Number ALU (40_number_alu.md)
  | .nld sz nd ra => Sys2Proof.Machine.execNld sz nd ra s
  | .nst sz ns ra => Sys2Proof.Machine.execNst sz ns ra s
  | .nclr nd => Sys2Proof.Machine.execNclr nd s
  | .nmov sz nd na => Sys2Proof.Machine.execNmov sz nd na s
  | .nadds sz ww nd ra => Sys2Proof.Machine.execNadds sz ww nd ra s
  | .nmuls sz ww nd ra => Sys2Proof.Machine.execNmuls sz ww nd ra s
  | .ndivs sz ww nd xr xb => Sys2Proof.Machine.execNdivs sz ww nd xr xb s
  | .nisz sz na => Sys2Proof.Machine.execNisz sz na s
  | .neq sz na nb => Sys2Proof.Machine.execNeq sz na nb s
  | .nbswap sz nd na => Sys2Proof.Machine.execNbswap sz nd na s
  | .nbswapw sz ww nd na => Sys2Proof.Machine.execNbswapw sz ww nd na s
  | .ngetw ww rd na idx8 => Sys2Proof.Machine.execNgetw ww rd na idx8 s
  | .nsetw ww nd ra idx8 => Sys2Proof.Machine.execNsetw ww nd ra idx8 s
  -- Hash engine (42_hash_engine.md)
  | .hinit mode => Sys2Proof.Machine.execHinit mode s
  | .hupd ra rb => Sys2Proof.Machine.execHupd ra rb s
  | .hdig ra => Sys2Proof.Machine.execHdig ra s
  | .hstat rd sel => Sys2Proof.Machine.execHstat rd sel s
  | .hwipe => Sys2Proof.Machine.execHwipe s

end Sys2Proof.Machine
end

