-- ==== Sys2Proof/Machine/Sequencer.lean ====
section
/-! DEFINITION. One step of the sequencer (45_sequencer.md R450; 60_exceptions.md R501, R502, R506, R507). -/

namespace Sys2Proof.Machine

/-- The command at CP: decoded and executed, or ILLEGAL with the word fetched (R450, R502). -/
def runFetched (s : State) : Answer :=
  match decodeBytes s.fetchBytes with
  | .ok i => exec i s
  | .error _ => .next (s.errorEntry .illegal s.cp s.fetchWord)

/-- The step of a RUNNING sequencer (R450): the abort first (R507), then the fetch check (R501). -/
def runStep (s : State) : Answer :=
  if s.abortReq then .next (State.errorEntry { s with abortReq := false } .aborted s.cp 0)
  else if s.canFetch then runFetched s
  else .next (s.errorEntry .fetchFault s.cp 0)

/-- The sequencer's turn: it has a step only while RUN = RUNNING (10_state.md R36); otherwise nothing
changes (70_reset_and_hazards.md R553, "the sequencer does nothing"; log 5). -/
def sequencerTurn (s : State) : Answer :=
  match s.run with
  | .running => runStep s
  | _ => .next s

end Sys2Proof.Machine
end

