-- ==== Sys2Proof/Machine/Step.lean ====
section
/-! DEFINITION. One step of the whole machine: the turn of the sequencer, of the host or of the platform's
reset input (10_state.md R30; 70_reset_and_hazards.md R550). -/

namespace Sys2Proof.Machine

/-- One atomic step (R30). With no turn listed, the turn is the sequencer's (log 3). -/
def step (s : State) : Host.Outcome State Fault Refusal :=
  match s.turns with
  | [] => sequencerTurn s
  | .sequencer :: rest => sequencerTurn (s.setTurns rest)
  | .host a :: rest => hostTurn a (s.setTurns rest)
  | .powerOn m :: rest => .next ((s.setTurns rest).powerOn m)

/-- `s` with the table word `w` of `nbits` bits placed where the next step fetches, and ready to fetch it (log 6). -/
def State.withFetchWord (s : State) (nbits w : Nat) : State :=
  s.readyToFetch.placeWord (BitVec.ofNat 32 (w % 2 ^ nbits))

end Sys2Proof.Machine
end

