-- ==== Sys2Proof/Safety.lean ====
section
/-! DEFINITION. The terms that claims about QHC are made in: the invariant of the reachable states
(10_state.md R46 and the rules around it), what each command may write (R32, R33, 20_memory.md R84),
and the shapes of "nothing else changed". -/

namespace Sys2Proof.Machine

/-! ## The invariant -/

/-- What the spec says of every reachable hash context (R42, R46, 44_ripemd160.md R411, 42_hash_engine.md R316). -/
structure HashCtx.Inv (c : HashCtx) : Prop where
  /-- UNINIT is the wiped context. -/
  uninit_wiped : c.state = .uninit → c = .wiped
  /-- EMPTY has no byte. -/
  empty_zero : c.state = .empty → c.total = 0 ∧ c.off = 0
  /-- ACCUM has OFF = TOTAL mod B. -/
  accum_off : c.state = .accum → c.off.toNat = c.total.toNat % c.mode.blockBytes
  /-- FINAL has OFF = B. -/
  final_off : c.state = .final → c.off.toNat = c.mode.blockBytes
  /-- Modes with w = 32 use bits [31:0] of each H. -/
  narrow : c.mode.width = .w32 → ∀ k : Fin 8, c.h[k].toNat < 2 ^ 32
  /-- RIPEMD-160 uses H[0..4]. -/
  rmd_unused : c.mode = .rmd160 → c.h[5] = 0 ∧ c.h[6] = 0 ∧ c.h[7] = 0

/-- What holds of every reachable state. -/
structure State.Inv (s : State) : Prop where
  /-- LMEM_BYTES is a legal size (00_scope.md R7). -/
  cfg_legal : s.cfg.WellFormed
  /-- LMEM is in its canonical form. -/
  lmem_wf : s.lmem.wf = true
  /-- LMEM lists no byte beyond LMEM_BYTES (R49). -/
  lmem_below : s.lmem.below s.cfg.lmemBytes = true
  /-- An abort request is pending only while RUNNING (60_exceptions.md R507). -/
  abort_running : s.abortReq = true → s.run = .running
  /-- ERRCODE is NONE except in ERROR (R36, R37, R504, R511). -/
  error_code : s.errcode ≠ .none ↔ s.run = .error
  /-- ERRCMD is 0 after a fetch fault or an abort (R37). -/
  errcmd_zero : s.errcode = .fetchFault ∨ s.errcode = .aborted → s.errcmd = 0
  /-- The hash context is a reachable one. -/
  hash : s.he.Inv

/-! ## What a command may write -/

/-- The scalar registers a command writes (R32). -/
def writesX : Instr → List XReg
  | .movi rd _ => [rd]
  | .movk rd _ _ => [rd]
  | .mov rd _ => [rd]
  | .addi rd _ _ => [rd]
  | .ld8 rd _ _ => [rd]
  | .ld16 rd _ _ => [rd]
  | .ld32 rd _ _ => [rd]
  | .ld64 rd _ _ => [rd]
  | .wadd _ rd _ _ => [rd]
  | .wrotr _ rd _ _ => [rd]
  | .wrotl _ rd _ _ => [rd]
  | .wrotrv _ rd _ _ => [rd]
  | .wrotlv _ rd _ _ => [rd]
  | .wbswap _ rd _ => [rd]
  | .wch _ rd _ _ _ => [rd]
  | .wmaj _ rd _ _ _ => [rd]
  | .wbsig0 _ rd _ => [rd]
  | .wbsig1 _ rd _ => [rd]
  | .wssig0 _ rd _ => [rd]
  | .wssig1 _ rd _ => [rd]
  | .ndivs _ _ _ xr _ => [xr]
  | .ngetw _ rd _ _ => [rd]
  | .hstat rd _ => [rd]
  | _ => []

/-- The number registers a command writes (40_number_alu.md R202 to R214). -/
def writesN : Instr → List NReg
  | .nld _ nd _ => [nd]
  | .nclr nd => [nd]
  | .nmov _ nd _ => [nd]
  | .nadds _ _ nd _ => [nd]
  | .nmuls _ _ nd _ => [nd]
  | .ndivs _ _ nd _ _ => [nd]
  | .nbswap _ nd _ => [nd]
  | .nbswapw _ _ nd _ => [nd]
  | .nsetw _ nd _ _ => [nd]
  | _ => []

/-- The writers of Z (R33). -/
def writesZ : Instr → Bool
  | .addi _ _ _ => true
  | .tstx _ => true
  | .nisz _ _ => true
  | .neq _ _ _ => true
  | _ => false

/-- The writers of the hash context (42_hash_engine.md R301). -/
def writesHash : Instr → Bool
  | .hinit _ => true
  | .hupd _ _ => true
  | .hdig _ => true
  | .hwipe => true
  | _ => false

/-- Where a command stores, as first address and number of bytes, computed as its meaning computes it
(20_memory.md R84). A command without an entry stores nothing. -/
def storeSpan (s : State) : Instr → Option (Nat × Nat)
  | .st8 _ ra imm => some (effAddr s ra imm, 1)
  | .st16 _ ra imm => some (effAddr s ra imm, 2)
  | .st32 _ ra imm => some (effAddr s ra imm, 4)
  | .st64 _ ra imm => some (effAddr s ra imm, 8)
  | .nst sz _ ra => some ((s.x ra).toNat, sizeBytes sz)
  | .hdig ra => some ((s.x ra).toNat, s.he.mode.digestBytes)
  | _ => none

/-- The address is one of those the command stores to. -/
def storesAt (s : State) (i : Instr) (a : Nat) : Prop :=
  match storeSpan s i with
  | some (lo, n) => lo ≤ a ∧ a < lo + n
  | none => False

/-- The LMEM access of a command, as first address and number of bytes (20_memory.md R84, R85). -/
def accessSpan (s : State) : Instr → Option (Nat × Nat)
  | .ld8 _ ra imm => some (effAddr s ra imm, 1)
  | .ld16 _ ra imm => some (effAddr s ra imm, 2)
  | .ld32 _ ra imm => some (effAddr s ra imm, 4)
  | .ld64 _ ra imm => some (effAddr s ra imm, 8)
  | .st8 _ ra imm => some (effAddr s ra imm, 1)
  | .st16 _ ra imm => some (effAddr s ra imm, 2)
  | .st32 _ ra imm => some (effAddr s ra imm, 4)
  | .st64 _ ra imm => some (effAddr s ra imm, 8)
  | .nld sz _ ra => some ((s.x ra).toNat, sizeBytes sz)
  | .nst sz _ ra => some ((s.x ra).toNat, sizeBytes sz)
  | .hupd ra rb => some ((s.x ra).toNat, (s.x rb).toNat)
  | .hdig ra => some ((s.x ra).toNat, s.he.mode.digestBytes)
  | _ => none

/-- HE.STATE lets the command go on (42_hash_engine.md R301): HUPD in EMPTY and ACCUM, HDIG outside UNINIT. -/
def hashStateAllows (s : State) : Instr → Prop
  | .hupd _ _ => s.he.state = .empty ∨ s.he.state = .accum
  | .hdig _ => s.he.state ≠ .uninit
  | _ => True

/-- The command sends CP to a branch target (R34): JMP, JZ with Z = 1, JNZ with Z = 0. -/
def takesBranch (s : State) : Instr → Bool
  | .jmp _ => true
  | .jz _ => s.z
  | .jnz _ => !s.z
  | _ => false

/-- The errors a well-formed command can raise (60_exceptions.md R503). -/
def canRaise : Instr → List ErrCode
  | .ld8 _ _ _ => [.dataFault]
  | .ld16 _ _ _ => [.dataFault]
  | .ld32 _ _ _ => [.dataFault]
  | .ld64 _ _ _ => [.dataFault]
  | .st8 _ _ _ => [.dataFault]
  | .st16 _ _ _ => [.dataFault]
  | .st32 _ _ _ => [.dataFault]
  | .st64 _ _ _ => [.dataFault]
  | .nld _ _ _ => [.dataFault]
  | .nst _ _ _ => [.dataFault]
  | .ndivs _ _ _ _ _ => [.divZero]
  | .ngetw _ _ _ _ => [.badIndex]
  | .nsetw _ _ _ _ => [.badIndex]
  | .hupd _ _ => [.hashState, .dataFault]
  | .hdig _ => [.hashState, .dataFault]
  | _ => []

/-! ## Nothing else changed -/

/-- `t` is `s` past one command, but for X[rd]. -/
def OnlyX (rd : XReg) (s t : State) : Prop :=
  t = { s with xregs := t.xregs, cp := s.cp + 4 } ∧ ∀ r, r ≠ rd → t.x r = s.x r

/-- `t` is `s` past one command, but for N[nd]. -/
def OnlyN (nd : NReg) (s t : State) : Prop :=
  t = { s with nregs := t.nregs, cp := s.cp + 4 } ∧ ∀ r, r ≠ nd → t.n r = s.n r

/-- `t` is `s` past one command, but for Z. -/
def OnlyZ (s t : State) : Prop := t = { s with z := t.z, cp := s.cp + 4 }

/-- `t` is `s` past one command, but for the `n` bytes of LMEM from `lo`. -/
def OnlyStored (lo n : Nat) (s t : State) : Prop :=
  t = { s with lmem := t.lmem, cp := s.cp + 4 } ∧ ∀ a, ¬(lo ≤ a ∧ a < lo + n) → t.lmem.get a = s.lmem.get a

/-- `t` is `s` past one command, but for the hash context. -/
def OnlyHe (s t : State) : Prop := t = { s with he := t.he, cp := s.cp + 4 }

/-- Byte `k` of a value (R8, 10_state.md R35). -/
def byteOf {n : Nat} (v : BitVec n) (k : Nat) : Byte := v.extractLsb' (8 * k) 8

/-- The sequencer has the turn and will fetch: RUNNING, no abort pending, CP fetchable (45_sequencer.md R450). -/
def State.AboutToFetch (s : State) : Prop :=
  s.turns = [] ∧ s.run = .running ∧ s.abortReq = false ∧ s.canFetch

/-- Every piece of state but LMEM is at its reset value (70_reset_and_hazards.md R551). -/
structure State.AtReset (s : State) : Prop where
  x : ∀ r, s.x r = 0
  z : s.z = false
  cp : s.cp = 0
  n : ∀ r, s.n r = 0
  run : s.run = .idle
  error : s.errcode = .none ∧ s.errcp = 0 ∧ s.errcmd = 0
  abort : s.abortReq = false
  host : s.irq = false ∧ s.irqEn = false ∧ s.hostErr = false
  mode : s.he.mode.code = 0
  state : s.he.state = .uninit
  h : ∀ k : Fin 8, s.he.h[k] = 0
  blk : ∀ k : Fin 128, s.he.blk[k] = 0
  off : s.he.off = 0
  total : s.he.total = 0

/-- The first `n` blocks of `size` bytes of a sequence. -/
def blocksOf (size : Nat) : Nat → List Byte → List (List Byte)
  | 0, _ => []
  | n + 1, bs => bs.take size :: blocksOf size n (bs.drop size)

/-- The states that some number of steps reaches from `s`. -/
inductive Reaches (s : State) : State → Prop where
  | here : Reaches s s
  | next {t u : State} : Reaches s t → step t = .next u → Reaches s u

/-- A safe run: every state it reaches meets the invariant. -/
def SafeFrom (s : State) : Prop := ∀ t, Reaches s t → t.Inv

end Sys2Proof.Machine
end

