-- ==== Sys2Proof/Certificates/Slice0/Obligations.lean ====
section
/-! DEFINITION. The statements for the provers. They come from the numbered rules of the spec; a docstring
names the rule, and says so where a statement rests on a choice of the model. -/

open Sys2Proof Sys2Proof.Machine

/-! ## Encoding -/

/-- Words of the spec's examples, one or two for each family, are the commands they stand for (R128). -/
def Obligations.SpecWordsDecode : Prop :=
  decode 0x01000000 = .ok .nop ∧
  decode 0x0300FFFF = .ok (.jmp 0xFFFF) ∧
  decode 0x111CABCD = .ok (.movk 1 0xABCD 3) ∧
  decode 0x1311FFFF = .ok (.addi 1 1 0xFFFF) ∧
  decode 0x18120003 = .ok (.ld8 1 2 3) ∧
  decode 0x1F12FFF8 = .ok (.st64 1 2 0xFFF8) ∧
  decode 0x21313F01 = .ok (.wrotr .w64 3 1 63) ∧
  decode 0x26412300 = .ok (.wch .w32 4 1 2 3) ∧
  decode 0x36012010 = .ok (.ndivs 1 .ww8 0 1 2) ∧
  decode 0x38012010 = .ok (.neq 1 1 2) ∧
  decode 0x3C010208 = .ok (.nsetw .ww32 0 1 2) ∧
  decode 0x40000002 = .ok (.hinit .sha512) ∧
  decode 0x41012000 = .ok (.hupd 1 2) ∧
  decode 0x43400003 = .ok (.hstat 4 .state)

/-- Decoding the word of a well-formed instruction gives the instruction back, for all 48 commands. -/
def Obligations.DecodeEncodeRoundTrip : Prop :=
  ∀ i : Instr, i.wellFormed = true → decode (encode i) = .ok i

/-- A word that decodes is the word of the instruction it decodes to, and that instruction is well-formed. -/
def Obligations.EncodeDecodeRoundTrip : Prop :=
  ∀ (c : Word32) (i : Instr), decode c = .ok i → encode i = c ∧ i.wellFormed = true

/-- R130: an OP outside the opcode map is ILLEGAL, the word of zeros among them, and every word is either
exactly one command with legal field values, which the step runs, or raises ILLEGAL. -/
def Obligations.EveryWordIsOneCommandOrIllegal : Prop :=
  ∀ s : State, s.AboutToFetch →
    (let o := (opOf s.fetchWord).toNat
     (o = 0x00 ∨ (0x06 ≤ o ∧ o ≤ 0x0F) ∨ (0x15 ≤ o ∧ o ≤ 0x17) ∨ (0x2C ≤ o ∧ o ≤ 0x2F) ∨
        (0x3D ≤ o ∧ o ≤ 0x3F) ∨ 0x45 ≤ o) →
      step s = .next (s.errorEntry .illegal s.cp s.fetchWord)) ∧
    (s.fetchWord = 0 → step s = .next (s.errorEntry .illegal s.cp 0)) ∧
    ((∃! i : Instr, i.wellFormed = true ∧ encode i = s.fetchWord ∧ step s = exec i s) ∨
      step s = .next (s.errorEntry .illegal s.cp s.fetchWord))

/-- R129: a word with the OP of a row of the opcode map and a reserved bit of that row set (a fixed bit of
bits [23:0]) raises ILLEGAL. -/
def Obligations.ReservedBitsAreIllegal : Prop :=
  ∀ s : State, s.AboutToFetch → ∀ r ∈ opRows, opOf s.fetchWord = opOf r.pattern →
    (∃ k : Nat, k < 24 ∧ r.mask.getLsbD k = true ∧ s.fetchWord.getLsbD k = true) →
    step s = .next (s.errorEntry .illegal s.cp s.fetchWord)

/-- R131: the field values that raise ILLEGAL although the bits match a row, and the word index that raises
BAD_INDEX instead. OP values are written out. -/
def Obligations.IllegalFieldValues : Prop :=
  ∀ s : State, s.AboutToFetch →
    (let o := (opOf s.fetchWord).toNat
     ((o ∈ [0x30, 0x31, 0x32, 0x33, 0x34, 0x35, 0x36, 0x39, 0x3A, 0x3C] ∧ 4 ≤ (rdOf s.fetchWord).toNat) ∨
      (o ∈ [0x33, 0x37, 0x38, 0x39, 0x3A, 0x3B] ∧ 4 ≤ (raOf s.fetchWord).toNat) ∨
      (o = 0x38 ∧ 4 ≤ (rbOf s.fetchWord).toNat) ∨
      (o ∈ [0x34, 0x35, 0x36, 0x3A] ∧
        32 * ((szOf s.fetchWord).toNat + 1) % (8 * 2 ^ (wwOf s.fetchWord).toNat) ≠ 0) ∨
      (o ∈ [0x21, 0x22] ∧ wOf s.fetchWord = 0 ∧ 32 ≤ (sh6Of s.fetchWord).toNat) ∨
      (o = 0x40 ∧ (modeOf s.fetchWord).toNat = 7)) →
      step s = .next (s.errorEntry .illegal s.cp s.fetchWord)) ∧
    (∀ (ww : NumWidth) (r : XReg) (n : NReg) (idx : Fin 256), 512 / ww.bits ≤ idx.val →
      (decode s.fetchWord = .ok (.ngetw ww r n idx) ∨ decode s.fetchWord = .ok (.nsetw ww n r idx)) →
      step s = .next (s.errorEntry .badIndex s.cp s.fetchWord))

/-! ## The step and its errors -/

/-- R450: when the bytes at CP decode, the sequencer's step is the execution of that command, whether the turn
is the sequencer's by the list or because no turn is listed (the list of turns is the model's, log 3). -/
def Obligations.StepRunsDecodedCommand : Prop :=
  ∀ (s : State) (i : Instr), s.run = .running → s.abortReq = false → s.canFetch →
    decodeBytes s.fetchBytes = .ok i →
    (s.turns = [] → step s = exec i s) ∧
    (∀ rest, s.turns = .sequencer :: rest → step s = exec i (s.setTurns rest))

/-- R501: the fetch check comes after the abort check and before the fetch; where a misaligned or an
out-of-range CP can come from. -/
def Obligations.FetchFaults : Prop :=
  (∀ s : State, s.turns = [] → s.run = .running → s.abortReq = false →
    (s.cp.toNat % 4 ≠ 0 ∨ s.cfg.lmemBytes < s.cp.toNat + 4) →
    step s = .next (s.errorEntry .fetchFault s.cp 0)) ∧
  (∀ s t : State, step s = .next t → s.cp.toNat % 4 = 0 → t.cp.toNat % 4 ≠ 0 →
    ∃ v rest, s.turns = .host (.write (s.cfg.hostBase + 0x00C) v) :: rest) ∧
  (∀ s t : State, s.cfg.WellFormed → step s = .next t →
    s.cp.toNat + 4 ≤ s.cfg.lmemBytes → t.cfg.lmemBytes < t.cp.toNat + 4 →
    (∃ v rest, s.turns = .host (.write (s.cfg.hostBase + 0x00C) v) :: rest) ∨
    (s.run = .running ∧ ∃ i, decode s.fetchWord = .ok i ∧
      ((takesBranch s i = true) ∨ t.cp.toNat = s.cp.toNat + 4)))

/-- R504, R505: a step of the sequencer that ends in an error does ERROR_ENTRY and nothing else; the abort
request is consumed where it is the error (R507). -/
def Obligations.ErrorsArePrecise : Prop :=
  ∀ s t : State, s.turns = [] → s.run = .running → step s = .next t → t.run = .error →
    ∃ code : ErrCode, code ≠ .none ∧
      (code = .aborted ↔ s.abortReq = true) ∧
      t = { s with
        run := .error
        errcode := code
        errcp := s.cp
        errcmd := if code = .fetchFault ∨ code = .aborted then 0 else s.fetchWord
        cp := s.cp
        irq := true
        abortReq := false }

/-- R507: the host's ABORT sets the request while RUNNING; the next step takes it before fetching; a request
is pending only while RUNNING, which every step keeps. -/
def Obligations.AbortIsTakenBeforeTheFetch : Prop :=
  (∀ (s : State) (v : Word32) (rest : List Turn),
    s.turns = .host (.write (s.cfg.hostBase + 0x004) v) :: rest → s.run = .running →
    v.getLsbD 1 = true → v.getLsbD 2 = false →
    step s = .next { s with irqEn := v.getLsbD 3, abortReq := true, turns := rest }) ∧
  (∀ s : State, s.turns = [] → s.run = .running → s.abortReq = true →
    step s = .next { s with
      abortReq := false
      run := .error
      errcode := .aborted
      errcp := s.cp
      errcmd := 0
      irq := true }) ∧
  (∀ s t : State, (s.abortReq = true → s.run = .running) → step s = .next t →
    (t.abortReq = true → t.run = .running))

/-- R36, R553: a stopped sequencer's turn changes nothing but the list of turns (log 5). -/
def Obligations.StoppedSequencerDoesNothing : Prop :=
  ∀ s : State, s.run ≠ .running →
    (s.turns = [] → step s = .next s) ∧
    (∀ rest, s.turns = .sequencer :: rest → step s = .next (s.setTurns rest))

/-- R503: the errors each well-formed command can raise, and their order for HUPD and HDIG. -/
def Obligations.ErrorsOfEachCommand : Prop :=
  ∀ (i : Instr) (s t : State), i.wellFormed = true → exec i s = .next t →
    (s.run = .running → t.run = .error → t.errcode ∈ canRaise i) ∧
    (¬ hashStateAllows s i → t = s.errorEntry .hashState s.cp (encode i))

/-- R508: when IRQ is set, when it is cleared, and the line. -/
def Obligations.CompletionInterrupt : Prop :=
  (∀ s t : State, step s = .next t → s.run = .running → (t.run = .halted ∨ t.run = .error) → t.irq = true) ∧
  (∀ s t : State, step s = .next t → s.irq = false → t.irq = true →
    s.run = .running ∧ (t.run = .halted ∨ t.run = .error)) ∧
  (∀ s t : State, step s = .next t → s.irq = true → t.irq = false →
    (∃ v rest, s.turns = .host (.write (s.cfg.hostBase + 0x008) v) :: rest ∧ v.getLsbD 2 = true) ∨
    (∃ v rest, s.turns = .host (.write (s.cfg.hostBase + 0x004) v) :: rest ∧ v.getLsbD 2 = true) ∨
    (∃ m rest, s.turns = .powerOn m :: rest)) ∧
  (∀ s : State, s.irqLine = true ↔ s.irq = true ∧ s.irqEn = true)

/-- R253, R131: an instruction term with an illegal field value takes ILLEGAL (no word decodes to one; log 9). -/
def Obligations.IllFormedTermsTakeIllegal : Prop :=
  ∀ (i : Instr) (s : State), i.wellFormed = false → exec i s = .next (s.errorEntry .illegal s.cp (encode i))

/-! ## What the commands leave alone -/

/-- R34: where CP goes. -/
def Obligations.NextCommandPointer : Prop :=
  ∀ (i : Instr) (s t : State), s.run = .running → exec i s = .next t →
    (t.run = .error → t.cp = s.cp) ∧
    (t.run ≠ .error → takesBranch s i = false → t.cp.toNat = (s.cp.toNat + 4) % 2 ^ 32) ∧
    (t.run ≠ .error → takesBranch s i = true →
      ∃ off, (i = .jmp off ∨ i = .jz off ∨ i = .jnz off) ∧
        (t.cp.toNat : Int) = ((s.cp.toNat : Int) + 4 * off.toInt) % 2 ^ 32)

/-- R32, R35, R200 to R214: a command leaves every scalar and every number register alone but the ones it names
as destination. -/
def Obligations.OnlyDestinationRegistersChange : Prop :=
  ∀ (i : Instr) (s t : State), exec i s = .next t →
    (∀ r, r ∉ writesX i → t.x r = s.x r) ∧ (∀ r, r ∉ writesN i → t.n r = s.n r)

/-- R33: the writers of Z and what they write, its readers, where the host sees it, its reset value. -/
def Obligations.FlagZ : Prop :=
  (∀ (i : Instr) (s t : State), exec i s = .next t → writesZ i = false → t.z = s.z) ∧
  (∀ (s t : State) (rd ra : XReg) (imm : BitVec 16), exec (.addi rd ra imm) s = .next t →
    t.z = decide (t.x rd = 0)) ∧
  (∀ (s t : State) (ra : XReg), exec (.tstx ra) s = .next t → t.z = decide (s.x ra = 0)) ∧
  (∀ (s t : State) (sz : SizeCode) (na : NReg), exec (.nisz sz na) s = .next t →
    t.z = decide ((s.n na).toNat % 2 ^ (32 * (sz.val + 1)) = 0)) ∧
  (∀ (s t : State) (sz : SizeCode) (na nb : NReg), exec (.neq sz na nb) s = .next t →
    t.z = decide ((s.n na).toNat % 2 ^ (32 * (sz.val + 1)) = (s.n nb).toNat % 2 ^ (32 * (sz.val + 1)))) ∧
  (∀ (i : Instr) (s t : State) (b : Bool), (∀ off, i ≠ .jz off ∧ i ≠ .jnz off) → exec i s = .next t →
    ∃ u, exec i (s.setZ b) = .next u ∧ u.setZ true = t.setZ true) ∧
  (∀ s : State, s.statusWord.getLsbD 4 = s.z) ∧
  State.reset.z = false

/-- R301, R351: no command but HINIT, HUPD, HDIG and HWIPE changes the hash context; HE.MODE is changed by
HINIT and HWIPE only (R40), HE.TOTAL not by HDIG (R45). -/
def Obligations.OnlyHashCommandsWriteTheContext : Prop :=
  ∀ (i : Instr) (s t : State), exec i s = .next t →
    (writesHash i = false → t.he = s.he) ∧
    ((∀ m, i ≠ .hinit m) → i ≠ .hwipe → t.he.mode = s.he.mode) ∧
    ((∃ ra, i = .hdig ra) → t.he.total = s.he.total)

/-- R84, R86: a command changes no byte of LMEM but those it stores to, computed as its meaning computes them;
a command that takes an error changes none. -/
def Obligations.OnlyStoredBytesChange : Prop :=
  ∀ (i : Instr) (s t : State), exec i s = .next t →
    (∀ a, ¬ storesAt s i a → t.lmem.get a = s.lmem.get a) ∧
    (s.run = .running → t.run = .error → t.lmem = s.lmem)

/-- A command leaves the parameters, the host's registers and the model's own fields (log 3, log 4) alone, and the
sequencer's control state unless it halts or takes an error (R36 to R39, R504). -/
def Obligations.CommandsLeaveTheHostSideAlone : Prop :=
  ∀ (i : Instr) (s t : State), exec i s = .next t →
    t.cfg = s.cfg ∧ t.irqEn = s.irqEn ∧ t.hostErr = s.hostErr ∧ t.abortReq = s.abortReq ∧
    t.turns = s.turns ∧ t.readData = s.readData ∧
    (s.run = .running → t.run ≠ .error →
      t.errcode = s.errcode ∧ t.errcp = s.errcp ∧ t.errcmd = s.errcmd ∧
      (i ≠ .halt → t.run = s.run ∧ t.irq = s.irq))

/-- R317, R558: every single command terminates: each answers a next state in every state. -/
def Obligations.EveryCommandTerminates : Prop :=
  ∀ (i : Instr) (s : State), ∃ t, exec i s = .next t

/-! ## Control and scalar commands -/

/-- R124, R451 to R455: NOP moves CP only; HALT also sets RUN and IRQ; the branches, their target, and nothing else. -/
def Obligations.ControlResults : Prop :=
  ∀ s : State,
    exec .nop s = .next { s with cp := s.cp + 4 } ∧
    exec .halt s = .next { s with cp := s.cp + 4, run := .halted, irq := true } ∧
    ∀ off : BitVec 16, ∃ target : Word32,
      (target.toNat : Int) = ((s.cp.toNat : Int) + 4 * off.toInt) % 2 ^ 32 ∧
      exec (.jmp off) s = .next { s with cp := target } ∧
      exec (.jz off) s = .next { s with cp := if s.z = true then target else s.cp + 4 } ∧
      exec (.jnz off) s = .next { s with cp := if s.z = true then s.cp + 4 else target }

/-- R456 to R458: MOVI, MOVK and MOV complete; the value of X[rd]; nothing else but CP. -/
def Obligations.MoveResults : Prop :=
  ∀ (s : State) (rd ra : XReg) (imm : BitVec 16) (hw : Fin 4),
    (∃ t, exec (.movi rd imm) s = .next t ∧ OnlyX rd s t ∧ (t.x rd).toNat = imm.toNat) ∧
    (∃ t, exec (.movk rd imm hw) s = .next t ∧ OnlyX rd s t ∧
      ∀ k : Nat, k < 64 → (t.x rd).getLsbD k =
        if 16 * hw.val ≤ k ∧ k < 16 * hw.val + 16 then imm.getLsbD (k - 16 * hw.val) else (s.x rd).getLsbD k) ∧
    (∃ t, exec (.mov rd ra) s = .next t ∧ OnlyX rd s t ∧ t.x rd = s.x ra)

/-- R459, R460: ADDI and TSTX complete; the sum, Z; nothing else but CP. -/
def Obligations.AddImmediateAndTest : Prop :=
  ∀ (s : State) (rd ra : XReg) (imm : BitVec 16),
    (∃ t, exec (.addi rd ra imm) s = .next t ∧
      ((t.x rd).toNat : Int) = (((s.x ra).toNat : Int) + imm.toInt) % 2 ^ 64 ∧
      t.z = decide (t.x rd = 0) ∧
      t = { s with xregs := t.xregs, z := t.z, cp := s.cp + 4 } ∧ ∀ r, r ≠ rd → t.x r = s.x r) ∧
    (∃ t, exec (.tstx ra) s = .next t ∧ OnlyZ s t ∧ t.z = decide (s.x ra = 0))

/-- R462 to R465: LD8, LD16, LD32 and LD64 complete when EA + n is in LMEM; byte k of X[rd]; nothing else but CP. -/
def Obligations.LoadResults : Prop :=
  ∀ p ∈ [(1, Instr.ld8), (2, Instr.ld16), (4, Instr.ld32), (8, Instr.ld64)],
    ∀ (s : State) (rd ra : XReg) (imm : BitVec 16),
      effAddr s ra imm + p.1 ≤ s.cfg.lmemBytes →
      ∃ t, exec (p.2 rd ra imm) s = .next t ∧ OnlyX rd s t ∧
        ∀ k : Nat, k < 8 → byteOf (t.x rd) k = if k < p.1 then s.lmem.get (effAddr s ra imm + k) else 0

/-- R466 to R469: ST8, ST16, ST32 and ST64 complete when EA + n is in LMEM; the bytes stored at EA; nothing
else but CP. -/
def Obligations.StoreResults : Prop :=
  ∀ p ∈ [(1, Instr.st8), (2, Instr.st16), (4, Instr.st32), (8, Instr.st64)],
    ∀ (s : State) (rs ra : XReg) (imm : BitVec 16),
      effAddr s ra imm + p.1 ≤ s.cfg.lmemBytes →
      ∃ t, exec (p.2 rs ra imm) s = .next t ∧ OnlyStored (effAddr s ra imm) p.1 s t ∧
        ∀ k : Nat, k < p.1 → t.lmem.get (effAddr s ra imm + k) = byteOf (s.x rs) k

/-- R461, R85: the effective address, and that a negative sum never reaches LMEM; the range check of every command
that accesses LMEM: out of range it raises DATA_FAULT and changes nothing, in range it does not. -/
def Obligations.EffectiveAddressAndRangeCheck : Prop :=
  (∀ (s : State) (ra : XReg) (imm : BitVec 16),
    ((effAddr s ra imm : Nat) : Int) = (((s.x ra).toNat : Int) + imm.toInt) % 2 ^ 64 ∧
    (s.cfg.WellFormed → ((s.x ra).toNat : Int) + imm.toInt < 0 → s.cfg.lmemBytes < effAddr s ra imm)) ∧
  (∀ (i : Instr) (s : State) (a n : Nat), accessSpan s i = some (a, n) → hashStateAllows s i →
    (s.cfg.lmemBytes < a + n → exec i s = .next (s.errorEntry .dataFault s.cp (encode i))) ∧
    (a + n ≤ s.cfg.lmemBytes → s.run = .running → ∃ t, exec i s = .next t ∧ t.run = .running))

/-! ## The word unit -/

/-- R252: WADD completes with the sum mod 2^w, zero-extended; nothing else but CP. -/
def Obligations.WordAdd : Prop :=
  ∀ (s : State) (w : Width) (rd ra rb : XReg),
    ∃ t, exec (.wadd w rd ra rb) s = .next t ∧ OnlyX rd s t ∧
      (t.x rd).toNat = ((s.x ra).toNat + (s.x rb).toNat) % 2 ^ w.bits

/-- R253 to R256: the rotates: bit k of the result, for an immediate amount below w (for one of w or more see
IllFormedTermsTakeIllegal and IllegalFieldValues), and for a register amount, taken mod w from all 64 bits. -/
def Obligations.Rotates : Prop :=
  (∀ (s : State) (w : Width) (rd ra : XReg) (sh : Fin 64), sh.val < w.bits →
    (∃ t, exec (.wrotr w rd ra sh) s = .next t ∧ OnlyX rd s t ∧
      ∀ k : Nat, k < 64 → (t.x rd).getLsbD k =
        (decide (k < w.bits) && (s.x ra).getLsbD ((k + sh.val) % w.bits))) ∧
    (∃ t, exec (.wrotl w rd ra sh) s = .next t ∧ OnlyX rd s t ∧
      ∀ k : Nat, k < 64 → (t.x rd).getLsbD k =
        (decide (k < w.bits) && (s.x ra).getLsbD ((k + (w.bits - sh.val)) % w.bits)))) ∧
  (∀ (s : State) (w : Width) (rd ra rb : XReg),
    (∃ t, exec (.wrotrv w rd ra rb) s = .next t ∧ OnlyX rd s t ∧
      ∀ k : Nat, k < 64 → (t.x rd).getLsbD k =
        (decide (k < w.bits) && (s.x ra).getLsbD ((k + (s.x rb).toNat % w.bits) % w.bits))) ∧
    (∃ t, exec (.wrotlv w rd ra rb) s = .next t ∧ OnlyX rd s t ∧
      ∀ k : Nat, k < 64 → (t.x rd).getLsbD k =
        (decide (k < w.bits) && (s.x ra).getLsbD ((k + (w.bits - (s.x rb).toNat % w.bits)) % w.bits))))

/-- R257: WBSWAP: byte j of the result is byte w/8-1-j of the operand. -/
def Obligations.WordByteSwap : Prop :=
  ∀ (s : State) (w : Width) (rd ra : XReg),
    ∃ t, exec (.wbswap w rd ra) s = .next t ∧ OnlyX rd s t ∧
      ∀ k : Nat, k < 8 → byteOf (t.x rd) k = if k < w.bytes then byteOf (s.x ra) (w.bytes - 1 - k) else 0

/-- R251, R258, R259: WCH takes each bit from b where a has 1 and from c where it has 0; WMAJ takes the majority. -/
def Obligations.ChooseAndMajority : Prop :=
  ∀ (s : State) (w : Width) (rd ra rb rc : XReg),
    (∃ t, exec (.wch w rd ra rb rc) s = .next t ∧ OnlyX rd s t ∧
      ∀ k : Nat, k < 64 → (t.x rd).getLsbD k = (decide (k < w.bits) &&
        (if (s.x ra).getLsbD k = true then (s.x rb).getLsbD k else (s.x rc).getLsbD k))) ∧
    (∃ t, exec (.wmaj w rd ra rb rc) s = .next t ∧ OnlyX rd s t ∧
      ∀ k : Nat, k < 64 → (t.x rd).getLsbD k = (decide (k < w.bits) &&
        (if (s.x ra).getLsbD k = (s.x rb).getLsbD k then (s.x ra).getLsbD k else (s.x rc).getLsbD k)))

/-- R251, R260 to R263: the round functions, three rotations each; the schedule functions, two rotations and a
shift each. -/
def Obligations.SigmaFunctions : Prop :=
  (∀ (s : State) (w : Width) (rd ra : XReg),
    let rot := fun (n k : Nat) => (s.x ra).getLsbD ((k + n) % w.bits)
    (∃ t, exec (.wbsig0 w rd ra) s = .next t ∧ OnlyX rd s t ∧
      ∀ k : Nat, k < 64 → (t.x rd).getLsbD k = (decide (k < w.bits) &&
        (match w with
          | .w32 => (rot 2 k ^^ rot 13 k) ^^ rot 22 k
          | .w64 => (rot 28 k ^^ rot 34 k) ^^ rot 39 k))) ∧
    (∃ t, exec (.wbsig1 w rd ra) s = .next t ∧ OnlyX rd s t ∧
      ∀ k : Nat, k < 64 → (t.x rd).getLsbD k = (decide (k < w.bits) &&
        (match w with
          | .w32 => (rot 6 k ^^ rot 11 k) ^^ rot 25 k
          | .w64 => (rot 14 k ^^ rot 18 k) ^^ rot 41 k)))) ∧
  (∀ (s : State) (w : Width) (rd ra : XReg),
    let rot := fun (n k : Nat) => (s.x ra).getLsbD ((k + n) % w.bits)
    let shr := fun (n k : Nat) => decide (k + n < w.bits) && (s.x ra).getLsbD (k + n)
    (∃ t, exec (.wssig0 w rd ra) s = .next t ∧ OnlyX rd s t ∧
      ∀ k : Nat, k < 64 → (t.x rd).getLsbD k = (decide (k < w.bits) &&
        (match w with
          | .w32 => (rot 7 k ^^ rot 18 k) ^^ shr 3 k
          | .w64 => (rot 1 k ^^ rot 8 k) ^^ shr 7 k))) ∧
    (∃ t, exec (.wssig1 w rd ra) s = .next t ∧ OnlyX rd s t ∧
      ∀ k : Nat, k < 64 → (t.x rd).getLsbD k = (decide (k < w.bits) &&
        (match w with
          | .w32 => (rot 17 k ^^ rot 19 k) ^^ shr 10 k
          | .w64 => (rot 19 k ^^ rot 61 k) ^^ shr 6 k))))

/-! ## The number ALU -/

/-- R202, R203: NLD and NST complete when the SIZE/8 bytes at X[ra] are in LMEM; the bytes moved. -/
def Obligations.NumberLoadAndStore : Prop :=
  ∀ (s : State) (sz : SizeCode) (n : NReg) (ra : XReg),
    (s.x ra).toNat + sizeBytes sz ≤ s.cfg.lmemBytes →
    (∃ t, exec (.nld sz n ra) s = .next t ∧ OnlyN n s t ∧
      ∀ k : Nat, k < 64 → byteOf (t.n n) k = if k < sizeBytes sz then s.lmem.get ((s.x ra).toNat + k) else 0) ∧
    (∃ t, exec (.nst sz n ra) s = .next t ∧ OnlyStored (s.x ra).toNat (sizeBytes sz) s t ∧
      ∀ k : Nat, k < sizeBytes sz → t.lmem.get ((s.x ra).toNat + k) = byteOf (s.n n) k)

/-- R204, R205: NCLR clears all 512 bits; NMOV copies the value mod 2^SIZE, zero-extended. -/
def Obligations.NumberClearAndMove : Prop :=
  ∀ (s : State) (sz : SizeCode) (nd na : NReg),
    (∃ t, exec (.nclr nd) s = .next t ∧ OnlyN nd s t ∧ t.n nd = 0) ∧
    (∃ t, exec (.nmov sz nd na) s = .next t ∧ OnlyN nd s t ∧
      (t.n nd).toNat = (s.n na).toNat % 2 ^ (32 * (sz.val + 1)))

/-- R206, R207, R215: NADDS and NMULS, exact and then mod 2^SIZE, with the scalar mod 2^WW; SIZE mod WW must
be 0 (otherwise IllFormedTermsTakeIllegal). -/
def Obligations.NumberAddAndMultiply : Prop :=
  ∀ (s : State) (sz : SizeCode) (ww : NumWidth) (nd : NReg) (ra : XReg), sizeBits sz % ww.bits = 0 →
    (∃ t, exec (.nadds sz ww nd ra) s = .next t ∧ OnlyN nd s t ∧
      (t.n nd).toNat = ((s.n nd).toNat + (s.x ra).toNat % 2 ^ ww.bits) % 2 ^ sizeBits sz) ∧
    (∃ t, exec (.nmuls sz ww nd ra) s = .next t ∧ OnlyN nd s t ∧
      (t.n nd).toNat = ((s.n nd).toNat * ((s.x ra).toNat % 2 ^ ww.bits)) % 2 ^ sizeBits sz)

/-- R208, R215: NDIVS: V = q·n + r with r < n, q to N[rd] and r to X[ra], the divisor read first; divisor 0
raises DIV_ZERO and changes no register. -/
def Obligations.NumberDivide : Prop :=
  ∀ (s : State) (sz : SizeCode) (ww : NumWidth) (nd : NReg) (xr xb : XReg), sizeBits sz % ww.bits = 0 →
    let n := (s.x xb).toNat % 2 ^ ww.bits
    (n = 0 → exec (.ndivs sz ww nd xr xb) s =
      .next (s.errorEntry .divZero s.cp (encode (.ndivs sz ww nd xr xb)))) ∧
    (n ≠ 0 → ∃ t, exec (.ndivs sz ww nd xr xb) s = .next t ∧
      (s.n nd).toNat % 2 ^ sizeBits sz = (t.n nd).toNat * n + (t.x xr).toNat ∧ (t.x xr).toNat < n ∧
      t = { s with xregs := t.xregs, nregs := t.nregs, cp := s.cp + 4 } ∧
      (∀ r, r ≠ xr → t.x r = s.x r) ∧ (∀ r, r ≠ nd → t.n r = s.n r))

/-- R209, R210: NISZ and NEQ write Z from the low SIZE bits and nothing else but CP. -/
def Obligations.NumberTests : Prop :=
  ∀ (s : State) (sz : SizeCode) (na nb : NReg),
    (∃ t, exec (.nisz sz na) s = .next t ∧ OnlyZ s t ∧
      (t.z = true ↔ ∀ k : Nat, k < sizeBytes sz → byteOf (s.n na) k = 0)) ∧
    (∃ t, exec (.neq sz na nb) s = .next t ∧ OnlyZ s t ∧
      (t.z = true ↔ ∀ k : Nat, k < sizeBytes sz → byteOf (s.n na) k = byteOf (s.n nb) k))

/-- R211, R212: NBSWAP reverses all SIZE/8 bytes; NBSWAPW reverses the bytes of each WW-bit word in place. -/
def Obligations.NumberByteSwaps : Prop :=
  ∀ (s : State) (sz : SizeCode) (ww : NumWidth) (nd na : NReg),
    (∃ t, exec (.nbswap sz nd na) s = .next t ∧ OnlyN nd s t ∧
      ∀ k : Nat, k < 64 → byteOf (t.n nd) k =
        if k < sizeBytes sz then byteOf (s.n na) (sizeBytes sz - 1 - k) else 0) ∧
    (sizeBits sz % ww.bits = 0 → ∃ t, exec (.nbswapw sz ww nd na) s = .next t ∧ OnlyN nd s t ∧
      ∀ k : Nat, k < 64 → byteOf (t.n nd) k =
        if k < sizeBytes sz then byteOf (s.n na) (k / ww.bytes * ww.bytes + (ww.bytes - 1 - k % ww.bytes)) else 0)

/-- R213, R214: NGETW and NSETW inside the register, bit by bit; beyond it BAD_INDEX. -/
def Obligations.NumberWordIndexing : Prop :=
  ∀ (s : State) (ww : NumWidth) (x : XReg) (n : NReg) (idx : Fin 256),
    (idx.val < 512 / ww.bits →
      (∃ t, exec (.ngetw ww x n idx) s = .next t ∧ OnlyX x s t ∧
        ∀ k : Nat, k < 64 → (t.x x).getLsbD k =
          (decide (k < ww.bits) && (s.n n).getLsbD (idx.val * ww.bits + k))) ∧
      (∃ t, exec (.nsetw ww n x idx) s = .next t ∧ OnlyN n s t ∧
        ∀ k : Nat, k < 512 → (t.n n).getLsbD k =
          if idx.val * ww.bits ≤ k ∧ k < idx.val * ww.bits + ww.bits
          then (s.x x).getLsbD (k - idx.val * ww.bits) else (s.n n).getLsbD k)) ∧
    (512 / ww.bits ≤ idx.val →
      exec (.ngetw ww x n idx) s = .next (s.errorEntry .badIndex s.cp (encode (.ngetw ww x n idx))) ∧
      exec (.nsetw ww n x idx) s = .next (s.errorEntry .badIndex s.cp (encode (.nsetw ww n x idx))))

/-! ## The hash engine -/

/-- R302, R316, R305: HINIT, HWIPE and HSTAT complete in every state: the context they leave, the field read. -/
def Obligations.HashInitWipeStatus : Prop :=
  ∀ (s : State) (m : Mode) (rd : XReg),
    exec (.hinit m) s = .next { s with
      he := { mode := m, state := .empty, h := seedOf m, blk := Vector.replicate 128 0, off := 0, total := 0 }
      cp := s.cp + 4 } ∧
    exec .hwipe s = .next { s with
      he := { mode := .sha256, state := .uninit, h := Vector.replicate 8 0, blk := Vector.replicate 128 0,
              off := 0, total := 0 }
      cp := s.cp + 4 } ∧
    (∃ t, exec (.hstat rd .total) s = .next t ∧ OnlyX rd s t ∧ t.x rd = s.he.total) ∧
    (∃ t, exec (.hstat rd .off) s = .next t ∧ OnlyX rd s t ∧ (t.x rd).toNat = s.he.off.toNat) ∧
    (∃ t, exec (.hstat rd .mode) s = .next t ∧ OnlyX rd s t ∧ (t.x rd).toNat = s.he.mode.code.toNat) ∧
    (∃ t, exec (.hstat rd .state) s = .next t ∧ OnlyX rd s t ∧ (t.x rd).toNat = s.he.state.code.toNat)

/-- R301: the state machine of HE.STATE, every row and every column; "—" raises HASH_STATE and changes nothing. -/
def Obligations.HashStateMachine : Prop :=
  ∀ (s : State) (m : Mode) (ra rb rd : XReg) (sel : StatSel),
    (∃ t, exec (.hinit m) s = .next t ∧ t.he.state = .empty) ∧
    (∃ t, exec (.hstat rd sel) s = .next t ∧ t.he = s.he) ∧
    (∃ t, exec .hwipe s = .next t ∧ t.he.state = .uninit) ∧
    (s.he.state = .uninit ∨ s.he.state = .final →
      exec (.hupd ra rb) s = .next (s.errorEntry .hashState s.cp (encode (.hupd ra rb)))) ∧
    (s.he.state = .uninit → exec (.hdig ra) s = .next (s.errorEntry .hashState s.cp (encode (.hdig ra)))) ∧
    ((s.x ra).toNat + (s.x rb).toNat ≤ s.cfg.lmemBytes →
      (s.he.state = .empty → ∃ t, exec (.hupd ra rb) s = .next t ∧
        t.he.state = if (s.x rb).toNat = 0 then .empty else .accum) ∧
      (s.he.state = .accum → ∃ t, exec (.hupd ra rb) s = .next t ∧ t.he.state = .accum)) ∧
    ((s.x ra).toNat + s.he.mode.digestBytes ≤ s.cfg.lmemBytes →
      (s.he.state = .empty ∨ s.he.state = .accum → ∃ t, exec (.hdig ra) s = .next t ∧ t.he.state = .final) ∧
      (s.he.state = .final → ∃ t, exec (.hdig ra) s = .next t ∧ t.he = s.he))

/-- R303: HUPD completes in EMPTY and ACCUM on a range inside LMEM: the context is the old one with the bytes
appended (AppendFillsAndCompresses), TOTAL advanced; L = 0 changes nothing; nothing else but CP. -/
def Obligations.HashUpdate : Prop :=
  ∀ (s : State) (ra rb : XReg), s.he.state = .empty ∨ s.he.state = .accum →
    (s.x ra).toNat + (s.x rb).toNat ≤ s.cfg.lmemBytes →
    ∃ (t : State) (m : List Byte), exec (.hupd ra rb) s = .next t ∧ OnlyHe s t ∧
      m.length = (s.x rb).toNat ∧ (∀ k : Nat, ∀ b, m[k]? = some b → b = s.lmem.get ((s.x ra).toNat + k)) ∧
      t.he.total.toNat = (s.he.total.toNat + (s.x rb).toNat) % 2 ^ 64 ∧
      t.he.mode = s.he.mode ∧
      t.he.h = (s.he.append m).h ∧ t.he.blk = (s.he.append m).blk ∧ t.he.off = (s.he.append m).off ∧
      ((s.x rb).toNat = 0 → t.he = s.he)

/-- R304, R313: HDIG completes outside UNINIT on a range inside LMEM: FINALIZE unless FINAL already, the OUT
digest bytes in wire byte order at X[ra], and nothing else but CP. -/
def Obligations.HashDigest : Prop :=
  ∀ (s : State) (ra : XReg), s.he.state ≠ .uninit →
    (s.x ra).toNat + s.he.mode.digestBytes ≤ s.cfg.lmemBytes →
    ∃ t, exec (.hdig ra) s = .next t ∧
      t = { s with he := t.he, lmem := t.lmem, cp := s.cp + 4 } ∧
      t.he = (if s.he.state = .final then s.he else s.he.finalize) ∧
      (∀ a, ¬ ((s.x ra).toNat ≤ a ∧ a < (s.x ra).toNat + s.he.mode.digestBytes) →
        t.lmem.get a = s.lmem.get a) ∧
      ∀ j : Nat, j < s.he.mode.digestBytes →
        t.lmem.get ((s.x ra).toNat + j) =
          (let wb := s.he.mode.width.bytes
           if s.he.mode = .rmd160 then byteOf (t.he.h.toList.getD (j / 4) 0) (j % 4)
           else byteOf (t.he.h.toList.getD (j / wb) 0) (wb - 1 - j % wb))

/-- R312: HDIG after HDIG changes no state of the context and writes the same bytes, wherever it writes them. -/
def Obligations.DigestIsIdempotent : Prop :=
  ∀ (s t : State) (ra rb : XReg), s.run = .running → exec (.hdig ra) s = .next t → t.run = .running →
    (s.x rb).toNat + s.he.mode.digestBytes ≤ s.cfg.lmemBytes →
    ∃ u, exec (.hdig rb) t = .next u ∧ u.he = t.he ∧
      ∀ j : Nat, j < s.he.mode.digestBytes → u.lmem.get ((s.x rb).toNat + j) = t.lmem.get ((s.x ra).toNat + j)

/-- R306: APPEND, as the two steps of its loop: a sequence that leaves room is put in the block buffer at
HE.OFF; one that fills it is cut, the full block compressed, and the rest appended. HE.TOTAL and HE.STATE
stay, HE.OFF < B afterwards, bytes of the buffer outside the part written keep their values. -/
def Obligations.AppendFillsAndCompresses : Prop :=
  ∀ (c : HashCtx) (m : List Byte), c.off.toNat < c.mode.blockBytes →
    (c.append m).mode = c.mode ∧ (c.append m).total = c.total ∧ (c.append m).state = c.state ∧
    (c.append m).off.toNat < c.mode.blockBytes ∧
    (m.length < c.mode.blockBytes - c.off.toNat →
      (c.append m).off.toNat = c.off.toNat + m.length ∧ (c.append m).h = c.h ∧
      ∀ j : Fin 128, (c.append m).blk[j] =
        if c.off.toNat ≤ j.val ∧ j.val < c.off.toNat + m.length then m.getD (j.val - c.off.toNat) 0
        else c.blk[j]) ∧
    (c.mode.blockBytes - c.off.toNat ≤ m.length →
      ∃ full : HashCtx,
        full.mode = c.mode ∧ full.state = c.state ∧ full.total = c.total ∧ full.h = c.h ∧
        (∀ j : Fin 128, full.blk[j] =
          if c.off.toNat ≤ j.val ∧ j.val < c.mode.blockBytes then m.getD (j.val - c.off.toNat) 0
          else c.blk[j]) ∧
        c.append m = (full.compress).append (m.drop (c.mode.blockBytes - c.off.toNat)))

/-- R309, R310, R311: FINALIZE appends 0x80, the least number of zero bytes, and the length field in bits
(big-endian for SHA-2, little-endian for RIPEMD-160), which ends exactly on a block edge. -/
def Obligations.FinalizePads : Prop :=
  ∀ (c : HashCtx) (k : Nat), c.off.toNat < c.mode.blockBytes →
    k < c.mode.blockBytes → (c.off.toNat + 1 + k + c.mode.lengthBytes) % c.mode.blockBytes = 0 →
    let bits := 8 * c.total.toNat % 2 ^ (8 * c.mode.lengthBytes)
    let field := if c.mode = .rmd160 then toLE c.mode.lengthBytes bits else toBE c.mode.lengthBytes bits
    c.finalize.h = (c.append ([0x80] ++ List.replicate k 0 ++ field)).h ∧
    c.finalize.state = .final ∧ c.finalize.off.toNat = c.mode.blockBytes ∧
    c.finalize.total = c.total ∧ c.finalize.mode = c.mode

/-- R300, R306 to R311: the digest state of a whole message is the fold of the compression function over the
blocks of the padded message, from the variant's SEED. -/
def Obligations.DigestFoldsThePaddedMessage : Prop :=
  ∀ (m : Mode) (msg : List Byte) (k : Nat), msg.length < 2 ^ 64 →
    k < m.blockBytes → (msg.length + 1 + k + m.lengthBytes) % m.blockBytes = 0 →
    let field := if m = .rmd160 then toLE m.lengthBytes (8 * msg.length) else toBE m.lengthBytes (8 * msg.length)
    let padded := msg ++ [0x80] ++ List.replicate k 0 ++ field
    ((HashCtx.init m).update msg msg.length).finalize.h =
      (blocksOf m.blockBytes (padded.length / m.blockBytes) padded).foldl (compressFn m) (seedOf m)

/-- R315: submitting a message in parts, in any split, leaves the context that submitting it at once leaves;
and so for two HUPD commands on adjacent ranges against one on the whole. -/
def Obligations.StreamingEquivalence : Prop :=
  (∀ (m : Mode) (parts : List (List Byte)),
    parts.foldl (fun c p => HashCtx.update c p p.length) (HashCtx.init m) =
      (HashCtx.init m).update parts.flatten parts.flatten.length) ∧
  (∀ (s t u v : State) (ra rb rc rd re : XReg), s.run = .running →
    (s.x rc).toNat = (s.x ra).toNat + (s.x rb).toNat →
    (s.x re).toNat = (s.x rb).toNat + (s.x rd).toNat →
    exec (.hupd ra rb) s = .next t → t.run = .running →
    exec (.hupd rc rd) t = .next u → u.run = .running →
    exec (.hupd ra re) s = .next v → v.run = .running ∧ u.he = v.he)

/-- R47, R306: bytes of the block buffer at or beyond HE.OFF are read by no rule before they are overwritten:
they change neither the running state nor any digest. -/
def Obligations.StaleBufferBytesAreNeverRead : Prop :=
  ∀ (c : HashCtx) (blk : Vector Byte 128) (m : List Byte), c.off.toNat < c.mode.blockBytes →
    (∀ j : Fin 128, j.val < c.off.toNat → blk[j] = c.blk[j]) →
    let d : HashCtx := { c with blk := blk }
    (d.append m).h = (c.append m).h ∧ (d.append m).off = (c.append m).off ∧
    (d.append m).finalize.output = (c.append m).finalize.output

/-- R352, R353: the message schedule of a block: sixteen big-endian words, then the recurrence, mod 2^w. -/
def Obligations.MessageSchedule : Prop :=
  ∀ (w : Width) (m : List Byte), m.length = 16 * w.bytes →
    let W := fun t => (schedule w m).getD t 0
    (schedule w m).length = (match w with | .w32 => 64 | .w64 => 80) ∧
    (∀ t : Nat, t < 16 → (W t).toNat = fromBE ((m.drop (t * w.bytes)).take w.bytes)) ∧
    (∀ t : Nat, 16 ≤ t → t < (match w with | .w32 => 64 | .w64 => 80) →
      W t = ssig1 w (W (t - 2)) + W (t - 7) + ssig0 w (W (t - 15)) + W (t - 16))

/-! ## Reset and the host interface -/

/-- R550, R551: the state of `State.reset`, and what the soft reset (a host write of CTRL with SOFT_RESET) and the
power-on reset leave, whatever the state before, a running sequencer among them. That the parameters, the
turns and the last read value are kept is the model's choice (log 2, log 3, log 4). -/
def Obligations.Resets : Prop :=
  State.reset.AtReset ∧
  (∀ s : State, s.AtReset → s.registerWord 0x004 = 0 ∧ s.registerWord 0x008 = 0 ∧ s.registerWord 0x000 = 0x51484301) ∧
  (∀ (s : State) (v : Word32) (rest : List Turn),
    s.turns = .host (.write (s.cfg.hostBase + 0x004) v) :: rest → v.getLsbD 2 = true →
    ∃ t, step s = .next t ∧ t.AtReset ∧ t.lmem = s.lmem ∧
      t.cfg = s.cfg ∧ t.turns = rest ∧ t.readData = s.readData) ∧
  (∀ (s : State) (m : Memory) (rest : List Turn), s.turns = .powerOn m :: rest →
    ∃ t, step s = .next t ∧ t.AtReset ∧
      (∀ a, a < s.cfg.lmemBytes → t.lmem.get a = m.get a) ∧
      t.cfg = s.cfg ∧ t.turns = rest ∧ t.readData = s.readData)

/-- R61: a host write of CTRL without SOFT_RESET: IRQ_EN, ABORT and START; with SOFT_RESET: the reset and nothing
else; what CTRL is, and that a host read returns it (held in the model's readData, log 4). -/
def Obligations.ControlRegister : Prop :=
  (∀ (s : State) (v : Word32) (rest : List Turn),
    s.turns = .host (.write (s.cfg.hostBase + 0x004) v) :: rest → v.getLsbD 2 = false →
    step s = .next (
      if s.run = .running then
        { s with turns := rest, irqEn := v.getLsbD 3, abortReq := s.abortReq || v.getLsbD 1 }
      else if v.getLsbD 0 = true then
        { s with turns := rest, irqEn := v.getLsbD 3, errcode := .none, abortReq := false, run := .running }
      else { s with turns := rest, irqEn := v.getLsbD 3 })) ∧
  (∀ (s : State) (v : Word32) (rest : List Turn),
    s.turns = .host (.write (s.cfg.hostBase + 0x004) v) :: rest → v.getLsbD 2 = true →
    ∃ t, step s = .next t ∧ t.AtReset ∧ t.lmem = s.lmem) ∧
  (∀ (s : State) (k : Nat), k < 32 → (s.registerWord 0x004).getLsbD k = (decide (k = 3) && s.irqEn)) ∧
  (∀ (s : State) (rest : List Turn), s.turns = .host (.read (s.cfg.hostBase + 0x004)) :: rest →
    step s = .next { s with turns := rest, readData := some (s.registerWord 0x004) }) ∧
  State.reset.registerWord 0x004 = 0

/-- R62: what each bit of STATUS is, the codes of RUN, ERRCODE, HE.MODE and HE.STATE written out (R36, R500, R6,
R41), that a host read returns it and changes nothing else (it is held in the model's readData, log 4), and that
a write clears IRQ and HOSTERR where it has a 1 and nothing else. -/
def Obligations.StatusRegister : Prop :=
  (∀ (s : State) (v : Word32) (rest : List Turn),
    s.turns = .host (.write (s.cfg.hostBase + 0x008) v) :: rest →
    step s = .next { s with
      turns := rest
      irq := s.irq && !v.getLsbD 2
      hostErr := s.hostErr && !v.getLsbD 3 }) ∧
  (∀ s : State,
    let v := s.registerWord 0x008
    v.extractLsb' 0 2 = (match s.run with | .idle => 0 | .running => 1 | .halted => 2 | .error => 3) ∧
    v.getLsbD 2 = s.irq ∧ v.getLsbD 3 = s.hostErr ∧ v.getLsbD 4 = s.z ∧ v.extractLsb' 5 3 = 0 ∧
    v.extractLsb' 8 8 = (match s.errcode with
      | .none => 0 | .illegal => 1 | .fetchFault => 2 | .dataFault => 3 | .divZero => 4 | .hashState => 5
      | .badIndex => 6 | .aborted => 7) ∧
    v.extractLsb' 16 3 = (match s.he.mode with
      | .sha256 => 0 | .sha224 => 1 | .sha512 => 2 | .sha384 => 3 | .sha512t256 => 4 | .sha512t224 => 5
      | .rmd160 => 6) ∧
    v.getLsbD 19 = false ∧
    v.extractLsb' 20 2 = (match s.he.state with | .uninit => 0 | .empty => 1 | .accum => 2 | .final => 3) ∧
    v.extractLsb' 22 10 = 0) ∧
  (∀ (s : State) (rest : List Turn), s.turns = .host (.read (s.cfg.hostBase + 0x008)) :: rest →
    step s = .next { s with turns := rest, readData := some (s.registerWord 0x008) }) ∧
  State.reset.registerWord 0x008 = 0

/-- R60, R63 to R67, R90: a host read below the LMEM window returns the register at that offset, 0 where there is
none, and changes nothing else (the model's readData holds what was returned, log 4; PARAM0 for an LMEM of 2^32
bytes, log 12); a host write of CP while
stopped sets it; a write of a read-only, reserved or unmapped offset has no effect. -/
def Obligations.HostRegisterAccess : Prop :=
  (∀ (s : State) (o : Nat) (rest : List Turn), o < 0x10000 → o % 4 = 0 →
    s.turns = .host (.read (s.cfg.hostBase + o)) :: rest →
    ∃ v, step s = .next { s with turns := rest, readData := some v } ∧
      (o = 0x000 → v = 0x51484301) ∧
      (o = 0x004 ∨ o = 0x008 → v = s.registerWord o) ∧
      (o = 0x00C → v = s.cp) ∧
      (o = 0x010 → v = s.errcp) ∧
      (o = 0x014 → v = s.errcmd) ∧
      (o = 0x018 → v.toNat = s.cfg.lmemBytes % 2 ^ 32) ∧
      (o = 0x01C → v = 0x7F100410) ∧
      (0x020 ≤ o → v = 0)) ∧
  (∀ (s : State) (o : Nat) (v : Word32) (rest : List Turn), o % 4 = 0 → o < 2 ^ 32 →
    s.turns = .host (.write (s.cfg.hostBase + o) v) :: rest →
    (o = 0x00C → s.run ≠ .running → step s = .next { s with turns := rest, cp := v }) ∧
    ((o < 0x10000 ∧ o ≠ 0x004 ∧ o ≠ 0x008 ∧ o ≠ 0x00C) ∨ 0x10000 + s.cfg.lmemBytes ≤ o →
      step s = .next (s.setTurns rest))) ∧
  (∀ (s : State) (o : Nat) (rest : List Turn), o % 4 = 0 → 0x10000 + s.cfg.lmemBytes ≤ o → o < 2 ^ 32 →
    s.turns = .host (.read (s.cfg.hostBase + o)) :: rest →
    step s = .next { s with turns := rest, readData := some 0 })

/-- R91: while RUNNING a host access of LMEM or write of CP is dropped and sets HOSTERR, the read returning 0 (held
in the model's readData, log 4). -/
def Obligations.HostIsKeptOutWhileRunning : Prop :=
  ∀ (s : State) (o : Nat) (v : Word32) (rest : List Turn), s.run = .running → o % 4 = 0 →
    (0x10000 ≤ o → o < 0x10000 + s.cfg.lmemBytes →
      (s.turns = .host (.write (s.cfg.hostBase + o) v) :: rest →
        step s = .next { s with turns := rest, hostErr := true }) ∧
      (s.turns = .host (.read (s.cfg.hostBase + o)) :: rest →
        step s = .next { s with turns := rest, hostErr := true, readData := some 0 })) ∧
    (s.turns = .host (.write (s.cfg.hostBase + 0x00C) v) :: rest →
      step s = .next { s with turns := rest, hostErr := true })

/-- R90: a host access of the LMEM window while stopped reads or writes the four bytes at k, the lowest first
(what a read returned is held in the model's readData, log 4). -/
def Obligations.HostLmemWindow : Prop :=
  ∀ (s : State) (k : Nat) (v : Word32) (rest : List Turn), s.run ≠ .running → k % 4 = 0 →
    k < s.cfg.lmemBytes →
    (s.turns = .host (.read (s.cfg.hostBase + (0x10000 + k))) :: rest →
      ∃ r, step s = .next { s with turns := rest, readData := some r } ∧
        ∀ j : Nat, j < 4 → byteOf r j = s.lmem.get (k + j)) ∧
    (s.turns = .host (.write (s.cfg.hostBase + (0x10000 + k)) v) :: rest →
      ∃ t, step s = .next t ∧ t = { s with turns := rest, lmem := t.lmem } ∧
        (∀ j : Nat, j < 4 → t.lmem.get (k + j) = byteOf v j) ∧
        ∀ a, ¬ (k ≤ a ∧ a < k + 4) → t.lmem.get a = s.lmem.get a)

/-- R31, R42, R43, R556: the host sees neither X, N nor any part of the hash context but MODE and STATE: what a
host access reads (the model's readData, log 4) does not depend on them, nor does anything else the host sees
after it. -/
def Obligations.HostCannotSeeRegisters : Prop :=
  ∀ (s t : State) (a : HostAccess) (xs : Vector Word64 16) (ns : Vector Number 4) (c : HashCtx),
    c.mode = s.he.mode → c.state = s.he.state → hostTurn a s = .next t →
    ∃ u, hostTurn a { s with xregs := xs, nregs := ns, he := c } = .next u ∧
      u.readData = t.readData ∧ u.lmem = t.lmem ∧ u.cp = t.cp ∧ u.run = t.run ∧ u.z = t.z ∧
      u.irq = t.irq ∧ u.irqEn = t.irqEn ∧ u.hostErr = t.hostErr ∧ u.errcode = t.errcode ∧
      u.errcp = t.errcp ∧ u.errcmd = t.errcmd ∧ u.abortReq = t.abortReq ∧
      u.he.mode = t.he.mode ∧ u.he.state = t.he.state

/-! ## Memory and the invariant -/

/-- Two memories in the canonical form that read the same at every address are the same data (the form is the
model's, log 1). -/
def Obligations.MemoryEqualWhenBytesEqual : Prop :=
  ∀ m₁ m₂ : Memory, m₁.wf = true → m₂.wf = true → (∀ a, m₁.get a = m₂.get a) → m₁ = m₂

/-- R46 and the rules around it: every step of every agent keeps the invariant, from every state that meets it; so
it holds along every run, whatever turns the run is given. -/
def Obligations.StepKeepsInvariant : Prop :=
  (∀ s t : State, s.Inv → step s = .next t → t.Inv) ∧ (∀ s : State, s.Inv → SafeFrom s)

/-- The state after reset meets the invariant (its empty LMEM is the model's choice, log 1). -/
def Obligations.ResetMeetsInvariant : Prop := State.reset.Inv
end

