-- ==== Sys2Proof/Laws/Bytes.lean ====
section
/-! SUPPORT. Byte sequences as numbers and back, and the bits of placed and inserted fields. -/

namespace Sys2Proof

@[simp] theorem length_toLE (n v : Nat) : (toLE n v).length = n := by
  induction n generalizing v with
  | zero => rfl
  | succ n ih => simp [toLE, ih]

@[simp] theorem length_toBE (n v : Nat) : (toBE n v).length = n := by simp [toBE]

/-- Byte `k` of LE_n(v). -/
theorem getElem_toLE (n v k : Nat) (h : k < (toLE n v).length) :
    (toLE n v)[k] = BitVec.ofNat 8 (v / 2 ^ (8 * k)) := by
  induction n generalizing v k with
  | zero => simp [toLE] at h
  | succ n ih =>
    cases k with
    | zero => simp [toLE]
    | succ k =>
      simp only [toLE, List.getElem_cons_succ]
      rw [ih, Nat.div_div_eq_div_mul, Nat.mul_add, Nat.add_comm, Nat.pow_add]

theorem fromLE_append (a b : List Byte) : fromLE (a ++ b) = fromLE a + 256 ^ a.length * fromLE b := by
  induction a with
  | nil => simp [fromLE]
  | cons x xs ih => simp only [List.cons_append, fromLE, ih, List.length_cons, Nat.pow_succ]; ring

theorem fromLE_lt (bs : List Byte) : fromLE bs < 256 ^ bs.length := by
  induction bs with
  | nil => simp [fromLE]
  | cons b bs ih =>
    have := b.isLt
    simp only [fromLE, List.length_cons, Nat.pow_succ]
    omega

theorem fromLE_toLE (n v : Nat) : fromLE (toLE n v) = v % 256 ^ n := by
  induction n generalizing v with
  | zero => simp [toLE, fromLE, Nat.mod_one]
  | succ n ih =>
    simp only [toLE, fromLE, ih, BitVec.toNat_ofNat]
    rw [show 256 ^ (n + 1) = 256 * 256 ^ n by ring, Nat.mod_mul]

theorem toLE_fromLE (bs : List Byte) : toLE bs.length (fromLE bs) = bs := by
  induction bs with
  | nil => rfl
  | cons b bs ih =>
    have hb : b.toNat < 256 := b.isLt
    have hd : (b.toNat + 256 * fromLE bs) / 256 = fromLE bs := by omega
    simp only [List.length_cons, fromLE, toLE, hd, ih]
    congr 1
    apply BitVec.eq_of_toNat_eq
    simp only [BitVec.toNat_ofNat]
    omega

theorem fromBE_toBE (n v : Nat) : fromBE (toBE n v) = v % 256 ^ n := by
  simp [fromBE, toBE, fromLE_toLE]

/-- Byte `k` of a little-endian value. -/
theorem fromLE_byte (bs : List Byte) (k : Nat) (h : k < bs.length) :
    BitVec.ofNat 8 (fromLE bs / 2 ^ (8 * k)) = bs[k] := by
  have := getElem_toLE bs.length (fromLE bs) k (by simpa using h)
  rw [← this]
  simp only [toLE_fromLE]

theorem byteRev_lt (k v : Nat) : byteRev k v < 256 ^ k := by
  simpa [byteRev] using fromLE_lt (toBE k v)

/-- Byte `j` of BYTEREV_k(v) is byte k-1-j of v. -/
theorem byteRev_byte (k v j : Nat) (h : j < k) :
    BitVec.ofNat 8 (byteRev k v / 2 ^ (8 * j)) = BitVec.ofNat 8 (v / 2 ^ (8 * (k - 1 - j))) := by
  rw [byteRev, fromLE_byte _ _ (by simpa using h)]
  simp only [toBE, List.getElem_reverse, getElem_toLE, length_toLE]

theorem toLE_byteRev (k v : Nat) : toLE k (byteRev k v) = toBE k v := by
  simpa [byteRev] using toLE_fromLE (toBE k v)

theorem byteRev_byteRev (k v : Nat) : byteRev k (byteRev k v) = v % 256 ^ k := by
  rw [byteRev, toBE, toLE_byteRev, toBE, List.reverse_reverse, fromLE_toLE]

theorem getLsbD_placeField {n : Nat} (f : BitVec n) (lo i : Nat) :
    (placeField f lo).getLsbD i = (decide (i < 32) && decide (lo ≤ i) && f.getLsbD (i - lo)) := by
  simp only [placeField, BitVec.getLsbD_shiftLeft, BitVec.getLsbD_setWidth]
  by_cases h1 : i < 32 <;> by_cases h2 : lo ≤ i <;> simp [h1, h2, Nat.not_lt.mpr, Nat.lt_of_not_le]
  omega

theorem getElem_placeField {n : Nat} (f : BitVec n) (lo i : Nat) (h : i < 32) :
    (placeField f lo)[i] = (decide (lo ≤ i) && f.getLsbD (i - lo)) := by
  rw [← BitVec.getLsbD_eq_getElem, getLsbD_placeField]
  simp [h]

/-- The bits of `v` with the field `f` put at bit `lo`: those of `f` where it lies, those of `v` elsewhere. -/
theorem getLsbD_insertField {n k : Nat} (v : BitVec n) (lo : Nat) (f : BitVec k) (i : Nat) (hi : i < n) :
    (insertField v lo f).getLsbD i =
      if lo ≤ i ∧ i < lo + k then f.getLsbD (i - lo) else v.getLsbD i := by
  simp only [insertField, BitVec.getLsbD_or, BitVec.getLsbD_and, BitVec.getLsbD_not,
    BitVec.getLsbD_shiftLeft, BitVec.getLsbD_setWidth, BitVec.getLsbD_allOnes]
  by_cases h1 : lo ≤ i
  · have h3 : i - lo < n := by omega
    have h5 : ¬ i < lo := by omega
    by_cases h2 : i < lo + k
    · have h4 : i - lo < k := by omega
      simp [h1, h2, h3, h4, h5, hi]
    · have h4 : ¬ i - lo < k := by omega
      have h6 : f.getLsbD (i - lo) = false := BitVec.getLsbD_of_ge _ _ (by omega)
      simp [h1, h2, h3, h4, h5, h6, hi]
  · have h5 : i < lo := by omega
    simp [h1, h5, hi]

end Sys2Proof
end

