-- ==== Sys2Proof/Laws/Decode.lean ====
section
/-! SUPPORT. Operand codes read back, command words as bytes, and how the opcode map finds a row. -/

namespace Sys2Proof

@[simp] theorem nReg?_nCode (r : NReg) : nReg? (nCode r) = some r := by revert r; decide
@[simp] theorem widthOf_code (w : Width) : widthOf w.code = w := by cases w <;> rfl
@[simp] theorem numWidthOf_code (w : NumWidth) : numWidthOf w.code = w := by cases w <;> rfl
@[simp] theorem mode?_code (m : Mode) : mode? m.code = some m := by cases m <;> rfl
@[simp] theorem statSelOf_code (s : StatSel) : statSelOf s.code = s := by cases s <;> rfl
@[simp] theorem finCode_toFin {n : Nat} (f : Fin (2 ^ n)) : (finCode f).toFin = f := rfl
@[simp] theorem finCode_of_toFin {n : Nat} (b : BitVec n) : finCode b.toFin = b := rfl

theorem code_widthOf (b : BitVec 1) : (widthOf b).code = b := by revert b; decide
theorem code_numWidthOf (b : BitVec 2) : (numWidthOf b).code = b := by revert b; decide
theorem code_statSelOf (b : BitVec 2) : (statSelOf b).code = b := by revert b; decide
theorem code_mode? (b : BitVec 3) (m : Mode) (h : mode? b = some m) : m.code = b := by
  revert h; revert b m; intro b m; cases m <;> revert b <;> decide
theorem nCode_nReg? (b : BitVec 4) (r : NReg) (h : nReg? b = some r) : nCode r = b := by
  revert h; revert b r; decide

@[simp] theorem finCode_zero (n : Nat) [NeZero (2 ^ n)] : finCode (n := n) 0 = 0 := rfl

@[simp] theorem placeField_zero (n lo : Nat) : placeField (0 : BitVec n) lo = 0 := by simp [placeField]

/-- A field placed outside a mask is masked away. -/
theorem placeField_and {n : Nat} (f : BitVec n) (lo : Nat) (m : Word32) (h : m.extractLsb' lo n = 0) :
    placeField f lo &&& m = 0 := by
  apply BitVec.eq_of_getLsbD_eq
  intro i hi
  simp only [BitVec.getLsbD_and, getLsbD_placeField]
  by_cases h1 : lo ≤ i ∧ i - lo < n
  · have := congrArg (fun v => v.getLsbD (i - lo)) h
    simp only [BitVec.getLsbD_extractLsb', h1.2, decide_true, Bool.true_and] at this
    rw [show lo + (i - lo) = i by omega] at this
    simp [this]
  · by_cases h2 : lo ≤ i
    · have : f.getLsbD (i - lo) = false := BitVec.getLsbD_of_ge _ _ (by omega)
      simp [this]
    · simp [h2]

theorem opOf_or (a b : Word32) : opOf (a ||| b) = opOf a ||| opOf b := by
  apply BitVec.eq_of_getLsbD_eq
  intro i hi
  simp [opOf, hi]

/-- A field placed below OP leaves OP 0. -/
theorem opOf_placeField {n : Nat} (f : BitVec n) (lo : Nat) (h : lo + n ≤ 24) : opOf (placeField f lo) = 0 := by
  apply BitVec.eq_of_getLsbD_eq
  intro i hi
  have : f.getLsbD (24 + i - lo) = false := BitVec.getLsbD_of_ge _ _ (by omega)
  simp only [opOf, BitVec.getLsbD_extractLsb', getLsbD_placeField, this, Bool.and_false]
  simp

theorem extractLsb'_or_word (a b : Word32) (lo n : Nat) :
    (a ||| b).extractLsb' lo n = a.extractLsb' lo n ||| b.extractLsb' lo n := by
  apply BitVec.eq_of_getLsbD_eq
  intro i hi
  simp [hi]

/-- A placed field read back at its place. -/
theorem extractLsb'_placeField_self {n : Nat} (f : BitVec n) (lo : Nat) (h : lo + n ≤ 32) :
    (placeField f lo).extractLsb' lo n = f := by
  apply BitVec.eq_of_getLsbD_eq
  intro i hi
  have : lo + i < 32 := by omega
  simp only [BitVec.getLsbD_extractLsb', getLsbD_placeField, hi, decide_true, Bool.true_and]
  simp [this]

/-- A placed field read at another place. -/
theorem extractLsb'_placeField_other {n k : Nat} (f : BitVec n) (lo lo' : Nat) (h : lo + n ≤ lo' ∨ lo' + k ≤ lo) :
    (placeField f lo).extractLsb' lo' k = 0 := by
  apply BitVec.eq_of_getLsbD_eq
  intro i hi
  simp only [BitVec.getLsbD_extractLsb', getLsbD_placeField]
  rcases h with h | h
  · rw [BitVec.getLsbD_of_ge f _ (by omega)]; simp
  · have : ¬ lo ≤ lo' + i := by omega
    simp [this]

/-- A field taken out of a word and put back at its place is the word masked to that field. -/
theorem placeField_extractLsb' (c : Word32) (lo n : Nat) :
    placeField (c.extractLsb' lo n) lo = c &&& placeField (BitVec.allOnes n) lo := by
  apply BitVec.eq_of_getLsbD_eq
  intro k hk
  simp only [BitVec.getLsbD_and, getLsbD_placeField, BitVec.getLsbD_extractLsb', BitVec.getLsbD_allOnes, hk]
  by_cases h : lo ≤ k
  · have e : lo + (k - lo) = k := by omega
    simp only [h, e, decide_true, Bool.true_and]
    cases c.getLsbD k <;> simp
  · simp [h]

/-- The bytes of a command word read back as the word. -/
@[simp] theorem wordOfBytes_bytesOfWord (c : Word32) : wordOfBytes (bytesOfWord c) = c := by
  apply BitVec.eq_of_toNat_eq
  have := c.isLt
  simp [wordOfBytes, bytesOfWord, fromLE_toLE]
  omega

@[simp] theorem length_bytesOfWord (c : Word32) : (bytesOfWord c).length = 4 := by simp [bytesOfWord]

/-- The opcode map looks at OP only. -/
theorem rowOf?_op (c : Word32) (k : BitVec 8) (h : opOf c = k) :
    rowOf? c = opRows.find? fun r => opOf r.pattern == k := by
  rw [rowOf?, h]

/-- Decoding once the row is known. -/
theorem decode_row (c : Word32) (r : OpRow) (h : rowOf? c = some r) :
    decode c =
      if c &&& r.mask = r.pattern then
        match r.build c with
        | .ok i => if i.wellFormed then .ok i else .error .fieldValue
        | .error e => .error e
      else .error .reservedBits := by
  rw [decode, h] <;> rfl

theorem decode_no_row (c : Word32) (h : rowOf? c = none) : decode c = .error .opcode := by
  simp [decode, h]

/-- No two rows of the opcode map share an OP. -/
theorem opRows_op_nodup : (opRows.map fun r => opOf r.pattern).Nodup := by decide

/-- Every pattern lies inside its mask, and every mask holds OP. -/
theorem opRows_pattern_mask : ∀ r ∈ opRows, r.pattern &&& r.mask = r.pattern ∧ opOf r.mask = 0xFF := by decide

end Sys2Proof
end

