-- ==== Sys2Proof/Laws/Hash.lean ====
section
/-! SUPPORT. The hash engine's procedures: what each leaves alone, and where it leaves HE.OFF. -/

namespace Sys2Proof.Machine

theorem Mode.blockBytes_pos (m : Mode) : 0 < m.blockBytes := by cases m <;> decide
theorem Mode.blockBytes_le (m : Mode) : m.blockBytes ≤ 128 := by cases m <;> decide
theorem Mode.blockBytes_dvd (m : Mode) : m.blockBytes ∣ 2 ^ 64 := by cases m <;> decide
theorem Mode.lengthOffset_add (m : Mode) : Mode.lengthOffset m + m.lengthBytes = m.blockBytes := by
  cases m <;> decide
theorem Mode.lengthOffset_lt (m : Mode) : Mode.lengthOffset m < m.blockBytes := by cases m <;> decide
theorem Mode.lengthOffset_mod (m : Mode) : (BitVec.ofNat 8 (Mode.lengthOffset m)).toNat = Mode.lengthOffset m := by
  cases m <;> decide

@[simp] theorem length_lengthField (m : Mode) (v : Nat) : (lengthField m v).length = m.lengthBytes := by
  cases m <;> simp [lengthField]

/-! ## The round constants -/

@[simp] theorem length_roundConstants (w : Width) :
    (roundConstants w).length = match w with | .w32 => 64 | .w64 => 80 := by cases w <;> rfl

/-- The two tables agree where the spec says they do: K512[t][63:32] = K256[t] for t < 64 (R361). -/
theorem k256_eq_high_half : k256 = (k512.take 64).map fun k => k.extractLsb' 32 32 := by decide

/-! ## One step of APPEND -/

@[simp] theorem HashCtx.compress_mode (c : HashCtx) : c.compress.mode = c.mode := rfl
@[simp] theorem HashCtx.compress_state (c : HashCtx) : c.compress.state = c.state := rfl
@[simp] theorem HashCtx.compress_total (c : HashCtx) : c.compress.total = c.total := rfl
@[simp] theorem HashCtx.compress_off (c : HashCtx) : c.compress.off = 0 := rfl
@[simp] theorem HashCtx.compress_blk (c : HashCtx) : c.compress.blk = c.blk := rfl
@[simp] theorem HashCtx.compress_h (c : HashCtx) : c.compress.h = compressFn c.mode c.h c.block := rfl

@[simp] theorem HashCtx.putByte_mode (c : HashCtx) (b : Byte) : (c.putByte b).mode = c.mode := rfl
@[simp] theorem HashCtx.putByte_state (c : HashCtx) (b : Byte) : (c.putByte b).state = c.state := rfl
@[simp] theorem HashCtx.putByte_total (c : HashCtx) (b : Byte) : (c.putByte b).total = c.total := rfl
@[simp] theorem HashCtx.putByte_off (c : HashCtx) (b : Byte) : (c.putByte b).off = c.off := rfl
@[simp] theorem HashCtx.putByte_h (c : HashCtx) (b : Byte) : (c.putByte b).h = c.h := rfl

@[simp] theorem HashCtx.appendByte_mode (c : HashCtx) (b : Byte) : (c.appendByte b).mode = c.mode := by
  unfold HashCtx.appendByte; split <;> rfl
@[simp] theorem HashCtx.appendByte_state (c : HashCtx) (b : Byte) : (c.appendByte b).state = c.state := by
  unfold HashCtx.appendByte; split <;> rfl
@[simp] theorem HashCtx.appendByte_total (c : HashCtx) (b : Byte) : (c.appendByte b).total = c.total := by
  unfold HashCtx.appendByte; split <;> rfl

/-- HE.OFF after one byte of APPEND. -/
theorem HashCtx.appendByte_off (c : HashCtx) (b : Byte) (h : c.off.toNat < c.mode.blockBytes) :
    (c.appendByte b).off.toNat = (c.off.toNat + 1) % c.mode.blockBytes := by
  have hB := Mode.blockBytes_le c.mode
  unfold HashCtx.appendByte
  split
  · rename_i h1
    rw [Nat.mod_eq_of_lt h1]
    show (c.off + 1).toNat = c.off.toNat + 1
    have h2 : (1 : BitVec 8).toNat = 1 := rfl
    rw [BitVec.toNat_add, h2]
    omega
  · have : c.off.toNat + 1 = c.mode.blockBytes := by omega
    rw [this, Nat.mod_self]
    rfl

/-! ## APPEND -/

@[simp] theorem HashCtx.append_nil (c : HashCtx) : c.append [] = c := rfl

@[simp] theorem HashCtx.append_cons (c : HashCtx) (b : Byte) (m : List Byte) :
    c.append (b :: m) = (c.appendByte b).append m := rfl

/-- APPEND of two sequences one after the other is APPEND of them joined. -/
theorem HashCtx.append_append (c : HashCtx) (m₁ m₂ : List Byte) :
    c.append (m₁ ++ m₂) = (c.append m₁).append m₂ := by
  simp [HashCtx.append, List.foldl_append]

@[simp] theorem HashCtx.append_mode (c : HashCtx) (m : List Byte) : (c.append m).mode = c.mode := by
  induction m generalizing c with
  | nil => rfl
  | cons b m ih => simp [ih]

@[simp] theorem HashCtx.append_state (c : HashCtx) (m : List Byte) : (c.append m).state = c.state := by
  induction m generalizing c with
  | nil => rfl
  | cons b m ih => simp [ih]

@[simp] theorem HashCtx.append_total (c : HashCtx) (m : List Byte) : (c.append m).total = c.total := by
  induction m generalizing c with
  | nil => rfl
  | cons b m ih => simp [ih]

/-- HE.OFF after APPEND. -/
theorem HashCtx.append_off (c : HashCtx) (m : List Byte) (h : c.off.toNat < c.mode.blockBytes) :
    (c.append m).off.toNat = (c.off.toNat + m.length) % c.mode.blockBytes := by
  induction m generalizing c with
  | nil => simp [Nat.mod_eq_of_lt h]
  | cons b m ih =>
    have h1 := HashCtx.appendByte_off c b h
    rw [HashCtx.append_cons, ih]
    · rw [h1, HashCtx.appendByte_mode, Nat.mod_add_mod, List.length_cons]
      congr 1; omega
    · rw [h1, HashCtx.appendByte_mode]
      exact Nat.mod_lt _ (Mode.blockBytes_pos c.mode)

/-- HE.OFF < B after every APPEND of at least one byte, and after every APPEND from HE.OFF < B. -/
theorem HashCtx.append_off_lt (c : HashCtx) (m : List Byte) (h : c.off.toNat < c.mode.blockBytes) :
    (c.append m).off.toNat < c.mode.blockBytes := by
  rw [HashCtx.append_off c m h]
  exact Nat.mod_lt _ (Mode.blockBytes_pos c.mode)

/-! ## HUPD and HINIT on the context -/

@[simp] theorem HashCtx.update_mode (c : HashCtx) (m : List Byte) (n : Nat) : (c.update m n).mode = c.mode := by
  simp [HashCtx.update]
@[simp] theorem HashCtx.update_state (c : HashCtx) (m : List Byte) (n : Nat) :
    (c.update m n).state = afterUpdate c.state n := rfl
@[simp] theorem HashCtx.update_total (c : HashCtx) (m : List Byte) (n : Nat) :
    (c.update m n).total = BitVec.ofNat 64 (c.total.toNat + n) := rfl
@[simp] theorem HashCtx.update_off (c : HashCtx) (m : List Byte) (n : Nat) : (c.update m n).off = (c.append m).off := rfl
@[simp] theorem HashCtx.update_h (c : HashCtx) (m : List Byte) (n : Nat) : (c.update m n).h = (c.append m).h := rfl
@[simp] theorem HashCtx.update_blk (c : HashCtx) (m : List Byte) (n : Nat) : (c.update m n).blk = (c.append m).blk := rfl

@[simp] theorem HashCtx.init_mode (m : Mode) : (HashCtx.init m).mode = m := rfl
@[simp] theorem HashCtx.init_state (m : Mode) : (HashCtx.init m).state = .empty := rfl
@[simp] theorem HashCtx.init_total (m : Mode) : (HashCtx.init m).total = 0 := rfl
@[simp] theorem HashCtx.init_off (m : Mode) : (HashCtx.init m).off = 0 := rfl
@[simp] theorem HashCtx.init_h (m : Mode) : (HashCtx.init m).h = seedOf m := rfl

/-! ## FINALIZE -/

@[simp] theorem HashCtx.zeroTo_mode (c : HashCtx) (hi : Nat) : (c.zeroTo hi).mode = c.mode := rfl
@[simp] theorem HashCtx.zeroTo_state (c : HashCtx) (hi : Nat) : (c.zeroTo hi).state = c.state := rfl
@[simp] theorem HashCtx.zeroTo_total (c : HashCtx) (hi : Nat) : (c.zeroTo hi).total = c.total := rfl
@[simp] theorem HashCtx.zeroTo_off (c : HashCtx) (hi : Nat) : (c.zeroTo hi).off = c.off := rfl
@[simp] theorem HashCtx.zeroTo_h (c : HashCtx) (hi : Nat) : (c.zeroTo hi).h = c.h := rfl

@[simp] theorem HashCtx.makeRoom_mode (c : HashCtx) : c.makeRoom.mode = c.mode := by
  unfold HashCtx.makeRoom; split <;> rfl
@[simp] theorem HashCtx.makeRoom_state (c : HashCtx) : c.makeRoom.state = c.state := by
  unfold HashCtx.makeRoom; split <;> rfl
@[simp] theorem HashCtx.makeRoom_total (c : HashCtx) : c.makeRoom.total = c.total := by
  unfold HashCtx.makeRoom; split <;> rfl

@[simp] theorem HashCtx.padZeros_mode (c : HashCtx) : c.padZeros.mode = c.mode := rfl
@[simp] theorem HashCtx.padZeros_total (c : HashCtx) : c.padZeros.total = c.total := rfl
@[simp] theorem HashCtx.padZeros_h (c : HashCtx) : c.padZeros.h = c.h := rfl

@[simp] theorem HashCtx.finalize_state (c : HashCtx) : c.finalize.state = .final := rfl
@[simp] theorem HashCtx.finalize_off (c : HashCtx) : c.finalize.off = BitVec.ofNat 8 c.mode.blockBytes := rfl
@[simp] theorem HashCtx.finalize_mode (c : HashCtx) : c.finalize.mode = c.mode := by simp [HashCtx.finalize]
@[simp] theorem HashCtx.finalize_total (c : HashCtx) : c.finalize.total = c.total := by simp [HashCtx.finalize]

theorem HashCtx.digested_final (c : HashCtx) (h : c.state = .final) : c.digested = c := by
  simp [HashCtx.digested, h]

theorem HashCtx.digested_not_final (c : HashCtx) (h : c.state ≠ .final) : c.digested = c.finalize := by
  cases hs : c.state <;> simp_all [HashCtx.digested]

@[simp] theorem HashCtx.digested_mode (c : HashCtx) : c.digested.mode = c.mode := by
  unfold HashCtx.digested; split <;> simp

@[simp] theorem HashCtx.digested_state (c : HashCtx) : c.digested.state = .final := by
  unfold HashCtx.digested; split <;> simp [*]

/-- Byte `j` of the block buffer after zeros have been put at [lo, lo+n). -/
theorem getElem_zeroBytes (blk : Vector Byte 128) (lo n j : Nat) (h : j < 128) :
    (zeroBytes blk lo n)[j] = if lo ≤ j ∧ j < lo + n then 0 else blk[j] := by
  induction n generalizing blk lo with
  | zero => rw [zeroBytes, if_neg (by omega)]
  | succ n ih =>
    rw [zeroBytes, ih, Vector.getElem_setIfInBounds]
    by_cases h1 : lo = j
    · subst h1; simp
    · by_cases h2 : lo + 1 ≤ j ∧ j < lo + 1 + n
      · rw [if_pos h2, if_pos (by omega)]
      · rw [if_neg h2, if_neg h1, if_neg (by omega)]

/-! ## OUTPUT -/

theorem length_flatMap_const {α : Type} (l : List α) (f : α → List Byte) (n : Nat) (h : ∀ a, (f a).length = n) :
    (l.flatMap f).length = n * l.length := by
  induction l with
  | nil => simp
  | cons a l ih => simp [h, ih, Nat.mul_add, Nat.add_comm]

theorem HashCtx.length_wireBytes (c : HashCtx) : (c.wireBytes).length = 8 * c.mode.width.bytes := by
  unfold HashCtx.wireBytes
  split <;> rename_i h <;> rw [h] <;>
    (rw [length_flatMap_const _ _ _ (fun v => by simp; rfl)]; simp [Mode.width, Width.bytes])

@[simp] theorem HashCtx.length_output (c : HashCtx) : c.output.length = c.mode.digestBytes := by
  rw [HashCtx.output, List.length_take, HashCtx.length_wireBytes]
  cases c.mode <;> decide

end Sys2Proof.Machine
end

