-- ==== Sys2Proof/Laws/Memory.lean ====
section
/-! SUPPORT. LMEM: read after write, and that every memory operation keeps the canonical form and the bound. -/

namespace Sys2Proof.Machine

/-! ## Reading after one write -/

@[simp] theorem Memory.get_nil (a : Nat) : Memory.get [] a = Memory.unlisted := rfl

@[simp] theorem Memory.get_drop_self (m : Memory) (a : Nat) : (m.drop a).get a = Memory.unlisted := by
  induction m with
  | nil => rfl
  | cons c m ih =>
    obtain ⟨k, b⟩ := c
    by_cases h : k = a <;> simp [Memory.drop, Memory.get, h, ih]

theorem Memory.get_drop_ne (m : Memory) (a a' : Nat) (h : a' ≠ a) : (m.drop a).get a' = m.get a' := by
  induction m with
  | nil => rfl
  | cons c m ih =>
    obtain ⟨k, b⟩ := c
    by_cases h1 : k = a
    · have : ¬ k = a' := by omega
      simp [Memory.drop, Memory.get, h1, ih]
      intro e; exact absurd e.symm h
    · simp [Memory.drop, Memory.get, h1, ih]

@[simp] theorem Memory.get_put_self (m : Memory) (a : Nat) (v : Byte) : (m.put a v).get a = v := by
  induction m with
  | nil => simp [Memory.put, Memory.get]
  | cons c m ih =>
    obtain ⟨k, b⟩ := c
    by_cases h1 : a < k
    · simp [Memory.put, Memory.get, h1]
    · by_cases h2 : k = a
      · simp [Memory.put, Memory.get, h2]
      · simp [Memory.put, Memory.get, h1, h2, ih]

theorem Memory.get_put_ne (m : Memory) (a a' : Nat) (v : Byte) (h : a' ≠ a) : (m.put a v).get a' = m.get a' := by
  have h' : ¬ a = a' := fun e => h e.symm
  induction m with
  | nil => simp [Memory.put, Memory.get, h']
  | cons c m ih =>
    obtain ⟨k, b⟩ := c
    by_cases h1 : a < k
    · simp [Memory.put, Memory.get, h1, h']
    · by_cases h2 : k = a
      · subst h2; simp [Memory.put, Memory.get, h']
      · simp [Memory.put, Memory.get, h1, h2, ih]

@[simp] theorem Memory.get_set_self (m : Memory) (a : Nat) (v : Byte) : (m.set a v).get a = v := by
  by_cases h : v = Memory.unlisted <;> simp [Memory.set, h]

theorem Memory.get_set_ne (m : Memory) (a a' : Nat) (v : Byte) (h : a' ≠ a) : (m.set a v).get a' = m.get a' := by
  by_cases hv : v = Memory.unlisted
  · simp [Memory.set, hv, Memory.get_drop_ne _ _ _ h]
  · simp [Memory.set, hv, Memory.get_put_ne _ _ _ _ h]

/-! ## Ranges -/

@[simp] theorem Memory.length_readBytes (m : Memory) (a n : Nat) : (m.readBytes a n).length = n := by
  induction n generalizing a with
  | zero => rfl
  | succ n ih => simp [Memory.readBytes, ih]

theorem Memory.getElem_readBytes (m : Memory) (a n k : Nat) (h : k < (m.readBytes a n).length) :
    (m.readBytes a n)[k] = m.get (a + k) := by
  induction n generalizing a k with
  | zero => simp [Memory.readBytes] at h
  | succ n ih =>
    cases k with
    | zero => simp [Memory.readBytes]
    | succ k =>
      simp only [Memory.readBytes, List.getElem_cons_succ]
      rw [ih]; congr 1; omega

theorem Memory.readBytes_add (m : Memory) (a n k : Nat) :
    m.readBytes a (n + k) = m.readBytes a n ++ m.readBytes (a + n) k := by
  induction n generalizing a with
  | zero => simp [Memory.readBytes]
  | succ n ih =>
    rw [Nat.add_right_comm]
    simp only [Memory.readBytes, ih, List.cons_append, Nat.add_assoc, Nat.add_comm 1 n]

/-- What a write of a byte sequence leaves at every address. -/
theorem Memory.get_writeBytes (m : Memory) (a : Nat) (bs : List Byte) (a' : Nat) :
    (m.writeBytes a bs).get a' = if h : a ≤ a' ∧ a' - a < bs.length then bs[a' - a]'h.2 else m.get a' := by
  induction bs generalizing m a with
  | nil => simp [Memory.writeBytes]
  | cons b bs ih =>
    rw [Memory.writeBytes, ih]
    by_cases h : a' = a
    · subst h; simp
    · rw [Memory.get_set_ne _ _ _ _ h]
      by_cases h1 : a ≤ a' ∧ a' - a < (b :: bs).length
      · have h2 : a + 1 ≤ a' ∧ a' - (a + 1) < bs.length := by
          simp only [List.length_cons] at h1; omega
        rw [dif_pos h1, dif_pos h2]
        have : a' - a = (a' - (a + 1)) + 1 := by omega
        simp only [this, List.getElem_cons_succ]
      · have h2 : ¬ (a + 1 ≤ a' ∧ a' - (a + 1) < bs.length) := by
          simp only [List.length_cons] at h1; omega
        rw [dif_neg h1, dif_neg h2]

theorem Memory.get_writeBytes_outside (m : Memory) (a : Nat) (bs : List Byte) (a' : Nat)
    (h : ¬ (a ≤ a' ∧ a' < a + bs.length)) : (m.writeBytes a bs).get a' = m.get a' := by
  rw [Memory.get_writeBytes, dif_neg (by omega)]

theorem Memory.get_writeBytes_inside (m : Memory) (a : Nat) (bs : List Byte) (k : Nat) (h : k < bs.length) :
    (m.writeBytes a bs).get (a + k) = bs[k] := by
  rw [Memory.get_writeBytes, dif_pos ⟨by omega, by omega⟩]
  simp

/-- Writing a sequence and reading as many bytes there gives the sequence. -/
theorem Memory.readBytes_writeBytes (m : Memory) (a : Nat) (bs : List Byte) :
    (m.writeBytes a bs).readBytes a bs.length = bs := by
  apply List.ext_getElem
  · simp
  · intro k h1 h2
    rw [Memory.getElem_readBytes, Memory.get_writeBytes_inside _ _ _ _ h2]

theorem Memory.get_storeLE_outside (m : Memory) (a n v a' : Nat) (h : ¬ (a ≤ a' ∧ a' < a + n)) :
    (m.storeLE a n v).get a' = m.get a' := by
  rw [Memory.storeLE, Memory.get_writeBytes_outside _ _ _ _ (by simpa using h)]

theorem Memory.get_storeLE_inside (m : Memory) (a n v k : Nat) (h : k < n) :
    (m.storeLE a n v).get (a + k) = BitVec.ofNat 8 (v / 2 ^ (8 * k)) := by
  rw [Memory.storeLE, Memory.get_writeBytes_inside _ _ _ _ (by simpa using h), getElem_toLE]

theorem Memory.loadLE_storeLE (m : Memory) (a n v : Nat) : (m.storeLE a n v).loadLE a n = v % 256 ^ n := by
  have := Memory.readBytes_writeBytes m a (toLE n v)
  rw [length_toLE] at this
  rw [Memory.loadLE, Memory.storeLE, this, fromLE_toLE]

theorem Memory.loadLE_lt (m : Memory) (a n : Nat) : m.loadLE a n < 256 ^ n := by
  simpa [Memory.loadLE] using fromLE_lt (m.readBytes a n)

/-- Byte `k` of a value loaded from LMEM. -/
theorem Memory.loadLE_byte (m : Memory) (a n k : Nat) (h : k < n) :
    BitVec.ofNat 8 (m.loadLE a n / 2 ^ (8 * k)) = m.get (a + k) := by
  rw [Memory.loadLE, fromLE_byte _ _ (by simpa using h), Memory.getElem_readBytes]

/-! ## The canonical form -/

/-- Every address a list names is above the bound. -/
theorem Memory.wf_cons_iff (k : Nat) (b : Byte) (m : Memory) :
    Memory.wf ((k, b) :: m) = true ↔
      b ≠ Memory.unlisted ∧ (∀ c ∈ m, k < c.1) ∧ Memory.wf m = true := by
  induction m generalizing k b with
  | nil => simp [Memory.wf]
  | cons c m ih =>
    obtain ⟨k', b'⟩ := c
    have step : Memory.wf ((k, b) :: (k', b') :: m) = true ↔
        b ≠ Memory.unlisted ∧ k < k' ∧ Memory.wf ((k', b') :: m) = true := by
      simp [Memory.wf, and_assoc]
    rw [step]
    constructor
    · rintro ⟨hb, hk, hm⟩
      refine ⟨hb, ?_, hm⟩
      intro c hc
      rcases List.mem_cons.mp hc with rfl | hc
      · exact hk
      · exact Nat.lt_trans hk ((ih k' b').mp hm |>.2.1 c hc)
    · rintro ⟨hb, hk, hm⟩
      exact ⟨hb, hk (k', b') (List.mem_cons_self ..), hm⟩

theorem Memory.mem_drop {m : Memory} {a : Nat} {c : Host.Cell} (h : c ∈ m.drop a) : c ∈ m := by
  induction m with
  | nil => simp [Memory.drop] at h
  | cons d m ih =>
    obtain ⟨k, b⟩ := d
    by_cases hk : k = a
    · simp [Memory.drop, hk] at h; exact List.mem_cons_of_mem _ (ih h)
    · simp only [Memory.drop, hk, if_false] at h
      rcases List.mem_cons.mp h with rfl | h
      · exact List.mem_cons_self ..
      · exact List.mem_cons_of_mem _ (ih h)

theorem Memory.mem_put {m : Memory} {a : Nat} {v : Byte} {c : Host.Cell} (h : c ∈ m.put a v) :
    c = (a, v) ∨ c ∈ m := by
  induction m with
  | nil => simpa [Memory.put] using h
  | cons d m ih =>
    obtain ⟨k, b⟩ := d
    by_cases h1 : a < k
    · simp only [Memory.put, h1, if_true] at h
      exact List.mem_cons.mp h
    · by_cases h2 : k = a
      · subst h2
        simp only [Memory.put, Nat.lt_irrefl, if_false, if_true] at h
        exact (List.mem_cons.mp h).imp id (List.mem_cons_of_mem _)
      · simp only [Memory.put, h1, h2, if_false] at h
        rcases List.mem_cons.mp h with rfl | h
        · exact .inr (List.mem_cons_self ..)
        · exact (ih h).imp id (List.mem_cons_of_mem _)

theorem Memory.wf_drop (m : Memory) (a : Nat) (h : m.wf = true) : (m.drop a).wf = true := by
  induction m with
  | nil => rfl
  | cons d m ih =>
    obtain ⟨k, b⟩ := d
    obtain ⟨hb, hk, hm⟩ := (Memory.wf_cons_iff _ _ _).mp h
    by_cases hka : k = a
    · simpa [Memory.drop, hka] using ih hm
    · simp only [Memory.drop, hka, if_false]
      exact (Memory.wf_cons_iff _ _ _).mpr ⟨hb, fun c hc => hk c (Memory.mem_drop hc), ih hm⟩

theorem Memory.wf_put (m : Memory) (a : Nat) (v : Byte) (hv : v ≠ Memory.unlisted) (h : m.wf = true) :
    (m.put a v).wf = true := by
  induction m with
  | nil => simp [Memory.put, Memory.wf, hv]
  | cons d m ih =>
    obtain ⟨k, b⟩ := d
    obtain ⟨hb, hk, hm⟩ := (Memory.wf_cons_iff _ _ _).mp h
    by_cases h1 : a < k
    · simp only [Memory.put, h1, if_true]
      refine (Memory.wf_cons_iff _ _ _).mpr ⟨hv, ?_, h⟩
      intro c hc
      rcases List.mem_cons.mp hc with rfl | hc
      · exact h1
      · exact Nat.lt_trans h1 (hk c hc)
    · by_cases h2 : k = a
      · subst h2
        simp only [Memory.put, Nat.lt_irrefl, if_false, if_true]
        exact (Memory.wf_cons_iff _ _ _).mpr ⟨hv, hk, hm⟩
      · simp only [Memory.put, h1, h2, if_false]
        refine (Memory.wf_cons_iff _ _ _).mpr ⟨hb, ?_, ih hm⟩
        intro c hc
        rcases Memory.mem_put hc with rfl | hc
        · show k < a; omega
        · exact hk c hc

theorem Memory.wf_set (m : Memory) (a : Nat) (v : Byte) (h : m.wf = true) : (m.set a v).wf = true := by
  by_cases hv : v = Memory.unlisted
  · simpa [Memory.set, hv] using Memory.wf_drop m a h
  · simpa [Memory.set, hv] using Memory.wf_put m a v hv h

theorem Memory.wf_writeBytes (m : Memory) (a : Nat) (bs : List Byte) (h : m.wf = true) :
    (m.writeBytes a bs).wf = true := by
  induction bs generalizing m a with
  | nil => exact h
  | cons b bs ih => exact ih _ _ (Memory.wf_set m a b h)

theorem Memory.wf_storeLE (m : Memory) (a n v : Nat) (h : m.wf = true) : (m.storeLE a n v).wf = true :=
  Memory.wf_writeBytes m a _ h

theorem Memory.wf_ofCells (bound : Nat) (cs : List Host.Cell) : (Memory.ofCells bound cs).wf = true := by
  induction cs with
  | nil => rfl
  | cons c cs ih =>
    obtain ⟨k, b⟩ := c
    by_cases h : k < bound
    · simpa [Memory.ofCells, h] using Memory.wf_set _ k b ih
    · simpa [Memory.ofCells, h] using ih

theorem Memory.get_ofCells (bound : Nat) (cs : List Host.Cell) (a : Nat) :
    (Memory.ofCells bound cs).get a = if a < bound then Memory.get cs a else Memory.unlisted := by
  induction cs with
  | nil => simp [Memory.ofCells]
  | cons c cs ih =>
    obtain ⟨k, b⟩ := c
    by_cases h : k < bound
    · by_cases hk : k = a
      · subst hk; simp [Memory.ofCells, Memory.get, h]
      · simp only [Memory.ofCells, Memory.get, h, hk, if_true, if_false]
        rw [Memory.get_set_ne _ _ _ _ (fun e => hk e.symm), ih]
    · by_cases hk : k = a
      · subst hk; simp only [Memory.ofCells, h, if_false]; simp [ih, h]
      · simp only [Memory.ofCells, Memory.get, h, hk, if_false, ih]

/-! ## The bound -/

theorem Memory.below_iff (m : Memory) (bound : Nat) : m.below bound = true ↔ ∀ c ∈ m, c.1 < bound := by
  simp [Memory.below]

theorem Memory.below_set (m : Memory) (a : Nat) (v : Byte) (bound : Nat) (ha : a < bound)
    (h : m.below bound = true) : (m.set a v).below bound = true := by
  rw [Memory.below_iff] at h ⊢
  intro c hc
  by_cases hv : v = Memory.unlisted
  · simp only [Memory.set, hv, if_true] at hc
    exact h c (Memory.mem_drop hc)
  · simp only [Memory.set, hv, if_false] at hc
    rcases Memory.mem_put hc with rfl | hc
    · exact ha
    · exact h c hc

theorem Memory.below_writeBytes (m : Memory) (a : Nat) (bs : List Byte) (bound : Nat)
    (ha : a + bs.length ≤ bound) (h : m.below bound = true) : (m.writeBytes a bs).below bound = true := by
  induction bs generalizing m a with
  | nil => exact h
  | cons b bs ih =>
    simp only [List.length_cons] at ha
    exact ih _ _ (by omega) (Memory.below_set m a b bound (by omega) h)

theorem Memory.below_storeLE (m : Memory) (a n v bound : Nat) (ha : a + n ≤ bound)
    (h : m.below bound = true) : (m.storeLE a n v).below bound = true :=
  Memory.below_writeBytes m a _ bound (by simpa using ha) h

theorem Memory.below_ofCells (bound : Nat) (cs : List Host.Cell) : (Memory.ofCells bound cs).below bound = true := by
  induction cs with
  | nil => rfl
  | cons c cs ih =>
    obtain ⟨k, b⟩ := c
    by_cases h : k < bound
    · simpa [Memory.ofCells, h] using Memory.below_set _ k b bound h ih
    · simpa [Memory.ofCells, h] using ih

/-- A canonical memory lists nothing at an address it does not name. -/
theorem Memory.get_eq_unlisted (m : Memory) (a : Nat) (h : ∀ c ∈ m, c.1 ≠ a) : m.get a = Memory.unlisted := by
  induction m with
  | nil => rfl
  | cons c m ih =>
    obtain ⟨k, b⟩ := c
    have hk : k ≠ a := h (k, b) (List.mem_cons_self ..)
    simp only [Memory.get, hk, if_false]
    exact ih fun c hc => h c (List.mem_cons_of_mem _ hc)

theorem reset_memory_wf : State.reset.lmem.wf = true := rfl

end Sys2Proof.Machine
end

