-- ==== Sys2Proof/Laws/State.lean ====
section
/-! SUPPORT. What each named update does to each field of the state, and to each register: true by definition. -/

namespace Sys2Proof.Machine

/-! ## setX -/

@[simp] theorem State.setX_cfg (s : State) (r : XReg) (v : Word64) : (s.setX r v).cfg = s.cfg := rfl
@[simp] theorem State.setX_xregs (s : State) (r : XReg) (v : Word64) : (s.setX r v).xregs = s.xregs.set r v := rfl
@[simp] theorem State.setX_z (s : State) (r : XReg) (v : Word64) : (s.setX r v).z = s.z := rfl
@[simp] theorem State.setX_cp (s : State) (r : XReg) (v : Word64) : (s.setX r v).cp = s.cp := rfl
@[simp] theorem State.setX_nregs (s : State) (r : XReg) (v : Word64) : (s.setX r v).nregs = s.nregs := rfl
@[simp] theorem State.setX_run (s : State) (r : XReg) (v : Word64) : (s.setX r v).run = s.run := rfl
@[simp] theorem State.setX_errcode (s : State) (r : XReg) (v : Word64) : (s.setX r v).errcode = s.errcode := rfl
@[simp] theorem State.setX_errcp (s : State) (r : XReg) (v : Word64) : (s.setX r v).errcp = s.errcp := rfl
@[simp] theorem State.setX_errcmd (s : State) (r : XReg) (v : Word64) : (s.setX r v).errcmd = s.errcmd := rfl
@[simp] theorem State.setX_abortReq (s : State) (r : XReg) (v : Word64) : (s.setX r v).abortReq = s.abortReq := rfl
@[simp] theorem State.setX_irq (s : State) (r : XReg) (v : Word64) : (s.setX r v).irq = s.irq := rfl
@[simp] theorem State.setX_irqEn (s : State) (r : XReg) (v : Word64) : (s.setX r v).irqEn = s.irqEn := rfl
@[simp] theorem State.setX_hostErr (s : State) (r : XReg) (v : Word64) : (s.setX r v).hostErr = s.hostErr := rfl
@[simp] theorem State.setX_he (s : State) (r : XReg) (v : Word64) : (s.setX r v).he = s.he := rfl
@[simp] theorem State.setX_lmem (s : State) (r : XReg) (v : Word64) : (s.setX r v).lmem = s.lmem := rfl
@[simp] theorem State.setX_turns (s : State) (r : XReg) (v : Word64) : (s.setX r v).turns = s.turns := rfl
@[simp] theorem State.setX_readData (s : State) (r : XReg) (v : Word64) : (s.setX r v).readData = s.readData := rfl
@[simp] theorem State.n_setX (s : State) (r : XReg) (v : Word64) (k : NReg) : (s.setX r v).n k = s.n k := rfl

/-! ## setN -/

@[simp] theorem State.setN_cfg (s : State) (r : NReg) (v : Number) : (s.setN r v).cfg = s.cfg := rfl
@[simp] theorem State.setN_xregs (s : State) (r : NReg) (v : Number) : (s.setN r v).xregs = s.xregs := rfl
@[simp] theorem State.setN_z (s : State) (r : NReg) (v : Number) : (s.setN r v).z = s.z := rfl
@[simp] theorem State.setN_cp (s : State) (r : NReg) (v : Number) : (s.setN r v).cp = s.cp := rfl
@[simp] theorem State.setN_nregs (s : State) (r : NReg) (v : Number) : (s.setN r v).nregs = s.nregs.set r v := rfl
@[simp] theorem State.setN_run (s : State) (r : NReg) (v : Number) : (s.setN r v).run = s.run := rfl
@[simp] theorem State.setN_errcode (s : State) (r : NReg) (v : Number) : (s.setN r v).errcode = s.errcode := rfl
@[simp] theorem State.setN_errcp (s : State) (r : NReg) (v : Number) : (s.setN r v).errcp = s.errcp := rfl
@[simp] theorem State.setN_errcmd (s : State) (r : NReg) (v : Number) : (s.setN r v).errcmd = s.errcmd := rfl
@[simp] theorem State.setN_abortReq (s : State) (r : NReg) (v : Number) : (s.setN r v).abortReq = s.abortReq := rfl
@[simp] theorem State.setN_irq (s : State) (r : NReg) (v : Number) : (s.setN r v).irq = s.irq := rfl
@[simp] theorem State.setN_irqEn (s : State) (r : NReg) (v : Number) : (s.setN r v).irqEn = s.irqEn := rfl
@[simp] theorem State.setN_hostErr (s : State) (r : NReg) (v : Number) : (s.setN r v).hostErr = s.hostErr := rfl
@[simp] theorem State.setN_he (s : State) (r : NReg) (v : Number) : (s.setN r v).he = s.he := rfl
@[simp] theorem State.setN_lmem (s : State) (r : NReg) (v : Number) : (s.setN r v).lmem = s.lmem := rfl
@[simp] theorem State.setN_turns (s : State) (r : NReg) (v : Number) : (s.setN r v).turns = s.turns := rfl
@[simp] theorem State.setN_readData (s : State) (r : NReg) (v : Number) : (s.setN r v).readData = s.readData := rfl
@[simp] theorem State.x_setN (s : State) (r : NReg) (v : Number) (k : XReg) : (s.setN r v).x k = s.x k := rfl

/-! ## setZ -/

@[simp] theorem State.setZ_cfg (s : State) (b : Bool) : (s.setZ b).cfg = s.cfg := rfl
@[simp] theorem State.setZ_xregs (s : State) (b : Bool) : (s.setZ b).xregs = s.xregs := rfl
@[simp] theorem State.setZ_z (s : State) (b : Bool) : (s.setZ b).z = b := rfl
@[simp] theorem State.setZ_cp (s : State) (b : Bool) : (s.setZ b).cp = s.cp := rfl
@[simp] theorem State.setZ_nregs (s : State) (b : Bool) : (s.setZ b).nregs = s.nregs := rfl
@[simp] theorem State.setZ_run (s : State) (b : Bool) : (s.setZ b).run = s.run := rfl
@[simp] theorem State.setZ_errcode (s : State) (b : Bool) : (s.setZ b).errcode = s.errcode := rfl
@[simp] theorem State.setZ_errcp (s : State) (b : Bool) : (s.setZ b).errcp = s.errcp := rfl
@[simp] theorem State.setZ_errcmd (s : State) (b : Bool) : (s.setZ b).errcmd = s.errcmd := rfl
@[simp] theorem State.setZ_abortReq (s : State) (b : Bool) : (s.setZ b).abortReq = s.abortReq := rfl
@[simp] theorem State.setZ_irq (s : State) (b : Bool) : (s.setZ b).irq = s.irq := rfl
@[simp] theorem State.setZ_irqEn (s : State) (b : Bool) : (s.setZ b).irqEn = s.irqEn := rfl
@[simp] theorem State.setZ_hostErr (s : State) (b : Bool) : (s.setZ b).hostErr = s.hostErr := rfl
@[simp] theorem State.setZ_he (s : State) (b : Bool) : (s.setZ b).he = s.he := rfl
@[simp] theorem State.setZ_lmem (s : State) (b : Bool) : (s.setZ b).lmem = s.lmem := rfl
@[simp] theorem State.setZ_turns (s : State) (b : Bool) : (s.setZ b).turns = s.turns := rfl
@[simp] theorem State.setZ_readData (s : State) (b : Bool) : (s.setZ b).readData = s.readData := rfl
@[simp] theorem State.x_setZ (s : State) (b : Bool) (k : XReg) : (s.setZ b).x k = s.x k := rfl
@[simp] theorem State.n_setZ (s : State) (b : Bool) (k : NReg) : (s.setZ b).n k = s.n k := rfl

/-! ## setCp -/

@[simp] theorem State.setCp_cfg (s : State) (v : Word32) : (s.setCp v).cfg = s.cfg := rfl
@[simp] theorem State.setCp_xregs (s : State) (v : Word32) : (s.setCp v).xregs = s.xregs := rfl
@[simp] theorem State.setCp_z (s : State) (v : Word32) : (s.setCp v).z = s.z := rfl
@[simp] theorem State.setCp_cp (s : State) (v : Word32) : (s.setCp v).cp = v := rfl
@[simp] theorem State.setCp_nregs (s : State) (v : Word32) : (s.setCp v).nregs = s.nregs := rfl
@[simp] theorem State.setCp_run (s : State) (v : Word32) : (s.setCp v).run = s.run := rfl
@[simp] theorem State.setCp_errcode (s : State) (v : Word32) : (s.setCp v).errcode = s.errcode := rfl
@[simp] theorem State.setCp_errcp (s : State) (v : Word32) : (s.setCp v).errcp = s.errcp := rfl
@[simp] theorem State.setCp_errcmd (s : State) (v : Word32) : (s.setCp v).errcmd = s.errcmd := rfl
@[simp] theorem State.setCp_abortReq (s : State) (v : Word32) : (s.setCp v).abortReq = s.abortReq := rfl
@[simp] theorem State.setCp_irq (s : State) (v : Word32) : (s.setCp v).irq = s.irq := rfl
@[simp] theorem State.setCp_irqEn (s : State) (v : Word32) : (s.setCp v).irqEn = s.irqEn := rfl
@[simp] theorem State.setCp_hostErr (s : State) (v : Word32) : (s.setCp v).hostErr = s.hostErr := rfl
@[simp] theorem State.setCp_he (s : State) (v : Word32) : (s.setCp v).he = s.he := rfl
@[simp] theorem State.setCp_lmem (s : State) (v : Word32) : (s.setCp v).lmem = s.lmem := rfl
@[simp] theorem State.setCp_turns (s : State) (v : Word32) : (s.setCp v).turns = s.turns := rfl
@[simp] theorem State.setCp_readData (s : State) (v : Word32) : (s.setCp v).readData = s.readData := rfl
@[simp] theorem State.x_setCp (s : State) (v : Word32) (k : XReg) : (s.setCp v).x k = s.x k := rfl
@[simp] theorem State.n_setCp (s : State) (v : Word32) (k : NReg) : (s.setCp v).n k = s.n k := rfl

/-! ## advance -/

@[simp] theorem State.advance_cfg (s : State) : (s.advance).cfg = s.cfg := rfl
@[simp] theorem State.advance_xregs (s : State) : (s.advance).xregs = s.xregs := rfl
@[simp] theorem State.advance_z (s : State) : (s.advance).z = s.z := rfl
@[simp] theorem State.advance_cp (s : State) : (s.advance).cp = s.cp + 4 := rfl
@[simp] theorem State.advance_nregs (s : State) : (s.advance).nregs = s.nregs := rfl
@[simp] theorem State.advance_run (s : State) : (s.advance).run = s.run := rfl
@[simp] theorem State.advance_errcode (s : State) : (s.advance).errcode = s.errcode := rfl
@[simp] theorem State.advance_errcp (s : State) : (s.advance).errcp = s.errcp := rfl
@[simp] theorem State.advance_errcmd (s : State) : (s.advance).errcmd = s.errcmd := rfl
@[simp] theorem State.advance_abortReq (s : State) : (s.advance).abortReq = s.abortReq := rfl
@[simp] theorem State.advance_irq (s : State) : (s.advance).irq = s.irq := rfl
@[simp] theorem State.advance_irqEn (s : State) : (s.advance).irqEn = s.irqEn := rfl
@[simp] theorem State.advance_hostErr (s : State) : (s.advance).hostErr = s.hostErr := rfl
@[simp] theorem State.advance_he (s : State) : (s.advance).he = s.he := rfl
@[simp] theorem State.advance_lmem (s : State) : (s.advance).lmem = s.lmem := rfl
@[simp] theorem State.advance_turns (s : State) : (s.advance).turns = s.turns := rfl
@[simp] theorem State.advance_readData (s : State) : (s.advance).readData = s.readData := rfl
@[simp] theorem State.x_advance (s : State) (k : XReg) : (s.advance).x k = s.x k := rfl
@[simp] theorem State.n_advance (s : State) (k : NReg) : (s.advance).n k = s.n k := rfl

/-! ## setHe -/

@[simp] theorem State.setHe_cfg (s : State) (c : HashCtx) : (s.setHe c).cfg = s.cfg := rfl
@[simp] theorem State.setHe_xregs (s : State) (c : HashCtx) : (s.setHe c).xregs = s.xregs := rfl
@[simp] theorem State.setHe_z (s : State) (c : HashCtx) : (s.setHe c).z = s.z := rfl
@[simp] theorem State.setHe_cp (s : State) (c : HashCtx) : (s.setHe c).cp = s.cp := rfl
@[simp] theorem State.setHe_nregs (s : State) (c : HashCtx) : (s.setHe c).nregs = s.nregs := rfl
@[simp] theorem State.setHe_run (s : State) (c : HashCtx) : (s.setHe c).run = s.run := rfl
@[simp] theorem State.setHe_errcode (s : State) (c : HashCtx) : (s.setHe c).errcode = s.errcode := rfl
@[simp] theorem State.setHe_errcp (s : State) (c : HashCtx) : (s.setHe c).errcp = s.errcp := rfl
@[simp] theorem State.setHe_errcmd (s : State) (c : HashCtx) : (s.setHe c).errcmd = s.errcmd := rfl
@[simp] theorem State.setHe_abortReq (s : State) (c : HashCtx) : (s.setHe c).abortReq = s.abortReq := rfl
@[simp] theorem State.setHe_irq (s : State) (c : HashCtx) : (s.setHe c).irq = s.irq := rfl
@[simp] theorem State.setHe_irqEn (s : State) (c : HashCtx) : (s.setHe c).irqEn = s.irqEn := rfl
@[simp] theorem State.setHe_hostErr (s : State) (c : HashCtx) : (s.setHe c).hostErr = s.hostErr := rfl
@[simp] theorem State.setHe_he (s : State) (c : HashCtx) : (s.setHe c).he = c := rfl
@[simp] theorem State.setHe_lmem (s : State) (c : HashCtx) : (s.setHe c).lmem = s.lmem := rfl
@[simp] theorem State.setHe_turns (s : State) (c : HashCtx) : (s.setHe c).turns = s.turns := rfl
@[simp] theorem State.setHe_readData (s : State) (c : HashCtx) : (s.setHe c).readData = s.readData := rfl
@[simp] theorem State.x_setHe (s : State) (c : HashCtx) (k : XReg) : (s.setHe c).x k = s.x k := rfl
@[simp] theorem State.n_setHe (s : State) (c : HashCtx) (k : NReg) : (s.setHe c).n k = s.n k := rfl

/-! ## setLmem -/

@[simp] theorem State.setLmem_cfg (s : State) (m : Memory) : (s.setLmem m).cfg = s.cfg := rfl
@[simp] theorem State.setLmem_xregs (s : State) (m : Memory) : (s.setLmem m).xregs = s.xregs := rfl
@[simp] theorem State.setLmem_z (s : State) (m : Memory) : (s.setLmem m).z = s.z := rfl
@[simp] theorem State.setLmem_cp (s : State) (m : Memory) : (s.setLmem m).cp = s.cp := rfl
@[simp] theorem State.setLmem_nregs (s : State) (m : Memory) : (s.setLmem m).nregs = s.nregs := rfl
@[simp] theorem State.setLmem_run (s : State) (m : Memory) : (s.setLmem m).run = s.run := rfl
@[simp] theorem State.setLmem_errcode (s : State) (m : Memory) : (s.setLmem m).errcode = s.errcode := rfl
@[simp] theorem State.setLmem_errcp (s : State) (m : Memory) : (s.setLmem m).errcp = s.errcp := rfl
@[simp] theorem State.setLmem_errcmd (s : State) (m : Memory) : (s.setLmem m).errcmd = s.errcmd := rfl
@[simp] theorem State.setLmem_abortReq (s : State) (m : Memory) : (s.setLmem m).abortReq = s.abortReq := rfl
@[simp] theorem State.setLmem_irq (s : State) (m : Memory) : (s.setLmem m).irq = s.irq := rfl
@[simp] theorem State.setLmem_irqEn (s : State) (m : Memory) : (s.setLmem m).irqEn = s.irqEn := rfl
@[simp] theorem State.setLmem_hostErr (s : State) (m : Memory) : (s.setLmem m).hostErr = s.hostErr := rfl
@[simp] theorem State.setLmem_he (s : State) (m : Memory) : (s.setLmem m).he = s.he := rfl
@[simp] theorem State.setLmem_lmem (s : State) (m : Memory) : (s.setLmem m).lmem = m := rfl
@[simp] theorem State.setLmem_turns (s : State) (m : Memory) : (s.setLmem m).turns = s.turns := rfl
@[simp] theorem State.setLmem_readData (s : State) (m : Memory) : (s.setLmem m).readData = s.readData := rfl
@[simp] theorem State.x_setLmem (s : State) (m : Memory) (k : XReg) : (s.setLmem m).x k = s.x k := rfl
@[simp] theorem State.n_setLmem (s : State) (m : Memory) (k : NReg) : (s.setLmem m).n k = s.n k := rfl

/-! ## setTurns -/

@[simp] theorem State.setTurns_cfg (s : State) (rest : List Turn) : (s.setTurns rest).cfg = s.cfg := rfl
@[simp] theorem State.setTurns_xregs (s : State) (rest : List Turn) : (s.setTurns rest).xregs = s.xregs := rfl
@[simp] theorem State.setTurns_z (s : State) (rest : List Turn) : (s.setTurns rest).z = s.z := rfl
@[simp] theorem State.setTurns_cp (s : State) (rest : List Turn) : (s.setTurns rest).cp = s.cp := rfl
@[simp] theorem State.setTurns_nregs (s : State) (rest : List Turn) : (s.setTurns rest).nregs = s.nregs := rfl
@[simp] theorem State.setTurns_run (s : State) (rest : List Turn) : (s.setTurns rest).run = s.run := rfl
@[simp] theorem State.setTurns_errcode (s : State) (rest : List Turn) : (s.setTurns rest).errcode = s.errcode := rfl
@[simp] theorem State.setTurns_errcp (s : State) (rest : List Turn) : (s.setTurns rest).errcp = s.errcp := rfl
@[simp] theorem State.setTurns_errcmd (s : State) (rest : List Turn) : (s.setTurns rest).errcmd = s.errcmd := rfl
@[simp] theorem State.setTurns_abortReq (s : State) (rest : List Turn) : (s.setTurns rest).abortReq = s.abortReq := rfl
@[simp] theorem State.setTurns_irq (s : State) (rest : List Turn) : (s.setTurns rest).irq = s.irq := rfl
@[simp] theorem State.setTurns_irqEn (s : State) (rest : List Turn) : (s.setTurns rest).irqEn = s.irqEn := rfl
@[simp] theorem State.setTurns_hostErr (s : State) (rest : List Turn) : (s.setTurns rest).hostErr = s.hostErr := rfl
@[simp] theorem State.setTurns_he (s : State) (rest : List Turn) : (s.setTurns rest).he = s.he := rfl
@[simp] theorem State.setTurns_lmem (s : State) (rest : List Turn) : (s.setTurns rest).lmem = s.lmem := rfl
@[simp] theorem State.setTurns_turns (s : State) (rest : List Turn) : (s.setTurns rest).turns = rest := rfl
@[simp] theorem State.setTurns_readData (s : State) (rest : List Turn) : (s.setTurns rest).readData = s.readData := rfl
@[simp] theorem State.x_setTurns (s : State) (rest : List Turn) (k : XReg) : (s.setTurns rest).x k = s.x k := rfl
@[simp] theorem State.n_setTurns (s : State) (rest : List Turn) (k : NReg) : (s.setTurns rest).n k = s.n k := rfl

/-! ## errorEntry -/

@[simp] theorem State.errorEntry_cfg (s : State) (code : ErrCode) (ecp ecmd : Word32) : (s.errorEntry code ecp ecmd).cfg = s.cfg := rfl
@[simp] theorem State.errorEntry_xregs (s : State) (code : ErrCode) (ecp ecmd : Word32) : (s.errorEntry code ecp ecmd).xregs = s.xregs := rfl
@[simp] theorem State.errorEntry_z (s : State) (code : ErrCode) (ecp ecmd : Word32) : (s.errorEntry code ecp ecmd).z = s.z := rfl
@[simp] theorem State.errorEntry_cp (s : State) (code : ErrCode) (ecp ecmd : Word32) : (s.errorEntry code ecp ecmd).cp = ecp := rfl
@[simp] theorem State.errorEntry_nregs (s : State) (code : ErrCode) (ecp ecmd : Word32) : (s.errorEntry code ecp ecmd).nregs = s.nregs := rfl
@[simp] theorem State.errorEntry_run (s : State) (code : ErrCode) (ecp ecmd : Word32) : (s.errorEntry code ecp ecmd).run = .error := rfl
@[simp] theorem State.errorEntry_errcode (s : State) (code : ErrCode) (ecp ecmd : Word32) : (s.errorEntry code ecp ecmd).errcode = code := rfl
@[simp] theorem State.errorEntry_errcp (s : State) (code : ErrCode) (ecp ecmd : Word32) : (s.errorEntry code ecp ecmd).errcp = ecp := rfl
@[simp] theorem State.errorEntry_errcmd (s : State) (code : ErrCode) (ecp ecmd : Word32) : (s.errorEntry code ecp ecmd).errcmd = ecmd := rfl
@[simp] theorem State.errorEntry_abortReq (s : State) (code : ErrCode) (ecp ecmd : Word32) : (s.errorEntry code ecp ecmd).abortReq = s.abortReq := rfl
@[simp] theorem State.errorEntry_irq (s : State) (code : ErrCode) (ecp ecmd : Word32) : (s.errorEntry code ecp ecmd).irq = true := rfl
@[simp] theorem State.errorEntry_irqEn (s : State) (code : ErrCode) (ecp ecmd : Word32) : (s.errorEntry code ecp ecmd).irqEn = s.irqEn := rfl
@[simp] theorem State.errorEntry_hostErr (s : State) (code : ErrCode) (ecp ecmd : Word32) : (s.errorEntry code ecp ecmd).hostErr = s.hostErr := rfl
@[simp] theorem State.errorEntry_he (s : State) (code : ErrCode) (ecp ecmd : Word32) : (s.errorEntry code ecp ecmd).he = s.he := rfl
@[simp] theorem State.errorEntry_lmem (s : State) (code : ErrCode) (ecp ecmd : Word32) : (s.errorEntry code ecp ecmd).lmem = s.lmem := rfl
@[simp] theorem State.errorEntry_turns (s : State) (code : ErrCode) (ecp ecmd : Word32) : (s.errorEntry code ecp ecmd).turns = s.turns := rfl
@[simp] theorem State.errorEntry_readData (s : State) (code : ErrCode) (ecp ecmd : Word32) : (s.errorEntry code ecp ecmd).readData = s.readData := rfl
@[simp] theorem State.x_errorEntry (s : State) (code : ErrCode) (ecp ecmd : Word32) (k : XReg) : (s.errorEntry code ecp ecmd).x k = s.x k := rfl
@[simp] theorem State.n_errorEntry (s : State) (code : ErrCode) (ecp ecmd : Word32) (k : NReg) : (s.errorEntry code ecp ecmd).n k = s.n k := rfl

/-! ## halt -/

@[simp] theorem State.halt_cfg (s : State) : (s.halt).cfg = s.cfg := rfl
@[simp] theorem State.halt_xregs (s : State) : (s.halt).xregs = s.xregs := rfl
@[simp] theorem State.halt_z (s : State) : (s.halt).z = s.z := rfl
@[simp] theorem State.halt_cp (s : State) : (s.halt).cp = s.cp := rfl
@[simp] theorem State.halt_nregs (s : State) : (s.halt).nregs = s.nregs := rfl
@[simp] theorem State.halt_run (s : State) : (s.halt).run = .halted := rfl
@[simp] theorem State.halt_errcode (s : State) : (s.halt).errcode = s.errcode := rfl
@[simp] theorem State.halt_errcp (s : State) : (s.halt).errcp = s.errcp := rfl
@[simp] theorem State.halt_errcmd (s : State) : (s.halt).errcmd = s.errcmd := rfl
@[simp] theorem State.halt_abortReq (s : State) : (s.halt).abortReq = s.abortReq := rfl
@[simp] theorem State.halt_irq (s : State) : (s.halt).irq = true := rfl
@[simp] theorem State.halt_irqEn (s : State) : (s.halt).irqEn = s.irqEn := rfl
@[simp] theorem State.halt_hostErr (s : State) : (s.halt).hostErr = s.hostErr := rfl
@[simp] theorem State.halt_he (s : State) : (s.halt).he = s.he := rfl
@[simp] theorem State.halt_lmem (s : State) : (s.halt).lmem = s.lmem := rfl
@[simp] theorem State.halt_turns (s : State) : (s.halt).turns = s.turns := rfl
@[simp] theorem State.halt_readData (s : State) : (s.halt).readData = s.readData := rfl
@[simp] theorem State.x_halt (s : State) (k : XReg) : (s.halt).x k = s.x k := rfl
@[simp] theorem State.n_halt (s : State) (k : NReg) : (s.halt).n k = s.n k := rfl

/-! ## Registers read back -/

@[simp] theorem State.x_setX_self (s : State) (r : XReg) (v : Word64) : (s.setX r v).x r = v := by
  simp [State.x]

theorem State.x_setX_ne (s : State) (r k : XReg) (v : Word64) (h : k ≠ r) : (s.setX r v).x k = s.x k := by
  have : r.val ≠ k.val := fun e => h (Fin.ext e.symm)
  simp [State.x, Vector.getElem_set_ne, this]

@[simp] theorem State.n_setN_self (s : State) (r : NReg) (v : Number) : (s.setN r v).n r = v := by
  simp [State.n]

theorem State.n_setN_ne (s : State) (r k : NReg) (v : Number) (h : k ≠ r) : (s.setN r v).n k = s.n k := by
  have : r.val ≠ k.val := fun e => h (Fin.ext e.symm)
  simp [State.n, Vector.getElem_set_ne, this]

/-! ## Resets, START and ABORT -/

@[simp] theorem State.softReset_cfg (s : State) : s.softReset.cfg = s.cfg := rfl
@[simp] theorem State.softReset_xregs (s : State) : s.softReset.xregs = Vector.replicate 16 0 := rfl
@[simp] theorem State.softReset_z (s : State) : s.softReset.z = false := rfl
@[simp] theorem State.softReset_cp (s : State) : s.softReset.cp = 0 := rfl
@[simp] theorem State.softReset_nregs (s : State) : s.softReset.nregs = Vector.replicate 4 0 := rfl
@[simp] theorem State.softReset_run (s : State) : s.softReset.run = .idle := rfl
@[simp] theorem State.softReset_errcode (s : State) : s.softReset.errcode = .none := rfl
@[simp] theorem State.softReset_errcp (s : State) : s.softReset.errcp = 0 := rfl
@[simp] theorem State.softReset_errcmd (s : State) : s.softReset.errcmd = 0 := rfl
@[simp] theorem State.softReset_abortReq (s : State) : s.softReset.abortReq = false := rfl
@[simp] theorem State.softReset_irq (s : State) : s.softReset.irq = false := rfl
@[simp] theorem State.softReset_irqEn (s : State) : s.softReset.irqEn = false := rfl
@[simp] theorem State.softReset_hostErr (s : State) : s.softReset.hostErr = false := rfl
@[simp] theorem State.softReset_he (s : State) : s.softReset.he = .wiped := rfl
@[simp] theorem State.softReset_lmem (s : State) : s.softReset.lmem = s.lmem := rfl
@[simp] theorem State.softReset_turns (s : State) : s.softReset.turns = s.turns := rfl
@[simp] theorem State.softReset_readData (s : State) : s.softReset.readData = s.readData := rfl

@[simp] theorem State.powerOn_cfg (s : State) (m : List Host.Cell) : (s.powerOn m).cfg = s.cfg := rfl
@[simp] theorem State.powerOn_xregs (s : State) (m : List Host.Cell) : (s.powerOn m).xregs = Vector.replicate 16 0 := rfl
@[simp] theorem State.powerOn_z (s : State) (m : List Host.Cell) : (s.powerOn m).z = false := rfl
@[simp] theorem State.powerOn_cp (s : State) (m : List Host.Cell) : (s.powerOn m).cp = 0 := rfl
@[simp] theorem State.powerOn_nregs (s : State) (m : List Host.Cell) : (s.powerOn m).nregs = Vector.replicate 4 0 := rfl
@[simp] theorem State.powerOn_run (s : State) (m : List Host.Cell) : (s.powerOn m).run = .idle := rfl
@[simp] theorem State.powerOn_errcode (s : State) (m : List Host.Cell) : (s.powerOn m).errcode = .none := rfl
@[simp] theorem State.powerOn_errcp (s : State) (m : List Host.Cell) : (s.powerOn m).errcp = 0 := rfl
@[simp] theorem State.powerOn_errcmd (s : State) (m : List Host.Cell) : (s.powerOn m).errcmd = 0 := rfl
@[simp] theorem State.powerOn_abortReq (s : State) (m : List Host.Cell) : (s.powerOn m).abortReq = false := rfl
@[simp] theorem State.powerOn_irq (s : State) (m : List Host.Cell) : (s.powerOn m).irq = false := rfl
@[simp] theorem State.powerOn_irqEn (s : State) (m : List Host.Cell) : (s.powerOn m).irqEn = false := rfl
@[simp] theorem State.powerOn_hostErr (s : State) (m : List Host.Cell) : (s.powerOn m).hostErr = false := rfl
@[simp] theorem State.powerOn_he (s : State) (m : List Host.Cell) : (s.powerOn m).he = .wiped := rfl
@[simp] theorem State.powerOn_lmem (s : State) (m : List Host.Cell) : (s.powerOn m).lmem = Memory.ofCells s.cfg.lmemBytes m := rfl
@[simp] theorem State.powerOn_turns (s : State) (m : List Host.Cell) : (s.powerOn m).turns = s.turns := rfl
@[simp] theorem State.powerOn_readData (s : State) (m : List Host.Cell) : (s.powerOn m).readData = s.readData := rfl

theorem State.start_running (s : State) (h : s.run = .running) : s.start = s := by
  simp [State.start, h]

theorem State.start_stopped (s : State) (h : s.run ≠ .running) :
    s.start = { s with errcode := .none, abortReq := false, run := .running } := by
  cases hr : s.run <;> simp_all [State.start]

theorem State.requestAbort_running (s : State) (h : s.run = .running) :
    s.requestAbort = { s with abortReq := true } := by
  simp [State.requestAbort, h]

theorem State.requestAbort_stopped (s : State) (h : s.run ≠ .running) : s.requestAbort = s := by
  cases hr : s.run <;> simp_all [State.requestAbort]

/-! ## The state that fetches a given word -/

@[simp] theorem State.readyToFetch_cfg (s : State) : s.readyToFetch.cfg = s.cfg := rfl
@[simp] theorem State.readyToFetch_run (s : State) : s.readyToFetch.run = .running := rfl
@[simp] theorem State.readyToFetch_abortReq (s : State) : s.readyToFetch.abortReq = false := rfl
@[simp] theorem State.readyToFetch_turns (s : State) : s.readyToFetch.turns = [] := rfl
@[simp] theorem State.readyToFetch_lmem (s : State) : s.readyToFetch.lmem = s.lmem := rfl

theorem State.placeWord_eq (s : State) (c : Word32) :
    s.placeWord c = s.setLmem (s.lmem.writeBytes s.cp.toNat (bytesOfWord c)) := rfl

end Sys2Proof.Machine
end

