-- ==== Sys2Proof/Laws/Ops.lean ====
section
/-! SUPPORT. One lemma for each shared operation of the meanings: everything it can answer. -/

namespace Sys2Proof.Machine

@[simp] theorem complete_eq (s : State) : complete s = .next s.advance := rfl

@[simp] theorem raise_eq (code : ErrCode) (i : Instr) (s : State) :
    raise code i s = .next (s.errorEntry code s.cp (encode i)) := rfl

theorem complete_next {s t : State} (h : complete s = .next t) : t = s.advance := by
  cases h; rfl

theorem raise_next {code : ErrCode} {i : Instr} {s t : State} (h : raise code i s = .next t) :
    t = s.errorEntry code s.cp (encode i) := by
  cases h; rfl

/-- A load completes with the bytes at EA, or takes DATA_FAULT. -/
theorem loadX_cases {n : Nat} {i : Instr} {rd ra : XReg} {imm : BitVec 16} {s t : State}
    (h : loadX n i rd ra imm s = .next t) :
    (s.inRange (effAddr s ra imm) n ∧
      t = (s.setX rd (BitVec.ofNat 64 (s.lmem.loadLE (effAddr s ra imm) n))).advance) ∨
    (¬ s.inRange (effAddr s ra imm) n ∧ t = s.errorEntry .dataFault s.cp (encode i)) := by
  unfold loadX at h
  split at h
  · exact .inl ⟨‹_›, complete_next h⟩
  · exact .inr ⟨‹_›, raise_next h⟩

/-- A store completes with the bytes at EA written, or takes DATA_FAULT. -/
theorem storeX_cases {n : Nat} {i : Instr} {rs ra : XReg} {imm : BitVec 16} {s t : State}
    (h : storeX n i rs ra imm s = .next t) :
    (s.inRange (effAddr s ra imm) n ∧
      t = (s.setLmem (s.lmem.storeLE (effAddr s ra imm) n (s.x rs).toNat)).advance) ∨
    (¬ s.inRange (effAddr s ra imm) n ∧ t = s.errorEntry .dataFault s.cp (encode i)) := by
  unfold storeX at h
  split at h
  · exact .inl ⟨‹_›, complete_next h⟩
  · exact .inr ⟨‹_›, raise_next h⟩

theorem wordOp1_eq (w : Width) (f : BitVec w.bits → BitVec w.bits) (rd ra : XReg) (s : State) :
    wordOp1 w f rd ra s = .next (s.setX rd ((f (wordOperand w s ra)).setWidth 64)).advance := rfl

theorem wordOp2_eq (w : Width) (f : BitVec w.bits → BitVec w.bits → BitVec w.bits) (rd ra rb : XReg) (s : State) :
    wordOp2 w f rd ra rb s =
      .next (s.setX rd ((f (wordOperand w s ra) (wordOperand w s rb)).setWidth 64)).advance := rfl

theorem wordOp3_eq (w : Width) (f : BitVec w.bits → BitVec w.bits → BitVec w.bits → BitVec w.bits)
    (rd ra rb rc : XReg) (s : State) :
    wordOp3 w f rd ra rb rc s =
      .next (s.setX rd ((f (wordOperand w s ra) (wordOperand w s rb) (wordOperand w s rc)).setWidth 64)).advance := rfl

theorem writeNumber_eq (sz : SizeCode) (s : State) (rd : NReg) (r : Nat) :
    writeNumber sz s rd r = s.setN rd (BitVec.ofNat 512 (r % 2 ^ sizeBits sz)) := rfl

theorem sizeBits_le (sz : SizeCode) : sizeBits sz ≤ 512 := by
  have := sz.isLt; simp only [sizeBits]; omega

theorem sizeBits_eq_bytes (sz : SizeCode) : sizeBits sz = 8 * sizeBytes sz := by
  simp only [sizeBits, sizeBytes]; omega

/-- A SIZE-bit value fits a number register. -/
theorem mod_size_lt (sz : SizeCode) (r : Nat) : r % 2 ^ sizeBits sz < 2 ^ 512 :=
  Nat.lt_of_lt_of_le (Nat.mod_lt _ (Nat.two_pow_pos _)) (Nat.pow_le_pow_right (by decide) (sizeBits_le sz))

theorem toNat_ofNat_size (sz : SizeCode) (r : Nat) :
    (BitVec.ofNat 512 (r % 2 ^ sizeBits sz)).toNat = r % 2 ^ sizeBits sz := by
  rw [BitVec.toNat_ofNat, Nat.mod_eq_of_lt (mod_size_lt sz r)]

theorem numberValue_lt (sz : SizeCode) (s : State) (r : NReg) : numberValue sz s r < 2 ^ sizeBits sz :=
  Nat.mod_lt _ (Nat.two_pow_pos _)

/-! ## Steps -/

@[simp] theorem canFetch_setTurns (s : State) (rest : List Turn) : (s.setTurns rest).canFetch ↔ s.canFetch := Iff.rfl
@[simp] theorem fetchBytes_setTurns (s : State) (rest : List Turn) : (s.setTurns rest).fetchBytes = s.fetchBytes := rfl
@[simp] theorem fetchWord_setTurns (s : State) (rest : List Turn) : (s.setTurns rest).fetchWord = s.fetchWord := rfl

theorem step_no_turns (s : State) (h : s.turns = []) : step s = sequencerTurn s := by
  simp [step, h]

theorem step_sequencer (s : State) (rest : List Turn) (h : s.turns = .sequencer :: rest) :
    step s = sequencerTurn (s.setTurns rest) := by
  simp [step, h]

theorem step_host (s : State) (a : HostAccess) (rest : List Turn) (h : s.turns = .host a :: rest) :
    step s = hostTurn a (s.setTurns rest) := by
  simp [step, h]

theorem step_powerOn (s : State) (m : Memory) (rest : List Turn) (h : s.turns = .powerOn m :: rest) :
    step s = .next ((s.setTurns rest).powerOn m) := by
  simp [step, h]

theorem sequencerTurn_running (s : State) (h : s.run = .running) : sequencerTurn s = runStep s := by
  simp [sequencerTurn, h]

theorem sequencerTurn_stopped (s : State) (h : s.run ≠ .running) : sequencerTurn s = .next s := by
  cases hr : s.run <;> simp_all [sequencerTurn]

/-- A host turn that answers a next state leaves the state alone or does one access of the window. -/
theorem hostTurn_cases {a : HostAccess} {s t : State} (h : hostTurn a s = .next t) :
    (Config.windowOffset s.cfg a.addr = none ∧ t = s) ∨
    ∃ o, Config.windowOffset s.cfg a.addr = some o ∧ o % 4 = 0 ∧ t = s.hostEffect o a := by
  unfold hostTurn at h
  split at h
  · cases h; exact .inl ⟨‹_›, rfl⟩
  · rename_i o ho
    split at h
    · cases h; exact .inr ⟨o, ho, ‹_›, rfl⟩
    · cases h

end Sys2Proof.Machine
end

