-- ==== Sys2Proof/Laws/PerInstr.lean ====
section
/-! SUPPORT. A fact of every instruction as syntax, one lemma per constructor: the encoder's word has the
row of its OP, with that row's fixed bits (30_encoding.md R128, R129). -/

set_option linter.unusedSimpArgs false

namespace Sys2Proof.Laws.FixedBits

/-- The word of an instruction is found in the opcode map and has its row's fixed bits. -/
def Statement (i : Instr) : Prop :=
  ∃ r, rowOf? (encode i) = some r ∧ encode i &&& r.mask = r.pattern

/-- The statement from a known OP and a check of the row. -/
theorem of_row (i : Instr) (k : BitVec 8) (r : OpRow) (hop : opOf (encode i) = k)
    (hr : (opRows.find? fun r => opOf r.pattern == k) = some r) (hm : encode i &&& r.mask = r.pattern) :
    Statement i :=
  ⟨r, (rowOf?_op _ k hop).trans hr, hm⟩

theorem nop : Statement .nop :=
  of_row _ 0x01 _ (by decide) rfl (by decide)

theorem halt : Statement .halt :=
  of_row _ 0x02 _ (by decide) rfl (by decide)

theorem jmp (off16 : BitVec 16) : Statement (.jmp off16) := by
  refine of_row _ 0x03 _ ?_ rfl ?_
  · simp (disch := decide) only [encode, encJ, finCode_zero, placeField_zero, opOf_or, opOf_placeField, BitVec.or_zero]
    rfl
  · simp (disch := decide) only [encode, encJ, finCode_zero, placeField_zero, BitVec.and_or_distrib_right, placeField_and, BitVec.or_zero]
    decide

theorem jz (off16 : BitVec 16) : Statement (.jz off16) := by
  refine of_row _ 0x04 _ ?_ rfl ?_
  · simp (disch := decide) only [encode, encJ, finCode_zero, placeField_zero, opOf_or, opOf_placeField, BitVec.or_zero]
    rfl
  · simp (disch := decide) only [encode, encJ, finCode_zero, placeField_zero, BitVec.and_or_distrib_right, placeField_and, BitVec.or_zero]
    decide

theorem jnz (off16 : BitVec 16) : Statement (.jnz off16) := by
  refine of_row _ 0x05 _ ?_ rfl ?_
  · simp (disch := decide) only [encode, encJ, finCode_zero, placeField_zero, opOf_or, opOf_placeField, BitVec.or_zero]
    rfl
  · simp (disch := decide) only [encode, encJ, finCode_zero, placeField_zero, BitVec.and_or_distrib_right, placeField_and, BitVec.or_zero]
    decide

theorem movi (rd : XReg) (imm16 : BitVec 16) : Statement (.movi rd imm16) := by
  refine of_row _ 0x10 _ ?_ rfl ?_
  · simp (disch := decide) only [encode, finCode_zero, placeField_zero, opOf_or, opOf_placeField, BitVec.or_zero]
    rfl
  · simp (disch := decide) only [encode, finCode_zero, placeField_zero, BitVec.and_or_distrib_right, placeField_and, BitVec.or_zero]
    decide

theorem movk (rd : XReg) (imm16 : BitVec 16) (hw : Fin 4) : Statement (.movk rd imm16 hw) := by
  refine of_row _ 0x11 _ ?_ rfl ?_
  · simp (disch := decide) only [encode, finCode_zero, placeField_zero, opOf_or, opOf_placeField, BitVec.or_zero]
    rfl
  · simp (disch := decide) only [encode, finCode_zero, placeField_zero, BitVec.and_or_distrib_right, placeField_and, BitVec.or_zero]
    decide

theorem mov (rd ra : XReg) : Statement (.mov rd ra) := by
  refine of_row _ 0x12 _ ?_ rfl ?_
  · simp (disch := decide) only [encode, encI, encRdRa, finCode_zero, placeField_zero, opOf_or, opOf_placeField, BitVec.or_zero]
    rfl
  · simp (disch := decide) only [encode, encI, encRdRa, finCode_zero, placeField_zero, BitVec.and_or_distrib_right, placeField_and, BitVec.or_zero]
    decide

theorem addi (rd ra : XReg) (imm16 : BitVec 16) : Statement (.addi rd ra imm16) := by
  refine of_row _ 0x13 _ ?_ rfl ?_
  · simp (disch := decide) only [encode, encI, encRdRa, finCode_zero, placeField_zero, opOf_or, opOf_placeField, BitVec.or_zero]
    rfl
  · simp (disch := decide) only [encode, encI, encRdRa, finCode_zero, placeField_zero, BitVec.and_or_distrib_right, placeField_and, BitVec.or_zero]
    decide

theorem tstx (ra : XReg) : Statement (.tstx ra) := by
  refine of_row _ 0x14 _ ?_ rfl ?_
  · simp (disch := decide) only [encode, encI, encRdRa, finCode_zero, placeField_zero, opOf_or, opOf_placeField, BitVec.or_zero]
    rfl
  · simp (disch := decide) only [encode, encI, encRdRa, finCode_zero, placeField_zero, BitVec.and_or_distrib_right, placeField_and, BitVec.or_zero]
    decide

theorem ld8 (rd ra : XReg) (imm16 : BitVec 16) : Statement (.ld8 rd ra imm16) := by
  refine of_row _ 0x18 _ ?_ rfl ?_
  · simp (disch := decide) only [encode, encI, encRdRa, finCode_zero, placeField_zero, opOf_or, opOf_placeField, BitVec.or_zero]
    rfl
  · simp (disch := decide) only [encode, encI, encRdRa, finCode_zero, placeField_zero, BitVec.and_or_distrib_right, placeField_and, BitVec.or_zero]
    decide

theorem ld16 (rd ra : XReg) (imm16 : BitVec 16) : Statement (.ld16 rd ra imm16) := by
  refine of_row _ 0x19 _ ?_ rfl ?_
  · simp (disch := decide) only [encode, encI, encRdRa, finCode_zero, placeField_zero, opOf_or, opOf_placeField, BitVec.or_zero]
    rfl
  · simp (disch := decide) only [encode, encI, encRdRa, finCode_zero, placeField_zero, BitVec.and_or_distrib_right, placeField_and, BitVec.or_zero]
    decide

theorem ld32 (rd ra : XReg) (imm16 : BitVec 16) : Statement (.ld32 rd ra imm16) := by
  refine of_row _ 0x1A _ ?_ rfl ?_
  · simp (disch := decide) only [encode, encI, encRdRa, finCode_zero, placeField_zero, opOf_or, opOf_placeField, BitVec.or_zero]
    rfl
  · simp (disch := decide) only [encode, encI, encRdRa, finCode_zero, placeField_zero, BitVec.and_or_distrib_right, placeField_and, BitVec.or_zero]
    decide

theorem ld64 (rd ra : XReg) (imm16 : BitVec 16) : Statement (.ld64 rd ra imm16) := by
  refine of_row _ 0x1B _ ?_ rfl ?_
  · simp (disch := decide) only [encode, encI, encRdRa, finCode_zero, placeField_zero, opOf_or, opOf_placeField, BitVec.or_zero]
    rfl
  · simp (disch := decide) only [encode, encI, encRdRa, finCode_zero, placeField_zero, BitVec.and_or_distrib_right, placeField_and, BitVec.or_zero]
    decide

theorem st8 (rs ra : XReg) (imm16 : BitVec 16) : Statement (.st8 rs ra imm16) := by
  refine of_row _ 0x1C _ ?_ rfl ?_
  · simp (disch := decide) only [encode, encI, encRdRa, finCode_zero, placeField_zero, opOf_or, opOf_placeField, BitVec.or_zero]
    rfl
  · simp (disch := decide) only [encode, encI, encRdRa, finCode_zero, placeField_zero, BitVec.and_or_distrib_right, placeField_and, BitVec.or_zero]
    decide

theorem st16 (rs ra : XReg) (imm16 : BitVec 16) : Statement (.st16 rs ra imm16) := by
  refine of_row _ 0x1D _ ?_ rfl ?_
  · simp (disch := decide) only [encode, encI, encRdRa, finCode_zero, placeField_zero, opOf_or, opOf_placeField, BitVec.or_zero]
    rfl
  · simp (disch := decide) only [encode, encI, encRdRa, finCode_zero, placeField_zero, BitVec.and_or_distrib_right, placeField_and, BitVec.or_zero]
    decide

theorem st32 (rs ra : XReg) (imm16 : BitVec 16) : Statement (.st32 rs ra imm16) := by
  refine of_row _ 0x1E _ ?_ rfl ?_
  · simp (disch := decide) only [encode, encI, encRdRa, finCode_zero, placeField_zero, opOf_or, opOf_placeField, BitVec.or_zero]
    rfl
  · simp (disch := decide) only [encode, encI, encRdRa, finCode_zero, placeField_zero, BitVec.and_or_distrib_right, placeField_and, BitVec.or_zero]
    decide

theorem st64 (rs ra : XReg) (imm16 : BitVec 16) : Statement (.st64 rs ra imm16) := by
  refine of_row _ 0x1F _ ?_ rfl ?_
  · simp (disch := decide) only [encode, encI, encRdRa, finCode_zero, placeField_zero, opOf_or, opOf_placeField, BitVec.or_zero]
    rfl
  · simp (disch := decide) only [encode, encI, encRdRa, finCode_zero, placeField_zero, BitVec.and_or_distrib_right, placeField_and, BitVec.or_zero]
    decide

theorem wadd (w : Width) (rd ra rb : XReg) : Statement (.wadd w rd ra rb) := by
  refine of_row _ 0x20 _ ?_ rfl ?_
  · simp (disch := decide) only [encode, encWR, encRdRa, finCode_zero, placeField_zero, opOf_or, opOf_placeField, BitVec.or_zero]
    rfl
  · simp (disch := decide) only [encode, encWR, encRdRa, finCode_zero, placeField_zero, BitVec.and_or_distrib_right, placeField_and, BitVec.or_zero]
    decide

theorem wrotr (w : Width) (rd ra : XReg) (sh6 : Fin 64) : Statement (.wrotr w rd ra sh6) := by
  refine of_row _ 0x21 _ ?_ rfl ?_
  · simp (disch := decide) only [encode, encWI, encRdRa, finCode_zero, placeField_zero, opOf_or, opOf_placeField, BitVec.or_zero]
    rfl
  · simp (disch := decide) only [encode, encWI, encRdRa, finCode_zero, placeField_zero, BitVec.and_or_distrib_right, placeField_and, BitVec.or_zero]
    decide

theorem wrotl (w : Width) (rd ra : XReg) (sh6 : Fin 64) : Statement (.wrotl w rd ra sh6) := by
  refine of_row _ 0x22 _ ?_ rfl ?_
  · simp (disch := decide) only [encode, encWI, encRdRa, finCode_zero, placeField_zero, opOf_or, opOf_placeField, BitVec.or_zero]
    rfl
  · simp (disch := decide) only [encode, encWI, encRdRa, finCode_zero, placeField_zero, BitVec.and_or_distrib_right, placeField_and, BitVec.or_zero]
    decide

theorem wrotrv (w : Width) (rd ra rb : XReg) : Statement (.wrotrv w rd ra rb) := by
  refine of_row _ 0x23 _ ?_ rfl ?_
  · simp (disch := decide) only [encode, encWR, encRdRa, finCode_zero, placeField_zero, opOf_or, opOf_placeField, BitVec.or_zero]
    rfl
  · simp (disch := decide) only [encode, encWR, encRdRa, finCode_zero, placeField_zero, BitVec.and_or_distrib_right, placeField_and, BitVec.or_zero]
    decide

theorem wrotlv (w : Width) (rd ra rb : XReg) : Statement (.wrotlv w rd ra rb) := by
  refine of_row _ 0x24 _ ?_ rfl ?_
  · simp (disch := decide) only [encode, encWR, encRdRa, finCode_zero, placeField_zero, opOf_or, opOf_placeField, BitVec.or_zero]
    rfl
  · simp (disch := decide) only [encode, encWR, encRdRa, finCode_zero, placeField_zero, BitVec.and_or_distrib_right, placeField_and, BitVec.or_zero]
    decide

theorem wbswap (w : Width) (rd ra : XReg) : Statement (.wbswap w rd ra) := by
  refine of_row _ 0x25 _ ?_ rfl ?_
  · simp (disch := decide) only [encode, encWR, encRdRa, finCode_zero, placeField_zero, opOf_or, opOf_placeField, BitVec.or_zero]
    rfl
  · simp (disch := decide) only [encode, encWR, encRdRa, finCode_zero, placeField_zero, BitVec.and_or_distrib_right, placeField_and, BitVec.or_zero]
    decide

theorem wch (w : Width) (rd ra rb rc : XReg) : Statement (.wch w rd ra rb rc) := by
  refine of_row _ 0x26 _ ?_ rfl ?_
  · simp (disch := decide) only [encode, encWR, encRdRa, finCode_zero, placeField_zero, opOf_or, opOf_placeField, BitVec.or_zero]
    rfl
  · simp (disch := decide) only [encode, encWR, encRdRa, finCode_zero, placeField_zero, BitVec.and_or_distrib_right, placeField_and, BitVec.or_zero]
    decide

theorem wmaj (w : Width) (rd ra rb rc : XReg) : Statement (.wmaj w rd ra rb rc) := by
  refine of_row _ 0x27 _ ?_ rfl ?_
  · simp (disch := decide) only [encode, encWR, encRdRa, finCode_zero, placeField_zero, opOf_or, opOf_placeField, BitVec.or_zero]
    rfl
  · simp (disch := decide) only [encode, encWR, encRdRa, finCode_zero, placeField_zero, BitVec.and_or_distrib_right, placeField_and, BitVec.or_zero]
    decide

theorem wbsig0 (w : Width) (rd ra : XReg) : Statement (.wbsig0 w rd ra) := by
  refine of_row _ 0x28 _ ?_ rfl ?_
  · simp (disch := decide) only [encode, encWR, encRdRa, finCode_zero, placeField_zero, opOf_or, opOf_placeField, BitVec.or_zero]
    rfl
  · simp (disch := decide) only [encode, encWR, encRdRa, finCode_zero, placeField_zero, BitVec.and_or_distrib_right, placeField_and, BitVec.or_zero]
    decide

theorem wbsig1 (w : Width) (rd ra : XReg) : Statement (.wbsig1 w rd ra) := by
  refine of_row _ 0x29 _ ?_ rfl ?_
  · simp (disch := decide) only [encode, encWR, encRdRa, finCode_zero, placeField_zero, opOf_or, opOf_placeField, BitVec.or_zero]
    rfl
  · simp (disch := decide) only [encode, encWR, encRdRa, finCode_zero, placeField_zero, BitVec.and_or_distrib_right, placeField_and, BitVec.or_zero]
    decide

theorem wssig0 (w : Width) (rd ra : XReg) : Statement (.wssig0 w rd ra) := by
  refine of_row _ 0x2A _ ?_ rfl ?_
  · simp (disch := decide) only [encode, encWR, encRdRa, finCode_zero, placeField_zero, opOf_or, opOf_placeField, BitVec.or_zero]
    rfl
  · simp (disch := decide) only [encode, encWR, encRdRa, finCode_zero, placeField_zero, BitVec.and_or_distrib_right, placeField_and, BitVec.or_zero]
    decide

theorem wssig1 (w : Width) (rd ra : XReg) : Statement (.wssig1 w rd ra) := by
  refine of_row _ 0x2B _ ?_ rfl ?_
  · simp (disch := decide) only [encode, encWR, encRdRa, finCode_zero, placeField_zero, opOf_or, opOf_placeField, BitVec.or_zero]
    rfl
  · simp (disch := decide) only [encode, encWR, encRdRa, finCode_zero, placeField_zero, BitVec.and_or_distrib_right, placeField_and, BitVec.or_zero]
    decide

theorem nld (sz : SizeCode) (nd : NReg) (ra : XReg) : Statement (.nld sz nd ra) := by
  refine of_row _ 0x30 _ ?_ rfl ?_
  · simp (disch := decide) only [encode, encNR, encRdRa, finCode_zero, placeField_zero, opOf_or, opOf_placeField, BitVec.or_zero]
    rfl
  · simp (disch := decide) only [encode, encNR, encRdRa, finCode_zero, placeField_zero, BitVec.and_or_distrib_right, placeField_and, BitVec.or_zero]
    decide

theorem nst (sz : SizeCode) (ns : NReg) (ra : XReg) : Statement (.nst sz ns ra) := by
  refine of_row _ 0x31 _ ?_ rfl ?_
  · simp (disch := decide) only [encode, encNR, encRdRa, finCode_zero, placeField_zero, opOf_or, opOf_placeField, BitVec.or_zero]
    rfl
  · simp (disch := decide) only [encode, encNR, encRdRa, finCode_zero, placeField_zero, BitVec.and_or_distrib_right, placeField_and, BitVec.or_zero]
    decide

theorem nclr (nd : NReg) : Statement (.nclr nd) := by
  refine of_row _ 0x32 _ ?_ rfl ?_
  · simp (disch := decide) only [encode, encNR, encRdRa, finCode_zero, placeField_zero, opOf_or, opOf_placeField, BitVec.or_zero]
    rfl
  · simp (disch := decide) only [encode, encNR, encRdRa, finCode_zero, placeField_zero, BitVec.and_or_distrib_right, placeField_and, BitVec.or_zero]
    decide

theorem nmov (sz : SizeCode) (nd na : NReg) : Statement (.nmov sz nd na) := by
  refine of_row _ 0x33 _ ?_ rfl ?_
  · simp (disch := decide) only [encode, encNR, encRdRa, finCode_zero, placeField_zero, opOf_or, opOf_placeField, BitVec.or_zero]
    rfl
  · simp (disch := decide) only [encode, encNR, encRdRa, finCode_zero, placeField_zero, BitVec.and_or_distrib_right, placeField_and, BitVec.or_zero]
    decide

theorem nadds (sz : SizeCode) (ww : NumWidth) (nd : NReg) (ra : XReg) : Statement (.nadds sz ww nd ra) := by
  refine of_row _ 0x34 _ ?_ rfl ?_
  · simp (disch := decide) only [encode, encNR, encRdRa, finCode_zero, placeField_zero, opOf_or, opOf_placeField, BitVec.or_zero]
    rfl
  · simp (disch := decide) only [encode, encNR, encRdRa, finCode_zero, placeField_zero, BitVec.and_or_distrib_right, placeField_and, BitVec.or_zero]
    decide

theorem nmuls (sz : SizeCode) (ww : NumWidth) (nd : NReg) (ra : XReg) : Statement (.nmuls sz ww nd ra) := by
  refine of_row _ 0x35 _ ?_ rfl ?_
  · simp (disch := decide) only [encode, encNR, encRdRa, finCode_zero, placeField_zero, opOf_or, opOf_placeField, BitVec.or_zero]
    rfl
  · simp (disch := decide) only [encode, encNR, encRdRa, finCode_zero, placeField_zero, BitVec.and_or_distrib_right, placeField_and, BitVec.or_zero]
    decide

theorem ndivs (sz : SizeCode) (ww : NumWidth) (nd : NReg) (xr xb : XReg) : Statement (.ndivs sz ww nd xr xb) := by
  refine of_row _ 0x36 _ ?_ rfl ?_
  · simp (disch := decide) only [encode, encNR, encRdRa, finCode_zero, placeField_zero, opOf_or, opOf_placeField, BitVec.or_zero]
    rfl
  · simp (disch := decide) only [encode, encNR, encRdRa, finCode_zero, placeField_zero, BitVec.and_or_distrib_right, placeField_and, BitVec.or_zero]
    decide

theorem nisz (sz : SizeCode) (na : NReg) : Statement (.nisz sz na) := by
  refine of_row _ 0x37 _ ?_ rfl ?_
  · simp (disch := decide) only [encode, encNR, encRdRa, finCode_zero, placeField_zero, opOf_or, opOf_placeField, BitVec.or_zero]
    rfl
  · simp (disch := decide) only [encode, encNR, encRdRa, finCode_zero, placeField_zero, BitVec.and_or_distrib_right, placeField_and, BitVec.or_zero]
    decide

theorem neq (sz : SizeCode) (na nb : NReg) : Statement (.neq sz na nb) := by
  refine of_row _ 0x38 _ ?_ rfl ?_
  · simp (disch := decide) only [encode, encNR, encRdRa, finCode_zero, placeField_zero, opOf_or, opOf_placeField, BitVec.or_zero]
    rfl
  · simp (disch := decide) only [encode, encNR, encRdRa, finCode_zero, placeField_zero, BitVec.and_or_distrib_right, placeField_and, BitVec.or_zero]
    decide

theorem nbswap (sz : SizeCode) (nd na : NReg) : Statement (.nbswap sz nd na) := by
  refine of_row _ 0x39 _ ?_ rfl ?_
  · simp (disch := decide) only [encode, encNR, encRdRa, finCode_zero, placeField_zero, opOf_or, opOf_placeField, BitVec.or_zero]
    rfl
  · simp (disch := decide) only [encode, encNR, encRdRa, finCode_zero, placeField_zero, BitVec.and_or_distrib_right, placeField_and, BitVec.or_zero]
    decide

theorem nbswapw (sz : SizeCode) (ww : NumWidth) (nd na : NReg) : Statement (.nbswapw sz ww nd na) := by
  refine of_row _ 0x3A _ ?_ rfl ?_
  · simp (disch := decide) only [encode, encNR, encRdRa, finCode_zero, placeField_zero, opOf_or, opOf_placeField, BitVec.or_zero]
    rfl
  · simp (disch := decide) only [encode, encNR, encRdRa, finCode_zero, placeField_zero, BitVec.and_or_distrib_right, placeField_and, BitVec.or_zero]
    decide

theorem ngetw (ww : NumWidth) (rd : XReg) (na : NReg) (idx8 : Fin 256) : Statement (.ngetw ww rd na idx8) := by
  refine of_row _ 0x3B _ ?_ rfl ?_
  · simp (disch := decide) only [encode, encNX, encRdRa, finCode_zero, placeField_zero, opOf_or, opOf_placeField, BitVec.or_zero]
    rfl
  · simp (disch := decide) only [encode, encNX, encRdRa, finCode_zero, placeField_zero, BitVec.and_or_distrib_right, placeField_and, BitVec.or_zero]
    decide

theorem nsetw (ww : NumWidth) (nd : NReg) (ra : XReg) (idx8 : Fin 256) : Statement (.nsetw ww nd ra idx8) := by
  refine of_row _ 0x3C _ ?_ rfl ?_
  · simp (disch := decide) only [encode, encNX, encRdRa, finCode_zero, placeField_zero, opOf_or, opOf_placeField, BitVec.or_zero]
    rfl
  · simp (disch := decide) only [encode, encNX, encRdRa, finCode_zero, placeField_zero, BitVec.and_or_distrib_right, placeField_and, BitVec.or_zero]
    decide

theorem hinit (mode : Mode) : Statement (.hinit mode) := by
  refine of_row _ 0x40 _ ?_ rfl ?_
  · simp (disch := decide) only [encode, finCode_zero, placeField_zero, opOf_or, opOf_placeField, BitVec.or_zero]
    rfl
  · simp (disch := decide) only [encode, finCode_zero, placeField_zero, BitVec.and_or_distrib_right, placeField_and, BitVec.or_zero]
    decide

theorem hupd (ra rb : XReg) : Statement (.hupd ra rb) := by
  refine of_row _ 0x41 _ ?_ rfl ?_
  · simp (disch := decide) only [encode, finCode_zero, placeField_zero, opOf_or, opOf_placeField, BitVec.or_zero]
    rfl
  · simp (disch := decide) only [encode, finCode_zero, placeField_zero, BitVec.and_or_distrib_right, placeField_and, BitVec.or_zero]
    decide

theorem hdig (ra : XReg) : Statement (.hdig ra) := by
  refine of_row _ 0x42 _ ?_ rfl ?_
  · simp (disch := decide) only [encode, finCode_zero, placeField_zero, opOf_or, opOf_placeField, BitVec.or_zero]
    rfl
  · simp (disch := decide) only [encode, finCode_zero, placeField_zero, BitVec.and_or_distrib_right, placeField_and, BitVec.or_zero]
    decide

theorem hstat (rd : XReg) (sel : StatSel) : Statement (.hstat rd sel) := by
  refine of_row _ 0x43 _ ?_ rfl ?_
  · simp (disch := decide) only [encode, finCode_zero, placeField_zero, opOf_or, opOf_placeField, BitVec.or_zero]
    rfl
  · simp (disch := decide) only [encode, finCode_zero, placeField_zero, BitVec.and_or_distrib_right, placeField_and, BitVec.or_zero]
    decide

theorem hwipe : Statement .hwipe :=
  of_row _ 0x44 _ (by decide) rfl (by decide)

end Sys2Proof.Laws.FixedBits
end

