-- ==== Sys2Proof/Machine/Assembler.lean ====
section
/-! DEFINITION. The assembler's side of the command set: the text of a command (30_encoding.md R133) and the
pseudo-instructions with their expansions (R134). Not hardware. -/

namespace Sys2Proof.Machine

/-- `Xn` (R133). -/
def xName (r : XReg) : String := "X" ++ toString r.val

/-- `Nn` (R133). -/
def nName (r : NReg) : String := "N" ++ toString r.val

/-- The width suffix of a word-unit command (R133). -/
def widthSuffix : Width → String
  | .w32 => ".32"
  | .w64 => ".64"

/-- The `.SIZE` suffix of a number-register command (R133). -/
def sizeSuffix (sz : SizeCode) : String := "." ++ toString (sizeBits sz)

/-- The `.WW` suffix (R133). -/
def wwSuffix (ww : NumWidth) : String := "." ++ toString ww.bits

/-- The name of a hash variant (R133). -/
def modeName : Mode → String
  | .sha256 => "SHA256"
  | .sha224 => "SHA224"
  | .sha512 => "SHA512"
  | .sha384 => "SHA384"
  | .sha512t256 => "SHA512_256"
  | .sha512t224 => "SHA512_224"
  | .rmd160 => "RMD160"

/-- The name of a selector (R133). -/
def selName : StatSel → String
  | .total => "TOTAL"
  | .off => "OFF"
  | .mode => "MODE"
  | .state => "STATE"

/-- Operands separated by commas. -/
def operands : List String → String
  | [] => ""
  | [o] => o
  | o :: os => o ++ ", " ++ operands os

/-- `MNEMONIC operands` (R133). -/
def line (mnemonic : String) (ops : List String) : String := mnemonic ++ " " ++ operands ops

/-- `simm16(Xa)`, with `(Xa)` for 0 (R133). -/
def baseText (ra : XReg) (imm16 : BitVec 16) : String :=
  (if imm16 = 0 then "" else toString imm16.toInt) ++ "(" ++ xName ra ++ ")"

/-- The text of a command (R133). -/
def asmText : Instr → String
  | .nop => "NOP"
  | .halt => "HALT"
  | .jmp off => line "JMP" [toString off.toInt]
  | .jz off => line "JZ" [toString off.toInt]
  | .jnz off => line "JNZ" [toString off.toInt]
  | .movi rd imm => line "MOVI" [xName rd, toString imm.toNat]
  | .movk rd imm hw => line "MOVK" [xName rd, toString imm.toNat, toString hw.val]
  | .mov rd ra => line "MOV" [xName rd, xName ra]
  | .addi rd ra imm => line "ADDI" [xName rd, xName ra, toString imm.toInt]
  | .tstx ra => line "TSTX" [xName ra]
  | .ld8 rd ra imm => line "LD8" [xName rd, baseText ra imm]
  | .ld16 rd ra imm => line "LD16" [xName rd, baseText ra imm]
  | .ld32 rd ra imm => line "LD32" [xName rd, baseText ra imm]
  | .ld64 rd ra imm => line "LD64" [xName rd, baseText ra imm]
  | .st8 rs ra imm => line "ST8" [xName rs, baseText ra imm]
  | .st16 rs ra imm => line "ST16" [xName rs, baseText ra imm]
  | .st32 rs ra imm => line "ST32" [xName rs, baseText ra imm]
  | .st64 rs ra imm => line "ST64" [xName rs, baseText ra imm]
  | .wadd w rd ra rb => line ("WADD" ++ widthSuffix w) [xName rd, xName ra, xName rb]
  | .wrotr w rd ra sh => line ("WROTR" ++ widthSuffix w) [xName rd, xName ra, toString sh.val]
  | .wrotl w rd ra sh => line ("WROTL" ++ widthSuffix w) [xName rd, xName ra, toString sh.val]
  | .wrotrv w rd ra rb => line ("WROTRV" ++ widthSuffix w) [xName rd, xName ra, xName rb]
  | .wrotlv w rd ra rb => line ("WROTLV" ++ widthSuffix w) [xName rd, xName ra, xName rb]
  | .wbswap w rd ra => line ("WBSWAP" ++ widthSuffix w) [xName rd, xName ra]
  | .wch w rd ra rb rc => line ("WCH" ++ widthSuffix w) [xName rd, xName ra, xName rb, xName rc]
  | .wmaj w rd ra rb rc => line ("WMAJ" ++ widthSuffix w) [xName rd, xName ra, xName rb, xName rc]
  | .wbsig0 w rd ra => line ("WBSIG0" ++ widthSuffix w) [xName rd, xName ra]
  | .wbsig1 w rd ra => line ("WBSIG1" ++ widthSuffix w) [xName rd, xName ra]
  | .wssig0 w rd ra => line ("WSSIG0" ++ widthSuffix w) [xName rd, xName ra]
  | .wssig1 w rd ra => line ("WSSIG1" ++ widthSuffix w) [xName rd, xName ra]
  | .nld sz nd ra => line ("NLD" ++ sizeSuffix sz) [nName nd, "(" ++ xName ra ++ ")"]
  | .nst sz ns ra => line ("NST" ++ sizeSuffix sz) [nName ns, "(" ++ xName ra ++ ")"]
  | .nclr nd => line "NCLR" [nName nd]
  | .nmov sz nd na => line ("NMOV" ++ sizeSuffix sz) [nName nd, nName na]
  | .nadds sz ww nd ra => line ("NADDS" ++ sizeSuffix sz ++ wwSuffix ww) [nName nd, xName ra]
  | .nmuls sz ww nd ra => line ("NMULS" ++ sizeSuffix sz ++ wwSuffix ww) [nName nd, xName ra]
  | .ndivs sz ww nd xr xb => line ("NDIVS" ++ sizeSuffix sz ++ wwSuffix ww) [nName nd, xName xr, xName xb]
  | .nisz sz na => line ("NISZ" ++ sizeSuffix sz) [nName na]
  | .neq sz na nb => line ("NEQ" ++ sizeSuffix sz) [nName na, nName nb]
  | .nbswap sz nd na => line ("NBSWAP" ++ sizeSuffix sz) [nName nd, nName na]
  | .nbswapw sz ww nd na => line ("NBSWAPW" ++ sizeSuffix sz ++ wwSuffix ww) [nName nd, nName na]
  | .ngetw ww rd na idx => line ("NGETW" ++ wwSuffix ww) [xName rd, nName na, toString idx.val]
  | .nsetw ww nd ra idx => line ("NSETW" ++ wwSuffix ww) [nName nd, xName ra, toString idx.val]
  | .hinit m => line "HINIT" [modeName m]
  | .hupd ra rb => line "HUPD" [xName ra, xName rb]
  | .hdig ra => line "HDIG" [xName ra]
  | .hstat rd sel => line "HSTAT" [xName rd, selName sel]
  | .hwipe => "HWIPE"

/-- The pseudo-instructions (R134). `b` has its label resolved to a word offset (R133). -/
inductive Pseudo where
  | li (rd : XReg) (imm64 : Word64)
  | li16 (rd : XReg) (imm16 : BitVec 16)
  | subi (rd ra : XReg) (imm : BitVec 16)
  | dec (rd : XReg)
  | inc (rd : XReg)
  | b (off16 : BitVec 16)
  | clrx (rd : XReg)
  | add (rd ra rb : XReg)
  | setz (ra : XReg)
  | hash (m : Mode) (ra rb rc : XReg)
deriving DecidableEq, Repr

/-- The expansions (R134). -/
def Pseudo.expand : Pseudo → List Instr
  | .li rd imm => [.movi rd (imm.extractLsb' 0 16), .movk rd (imm.extractLsb' 16 16) 1,
      .movk rd (imm.extractLsb' 32 16) 2, .movk rd (imm.extractLsb' 48 16) 3]
  | .li16 rd imm => [.movi rd imm]
  | .subi rd ra imm => [.addi rd ra (-imm)]
  | .dec rd => [.addi rd rd (-1)]
  | .inc rd => [.addi rd rd 1]
  | .b off => [.jmp off]
  | .clrx rd => [.movi rd 0]
  | .add rd ra rb => [.wadd .w64 rd ra rb]
  | .setz ra => [.tstx ra]
  | .hash m ra rb rc => [.hinit m, .hupd ra rb, .hdig rc]

end Sys2Proof.Machine
end

