-- ==== Sys2Proof/Tests/Slice0.lean ====
section
/-! SUPPORT. Tests: every expected value is the spec's (its examples, 95_test_vectors.md, or a word written out
from the opcode map), and witnesses that meet the hypotheses of the statements. -/

set_option maxRecDepth 100000
set_option exponentiation.threshold 600

namespace Sys2Proof.Tests
open Sys2Proof.Machine

/-! ## Small states -/

/-- The state after reset, to be edited. -/
abbrev blank : State := State.reset

/-- `s` RUNNING at `cp`, with the word `w` there (the convention of 95_test_vectors.md). -/
def fetching (s : State) (cp w : Word32) : State := State.placeWord { s with run := .running, cp := cp } w

/-- The next state an answer gives. -/
def after : Answer → State
  | .next t => t
  | .fault _ => .reset
  | .refused _ => .reset

/-- The answer is a refusal. -/
def refuses : Answer → Bool
  | .next _ => false
  | .fault _ => false
  | .refused _ => true

/-- `s` with a host write of the window offset `o` as its next turn. -/
def hostWrites (s : State) (o : Nat) (v : Word32) : State := { s with turns := [.host (.write (s.cfg.hostBase + o) v)] }

/-- `s` with a host read of the window offset `o` as its next turn. -/
def hostReads (s : State) (o : Nat) : State := { s with turns := [.host (.read (s.cfg.hostBase + o))] }

/-- What the host reads at the offset `o`. -/
def reads (s : State) (o : Nat) : Option Word32 := (after (step (hostReads s o))).readData

/-- A running sequencer. -/
abbrev running : State := { blank with run := .running }

/-! ## WellFormed: an ill-formed term for each check, which the check refuses -/

theorem test_wellFormed_refuses_rotate_of_the_width :
    (Instr.wrotr .w32 3 1 32).wellFormed = false ∧ (Instr.wrotl .w32 3 1 63).wellFormed = false := by decide

theorem test_wellFormed_refuses_word_wider_than_size :
    (Instr.nadds 0 .ww64 0 1).wellFormed = false ∧ (Instr.nmuls 2 .ww64 0 1).wellFormed = false ∧
    (Instr.ndivs 14 .ww64 0 1 2).wellFormed = false ∧ (Instr.nbswapw 0 .ww64 1 0).wellFormed = false := by decide

theorem test_wellFormed_accepts_the_boundary :
    (Instr.wrotr .w32 3 1 31).wellFormed = true ∧ (Instr.wrotl .w64 3 1 63).wellFormed = true ∧
    (Instr.nadds 1 .ww64 0 1).wellFormed = true ∧ (Instr.nbswapw 0 .ww32 1 0).wellFormed = true := by decide

/-! ## Decoding: the word of every constructor, written out from its row of 30_encoding.md R128 -/

theorem test_decode_control_and_scalar :
    decodeTableWord 32 0b00000001_0000_0000_0000_0000_00000000 = some (.nop) ∧
    decodeTableWord 32 0b00000010_0000_0000_0000_0000_00000000 = some (.halt) ∧
    decodeTableWord 32 0b00000011_0000_0000_1000_0000_00000001 = some (.jmp 0x8001) ∧
    decodeTableWord 32 0b00000100_0000_0000_0111_1111_11111110 = some (.jz 0x7FFE) ∧
    decodeTableWord 32 0b00000101_0000_0000_1111_1111_11111111 = some (.jnz 0xFFFF) ∧
    decodeTableWord 32 0b00010000_1001_0000_1011_1110_11101111 = some (.movi 9 0xBEEF) ∧
    decodeTableWord 32 0b00010001_1110_1000_0001_0010_00110100 = some (.movk 14 0x1234 2) ∧
    decodeTableWord 32 0b00010010_1101_0110_0000_0000_00000000 = some (.mov 13 6) ∧
    decodeTableWord 32 0b00010011_0111_1100_1000_0000_00000000 = some (.addi 7 12 0x8000) ∧
    decodeTableWord 32 0b00010100_0000_1011_0000_0000_00000000 = some (.tstx 11) := by decide

theorem test_decode_load_and_store :
    decodeTableWord 32 0b00011000_0001_1110_0000_0000_00000011 = some (.ld8 1 14 0x0003) ∧
    decodeTableWord 32 0b00011001_0010_1101_1111_1111_11111110 = some (.ld16 2 13 0xFFFE) ∧
    decodeTableWord 32 0b00011010_0011_1100_0111_1111_11111111 = some (.ld32 3 12 0x7FFF) ∧
    decodeTableWord 32 0b00011011_0100_1011_1000_0000_00001000 = some (.ld64 4 11 0x8008) ∧
    decodeTableWord 32 0b00011100_0101_1010_0000_0000_00000001 = some (.st8 5 10 0x0001) ∧
    decodeTableWord 32 0b00011101_0110_1001_1111_1111_11110000 = some (.st16 6 9 0xFFF0) ∧
    decodeTableWord 32 0b00011110_0111_1000_0000_0001_00000100 = some (.st32 7 8 0x0104) ∧
    decodeTableWord 32 0b00011111_1000_0111_1111_1111_11111000 = some (.st64 8 7 0xFFF8) := by decide

theorem test_decode_word_unit :
    decodeTableWord 32 0b00100000_1010_0101_1100_0000_00000001 = some (.wadd .w64 10 5 12) ∧
    decodeTableWord 32 0b00100001_0110_1001_0001_1111_00000000 = some (.wrotr .w32 6 9 31) ∧
    decodeTableWord 32 0b00100010_0110_1001_0011_1111_00000001 = some (.wrotl .w64 6 9 63) ∧
    decodeTableWord 32 0b00100011_1010_0101_1100_0000_00000000 = some (.wrotrv .w32 10 5 12) ∧
    decodeTableWord 32 0b00100100_1010_0101_1100_0000_00000001 = some (.wrotlv .w64 10 5 12) ∧
    decodeTableWord 32 0b00100101_1000_1101_0000_0000_00000000 = some (.wbswap .w32 8 13) ∧
    decodeTableWord 32 0b00100110_0001_0010_0100_1000_00000001 = some (.wch .w64 1 2 4 8) ∧
    decodeTableWord 32 0b00100111_1000_0100_0010_0001_00000000 = some (.wmaj .w32 8 4 2 1) ∧
    decodeTableWord 32 0b00101000_1000_1101_0000_0000_00000001 = some (.wbsig0 .w64 8 13) ∧
    decodeTableWord 32 0b00101001_1000_1101_0000_0000_00000000 = some (.wbsig1 .w32 8 13) ∧
    decodeTableWord 32 0b00101010_1000_1101_0000_0000_00000001 = some (.wssig0 .w64 8 13) ∧
    decodeTableWord 32 0b00101011_1000_1101_0000_0000_00000000 = some (.wssig1 .w32 8 13) := by decide

theorem test_decode_number :
    decodeTableWord 32 0b00110000_0010_1001_0000_0000_11110000 = some (.nld 15 2 9) ∧
    decodeTableWord 32 0b00110001_0011_1010_0000_0000_01000000 = some (.nst 4 3 10) ∧
    decodeTableWord 32 0b00110010_0011_0000_0000_0000_00000000 = some (.nclr 3) ∧
    decodeTableWord 32 0b00110011_0001_0010_0000_0000_01110000 = some (.nmov 7 1 2) ∧
    decodeTableWord 32 0b00110100_0010_1011_0000_0000_01011100 = some (.nadds 5 .ww64 2 11) ∧
    decodeTableWord 32 0b00110101_0011_1100_0000_0000_01100100 = some (.nmuls 6 .ww16 3 12) ∧
    decodeTableWord 32 0b00110110_0001_1101_1110_0000_00010000 = some (.ndivs 1 .ww8 1 13 14) ∧
    decodeTableWord 32 0b00110111_0000_0011_0000_0000_10110000 = some (.nisz 11 3) ∧
    decodeTableWord 32 0b00111000_0000_0001_0011_0000_11010000 = some (.neq 13 1 3) ∧
    decodeTableWord 32 0b00111001_0011_0001_0000_0000_00100000 = some (.nbswap 2 3 1) ∧
    decodeTableWord 32 0b00111010_0010_0011_0000_0000_11101000 = some (.nbswapw 14 .ww32 2 3) ∧
    decodeTableWord 32 0b00111011_1100_0010_0011_1111_00000000 = some (.ngetw .ww8 12 2 63) ∧
    decodeTableWord 32 0b00111100_0001_1111_1111_1111_00001100 = some (.nsetw .ww64 1 15 255) := by decide

theorem test_decode_hash :
    decodeTableWord 32 0b01000000_0000_0000_0000_0000_00000110 = some (.hinit .rmd160) ∧
    decodeTableWord 32 0b01000001_0000_0110_1001_0000_00000000 = some (.hupd 6 9) ∧
    decodeTableWord 32 0b01000010_0000_1110_0000_0000_00000000 = some (.hdig 14) ∧
    decodeTableWord 32 0b01000011_1010_0000_0000_0000_00000010 = some (.hstat 10 .mode) ∧
    decodeTableWord 32 0b01000100_0000_0000_0000_0000_00000000 = some (.hwipe) := by decide

/-- 30_encoding.md R129 to R131; 45_sequencer.md: words that are no command. -/
theorem test_decode_refuses :
    ∀ w ∈ [0x00000000, 0x06000000, 0x0FFFFFFF, 0x15000000, 0x17000000, 0x2C000000, 0x2F000000, 0x3D000000,
        0x3F000000, 0x45000000, 0xFF000000, 0x01000001, 0x05010002, 0x20312002, 0x30010014, 0x30410010, 0x32300010,
        0x331F0000, 0x38014010, 0x3401000C, 0x3A10000C, 0x3B14080C, 0x21312000, 0x22313F00, 0x40000007, 0x41012001,
        0x43400004], decodeTableWord 32 w = none := by decide

/-- The masks of R128, one row of each format. -/
theorem test_rows :
    opRows.length = 48 ∧
    (opRows.map (·.mask)).take 10 = [0xFFFFFFFF, 0xFFFFFFFF, 0xFFFF0000, 0xFFFF0000, 0xFFFF0000, 0xFF0F0000,
      0xFF030000, 0xFF00FFFF, 0xFF000000, 0xFFF0FFFF] ∧
    (opRows.map (·.mask)).drop 18 = [0xFF000FFE, 0xFF00C0FE, 0xFF00C0FE, 0xFF000FFE, 0xFF000FFE, 0xFF00FFFE,
      0xFF0000FE, 0xFF0000FE, 0xFF00FFFE, 0xFF00FFFE, 0xFF00FFFE, 0xFF00FFFE, 0xFF00FF0F, 0xFF00FF0F, 0xFF0FFFFF,
      0xFF00FF0F, 0xFF00FF03, 0xFF00FF03, 0xFF000F03, 0xFFF0FF0F, 0xFFF00F0F, 0xFF00FF0F, 0xFF00FF03, 0xFF0000F3,
      0xFF0000F3, 0xFFFFFFF8, 0xFFF00FFF, 0xFFF0FFFF, 0xFF0FFFFC, 0xFFFFFFFF] := by decide

/-- R133: the assembler's text. -/
theorem test_assembler_text :
    asmText (.nadds 7 .ww32 0 1) = "NADDS.256.32 N0, X1" ∧ asmText (.st64 1 2 0xFFF8) = "ST64 X1, -8(X2)" ∧
    asmText (.ld8 2 2 0) = "LD8 X2, (X2)" ∧ asmText (.hinit .sha512t224) = "HINIT SHA512_224" := by decide

/-- R134: pseudo-instructions. -/
theorem test_pseudo_expansions :
    (Pseudo.li 3 0x0123456789ABCDEF).expand =
      [.movi 3 0xCDEF, .movk 3 0x89AB 1, .movk 3 0x4567 2, .movk 3 0x0123 3] ∧
    (Pseudo.dec 1).expand.map encode = [0x1311FFFF] ∧
    (Pseudo.hash .sha256 1 2 3).expand.map encode = [0x40000000, 0x41012000, 0x42030000] := by decide

/-! ## One step of each instruction -/

/-- R451: `NOP`. -/
theorem test_nop :
    let t := after (step (fetching blank 0x20 0x01000000))
    t.cp = 0x24 := by decide

/-- R452: `HALT`. -/
theorem test_halt :
    let t := after (step (fetching blank 0x8 0x02000000))
    t.run = .halted ∧ t.irq = true ∧ t.cp = 0xC := by decide

/-- R453: `JMP -1`. -/
theorem test_jmp_wraps_below_zero :
    let t := after (step (fetching blank 0x0 0x0300ffff))
    t.cp = 0xFFFFFFFC := by decide

/-- R453: `JMP -32768` (wraps mod 2^32). -/
theorem test_jmp_longest_back :
    let t := after (step (fetching blank 0x10 0x03008000))
    t.cp = 0xFFFE0010 := by decide

/-- R454: `JZ 2`. -/
theorem test_jz_not_taken :
    let t := after (step (fetching blank 0x0 0x04000002))
    t.cp = 0x4 := by decide

/-- R454: `JZ 2`. -/
theorem test_jz_taken :
    let t := after (step (fetching (blank.setZ true) 0x0 0x04000002))
    t.cp = 0x8 := by decide

/-- R455: `JNZ 2`. -/
theorem test_jnz_taken :
    let t := after (step (fetching blank 0x0 0x05000002))
    t.cp = 0x8 := by decide

/-- R455: `JNZ 2`. -/
theorem test_jnz_not_taken :
    let t := after (step (fetching (blank.setZ true) 0x0 0x05000002))
    t.cp = 0x4 := by decide

/-- R456: `MOVI X1, 0x1234`. -/
theorem test_movi :
    let t := after (step (fetching (blank.setX 1 0xFFFFFFFFFFFFFFFF) 0x8000 0x10101234))
    t.x 1 = 0x1234 ∧ t.cp = 0x8004 := by decide

/-- R457: `MOVK X1, 0xABCD, 3`. -/
theorem test_movk :
    let t := after (step (fetching (blank.setX 1 0x1234) 0x8000 0x111cabcd))
    t.x 1 = 0xABCD000000001234 ∧ t.cp = 0x8004 := by decide

/-- R457: `MOVK X1, 0, 1`. -/
theorem test_movk_other :
    let t := after (step (fetching (blank.setX 1 0xFFFFFFFFFFFFFFFF) 0x8000 0x11140000))
    t.x 1 = 0xFFFFFFFF0000FFFF ∧ t.cp = 0x8004 := by decide

/-- R458: `MOV X2, X1`. -/
theorem test_mov :
    let t := after (step (fetching (blank.setX 1 0x4D) 0x8000 0x12210000))
    t.x 2 = 0x4D ∧ t.cp = 0x8004 := by decide

/-- R459: `ADDI X1, X1, -1`. -/
theorem test_addi :
    let t := after (step (fetching (blank.setX 1 0x1) 0x8000 0x1311ffff))
    t.x 1 = 0x0 ∧ t.z = true ∧ t.cp = 0x8004 := by decide

/-- R459: `ADDI X1, X1, -1`. -/
theorem test_addi_other :
    let t := after (step (fetching ((blank.setX 1 0x0).setZ true) 0x8000 0x1311ffff))
    t.x 1 = 0xFFFFFFFFFFFFFFFF ∧ t.z = false ∧ t.cp = 0x8004 := by decide

/-- R460: `TSTX X3`. -/
theorem test_tstx :
    let t := after (step (fetching (blank.setX 3 0x0) 0x8000 0x14030000))
    t.z = true ∧ t.cp = 0x8004 := by decide

/-- R460: `TSTX X3`. -/
theorem test_tstx_other :
    let t := after (step (fetching ((blank.setX 3 0x8000000000000000).setZ true) 0x8000 0x14030000))
    t.z = false ∧ t.cp = 0x8004 := by decide

/-- R462: `LD8 X1, 3(X2)`. -/
theorem test_ld8 :
    let t := after (step (fetching ((blank.setX 2 0x100).setLmem (Memory.writeBytes [] 0x103 [0xab])) 0x8000 0x18120003))
    t.x 1 = 0xAB ∧ t.cp = 0x8004 := by decide

/-- R462: `LD8 X1, -1(X2)` (EA = 2^64-1, no wrap). -/
theorem test_ld8_dataFault :
    let t := after (step (fetching (blank.setX 2 0x0) 0x8000 0x1812ffff))
    t.run = .error ∧ t.errcode = .dataFault ∧ t.errcp = 0x8000 ∧ t.errcmd = 0x1812FFFF := by decide

/-- R463: `LD16 X1, (X2)`. -/
theorem test_ld16 :
    let t := after (step (fetching ((blank.setX 2 0x201).setLmem (Memory.writeBytes [] 0x200 [0x01, 0x02, 0x03, 0x04, 0x05, 0x06, 0x07, 0x08])) 0x8000 0x19120000))
    t.x 1 = 0x302 ∧ t.cp = 0x8004 := by decide

/-- R464: `LD32 X1, (X2)`. -/
theorem test_ld32_dataFault :
    let t := after (step (fetching (blank.setX 2 0xFFFE) 0x0 0x1a120000))
    t.run = .error ∧ t.errcode = .dataFault ∧ t.errcp = 0x0 ∧ t.errcmd = 0x1A120000 := by decide

/-- R464: `LD32 X1, (X2)`. -/
theorem test_ld32_other :
    let t := after (step (fetching ((blank.setX 2 0xFFFC).setLmem (Memory.writeBytes [] 0xFFFC [0x01, 0x02, 0x03, 0x04])) 0x8000 0x1a120000))
    t.x 1 = 0x4030201 ∧ t.cp = 0x8004 := by decide

/-- R465: `LD64 X1, (X2)`. -/
theorem test_ld64 :
    let t := after (step (fetching ((blank.setX 2 0x200).setLmem (Memory.writeBytes [] 0x200 [0x01, 0x02, 0x03, 0x04, 0x05, 0x06, 0x07, 0x08])) 0x8000 0x1b120000))
    t.x 1 = 0x807060504030201 ∧ t.cp = 0x8004 := by decide

/-- R466: `ST8 X1, (X2)`. -/
theorem test_st8 :
    let t := after (step (fetching ((blank.setX 1 0x1FF).setX 2 0x100) 0x8000 0x1c120000))
    t.lmem.readBytes 0x100 1 = [0xff] ∧ t.cp = 0x8004 := by decide

/-- R467: `ST16 X1, (X2)`. -/
theorem test_st16 :
    let t := after (step (fetching ((blank.setX 1 0xAABBCCDD).setX 2 0x101) 0x8000 0x1d120000))
    t.lmem.readBytes 0x101 2 = [0xdd, 0xcc] ∧ t.cp = 0x8004 := by decide

/-- R468: `ST32 X1, (X2)`. -/
theorem test_st32 :
    let t := after (step (fetching ((blank.setX 1 0xAABBCCDD).setX 2 0x101) 0x8000 0x1e120000))
    t.lmem.readBytes 0x101 4 = [0xdd, 0xcc, 0xbb, 0xaa] ∧ t.cp = 0x8004 := by decide

/-- R469: `ST64 X1, -8(X2)`. -/
theorem test_st64 :
    let t := after (step (fetching ((blank.setX 1 0x1122334455667788).setX 2 0x108) 0x8000 0x1f12fff8))
    t.lmem.readBytes 0x100 8 = [0x88, 0x77, 0x66, 0x55, 0x44, 0x33, 0x22, 0x11] ∧ t.cp = 0x8004 := by decide

/-- R469: `ST64 X1, (X2)` (nothing written). -/
theorem test_st64_dataFault :
    let t := after (step (fetching ((blank.setX 1 0x1).setX 2 0xFFF9) 0x8000 0x1f120000))
    t.run = .error ∧ t.errcode = .dataFault ∧ t.errcp = 0x8000 ∧ t.errcmd = 0x1F120000 := by decide

/-- R252: `WADD.32 X3, X1, X2`. -/
theorem test_wadd :
    let t := after (step (fetching ((blank.setX 1 0x123400000001).setX 2 0xFFFFFFFF00000001) 0x8000 0x20312000))
    t.x 3 = 0x2 ∧ t.cp = 0x8004 := by decide

/-- R252: `WADD.64 X1, X1, X2` (64-bit wrap, rd = ra). -/
theorem test_wadd_other :
    let t := after (step (fetching ((blank.setX 1 0xFFFFFFFFFFFFFFFF).setX 2 0x1) 0x8000 0x20112001))
    t.x 1 = 0x0 ∧ t.cp = 0x8004 := by decide

/-- R253: `WROTR.32 X3, X1, 8`. -/
theorem test_wrotr :
    let t := after (step (fetching (blank.setX 1 0x12345678) 0x8000 0x21310800))
    t.x 3 = 0x78123456 ∧ t.cp = 0x8004 := by decide

/-- R253: `WROTR.32 X3, X1, 0` (amount 0 at w = 32 clears bits 63:32). -/
theorem test_wrotr_other :
    let t := after (step (fetching (blank.setX 1 0xFFFF00000000ABCD) 0x8000 0x21310000))
    t.x 3 = 0xABCD ∧ t.cp = 0x8004 := by decide

/-- R254: `WROTL.32 X3, X1, 8`. -/
theorem test_wrotl :
    let t := after (step (fetching (blank.setX 1 0x12345678) 0x8000 0x22310800))
    t.x 3 = 0x34567812 ∧ t.cp = 0x8004 := by decide

/-- R254: `WROTL.64 X3, X1, 1`. -/
theorem test_wrotl_other :
    let t := after (step (fetching (blank.setX 1 0x8000000000000000) 0x8000 0x22310101))
    t.x 3 = 0x1 ∧ t.cp = 0x8004 := by decide

/-- R255: `WROTRV.32 X3, X1, X2`. -/
theorem test_wrotrv :
    let t := after (step (fetching ((blank.setX 1 0x12345678).setX 2 0x24) 0x8000 0x23312000))
    t.x 3 = 0x81234567 ∧ t.cp = 0x8004 := by decide

/-- R255: `WROTRV.64 X3, X1, X2` (amount 2^40 mod 64 = 0). -/
theorem test_wrotrv_other :
    let t := after (step (fetching ((blank.setX 1 0x12345678).setX 2 0x10000000000) 0x8000 0x23312001))
    t.x 3 = 0x12345678 ∧ t.cp = 0x8004 := by decide

/-- R256: `WROTLV.64 X3, X1, X2`. -/
theorem test_wrotlv :
    let t := after (step (fetching ((blank.setX 1 0x8000000000000001).setX 2 0x41) 0x8000 0x24312001))
    t.x 3 = 0x3 ∧ t.cp = 0x8004 := by decide

/-- R257: `WBSWAP.64 X3, X1`. -/
theorem test_wbswap :
    let t := after (step (fetching (blank.setX 1 0x102030405060708) 0x8000 0x25310001))
    t.x 3 = 0x807060504030201 ∧ t.cp = 0x8004 := by decide

/-- R257: `WBSWAP.32 X3, X1`. -/
theorem test_wbswap_other :
    let t := after (step (fetching (blank.setX 1 0x102030405060708) 0x8000 0x25310000))
    t.x 3 = 0x8070605 ∧ t.cp = 0x8004 := by decide

/-- R258: `WCH.32 X4, X1, X2, X3`. -/
theorem test_wch :
    let t := after (step (fetching (((blank.setX 1 0x510E527F).setX 2 0x9B05688C).setX 3 0x1F83D9AB) 0x8000 0x26412300))
    t.x 4 = 0x1F85C98C ∧ t.cp = 0x8004 := by decide

/-- R258: `WCH.64 X4, X1, X2, X3`. -/
theorem test_wch_other :
    let t := after (step (fetching (((blank.setX 1 0x510E527FADE682D1).setX 2 0x9B05688C2B3E6C1F).setX 3 0x1F83D9ABFB41BD6B) 0x8000 0x26412301))
    t.x 4 = 0x1F85C98C7B273D3B ∧ t.cp = 0x8004 := by decide

/-- R259: `WMAJ.32 X4, X1, X2, X3`. -/
theorem test_wmaj :
    let t := after (step (fetching (((blank.setX 1 0x6A09E667).setX 2 0xBB67AE85).setX 3 0x3C6EF372) 0x8000 0x27412300))
    t.x 4 = 0x3A6FE667 ∧ t.cp = 0x8004 := by decide

/-- R259: `WMAJ.64 X4, X1, X2, X3`. -/
theorem test_wmaj_other :
    let t := after (step (fetching (((blank.setX 1 0x6A09E667F3BCC908).setX 2 0xBB67AE8584CAA73B).setX 3 0x3C6EF372FE94F82B) 0x8000 0x27412301))
    t.x 4 = 0x3A6FE667F69CE92B ∧ t.cp = 0x8004 := by decide

/-- R260: `WBSIG0.32 X3, X1`. -/
theorem test_wbsig0 :
    let t := after (step (fetching (blank.setX 1 0x6A09E667) 0x8000 0x28310000))
    t.x 3 = 0xCE20B47E ∧ t.cp = 0x8004 := by decide

/-- R260: `WBSIG0.64 X3, X1`. -/
theorem test_wbsig0_other :
    let t := after (step (fetching (blank.setX 1 0x6A09E667F3BCC908) 0x8000 0x28310001))
    t.x 3 = 0x8C4DB56AAC80C2A ∧ t.cp = 0x8004 := by decide

/-- R261: `WBSIG1.32 X3, X1`. -/
theorem test_wbsig1 :
    let t := after (step (fetching (blank.setX 1 0x510E527F) 0x8000 0x29310000))
    t.x 3 = 0x3587272B ∧ t.cp = 0x8004 := by decide

/-- R261: `WBSIG1.64 X3, X1`. -/
theorem test_wbsig1_other :
    let t := after (step (fetching (blank.setX 1 0x510E527FADE682D1) 0x8000 0x29310001))
    t.x 3 = 0x9427E33BB5C9DBCA ∧ t.cp = 0x8004 := by decide

/-- R262: `WSSIG0.32 X3, X1`. -/
theorem test_wssig0 :
    let t := after (step (fetching (blank.setX 1 0x62636380) 0x8000 0x2a310000))
    t.x 3 = 0xD468B22F ∧ t.cp = 0x8004 := by decide

/-- R262: `WSSIG0.64 X3, X1`. -/
theorem test_wssig0_other :
    let t := after (step (fetching (blank.setX 1 0x6263638000000000) 0x8000 0x2a310001))
    t.x 3 = 0x3197146480000000 ∧ t.cp = 0x8004 := by decide

/-- R263: `WSSIG1.32 X3, X1`. -/
theorem test_wssig1 :
    let t := after (step (fetching (blank.setX 1 0x18) 0x8000 0x2b310000))
    t.x 3 = 0xF0000 ∧ t.cp = 0x8004 := by decide

/-- R263: `WSSIG1.64 X3, X1`. -/
theorem test_wssig1_other :
    let t := after (step (fetching (blank.setX 1 0x18) 0x8000 0x2b310001))
    t.x 3 = 0x30000000000C0 ∧ t.cp = 0x8004 := by decide

/-- R202: `NLD.64 N0, (X1)`. -/
theorem test_nld :
    let t := after (step (fetching ((blank.setX 1 0x40).setLmem (Memory.writeBytes [] 0x40 [0x08, 0x07, 0x06, 0x05, 0x04, 0x03, 0x02, 0x01])) 0x8000 0x30010010))
    t.n 0 = 0x102030405060708 ∧ t.cp = 0x8004 := by decide

/-- R202: `NLD.64 N0, (X1)` (range: 0xFFFC + 8 > 65536). -/
theorem test_nld_dataFault :
    let t := after (step (fetching (blank.setX 1 0xFFFC) 0x8000 0x30010010))
    t.run = .error ∧ t.errcode = .dataFault ∧ t.errcp = 0x8000 ∧ t.errcmd = 0x30010010 := by decide

/-- R203: `NST.64 N0, (X1)`. -/
theorem test_nst :
    let t := after (step (fetching ((blank.setX 1 0x40).setN 0 0x102030405060708) 0x8000 0x31010010))
    t.lmem.readBytes 0x40 8 = [0x08, 0x07, 0x06, 0x05, 0x04, 0x03, 0x02, 0x01] ∧ t.cp = 0x8004 := by decide

/-- R203: `NST.32 N0, (X1)` (bits above SIZE not stored). -/
theorem test_nst_other :
    let t := after (step (fetching ((blank.setX 1 0x40).setN 0 (2 ^ 512 - 1)) 0x8000 0x31010000))
    t.lmem.readBytes 0x40 4 = [0xff, 0xff, 0xff, 0xff] ∧ t.cp = 0x8004 := by decide

/-- R204: `NCLR N3`. -/
theorem test_nclr :
    let t := after (step (fetching (blank.setN 3 0x3039) 0x8000 0x32300000))
    t.n 3 = 0x0 ∧ t.cp = 0x8004 := by decide

/-- R205: `NMOV.32 N1, N0`. -/
theorem test_nmov :
    let t := after (step (fetching (blank.setN 0 0xAABBCCDD11223344) 0x8000 0x33100000))
    t.n 1 = 0x11223344 ∧ t.cp = 0x8004 := by decide

/-- R205: `NMOV.256 N0, N0` (in-place truncation). -/
theorem test_nmov_other :
    let t := after (step (fetching (blank.setN 0 0x1000000000000000000000000000000000000000000000000000000000000000000000000005) 0x8000 0x33000070))
    t.n 0 = 0x5 ∧ t.cp = 0x8004 := by decide

/-- R206: `NADDS.64.32 N0, X1` (carry crosses a word). -/
theorem test_nadds :
    let t := after (step (fetching ((blank.setX 1 0x1).setN 0 0xFFFFFFFF) 0x8000 0x34010018))
    t.n 0 = 0x100000000 ∧ t.cp = 0x8004 := by decide

/-- R206: `NADDS.512.64 N0, X1` (wrap at 512 bits). -/
theorem test_nadds_other :
    let t := after (step (fetching ((blank.setX 1 0x1).setN 0 (2 ^ 512 - 1)) 0x8000 0x340100fc))
    t.n 0 = 0x0 ∧ t.cp = 0x8004 := by decide

/-- R207: `NMULS.64.32 N2, X3`. -/
theorem test_nmuls :
    let t := after (step (fetching ((blank.setX 3 0xFFFFFFFF).setN 2 0xFFFFFFFFFFFFFFFF) 0x8000 0x35230018))
    t.n 2 = 0xFFFFFFFF00000001 ∧ t.cp = 0x8004 := by decide

/-- R207: `NMULS.512.64 N0, X1` (overflow wraps). -/
theorem test_nmuls_other :
    let t := after (step (fetching ((blank.setX 1 0x2).setN 0 (2 ^ 511)) 0x8000 0x350100fc))
    t.n 0 = 0x0 ∧ t.cp = 0x8004 := by decide

/-- R208: `NDIVS.64.8 N0, X2, X2` (ra = rb: divisor read first). -/
theorem test_ndivs :
    let t := after (step (fetching ((blank.setX 2 0x7).setN 0 0x64) 0x8000 0x36022010))
    t.x 2 = 0x2 ∧ t.n 0 = 0xE ∧ t.cp = 0x8004 := by decide

/-- R208: `NDIVS.64.8 N0, X1, X2` (nothing changes). -/
theorem test_ndivs_divZero :
    let t := after (step (fetching ((blank.setX 2 0x0).setN 0 0x3E8) 0x8000 0x36012010))
    t.run = .error ∧ t.errcode = .divZero ∧ t.errcp = 0x8000 ∧ t.errcmd = 0x36012010 := by decide

/-- R209: `NISZ.32 N0`. -/
theorem test_nisz :
    let t := after (step (fetching (blank.setN 0 0x100000000) 0x8000 0x37000000))
    t.z = true ∧ t.cp = 0x8004 := by decide

/-- R209: `NISZ.64 N0`. -/
theorem test_nisz_other :
    let t := after (step (fetching ((blank.setN 0 0x100000000).setZ true) 0x8000 0x37000010))
    t.z = false ∧ t.cp = 0x8004 := by decide

/-- R210: `NEQ.32 N1, N2`. -/
theorem test_neq :
    let t := after (step (fetching ((blank.setN 1 0x500000007).setN 2 0x900000007) 0x8000 0x38012000))
    t.z = true ∧ t.cp = 0x8004 := by decide

/-- R210: `NEQ.64 N1, N2`. -/
theorem test_neq_other :
    let t := after (step (fetching (((blank.setN 1 0x500000007).setN 2 0x900000007).setZ true) 0x8000 0x38012010))
    t.z = false ∧ t.cp = 0x8004 := by decide

/-- R211: `NBSWAP.64 N1, N0`. -/
theorem test_nbswap :
    let t := after (step (fetching (blank.setN 0 0x102030405060708) 0x8000 0x39100010))
    t.n 1 = 0x807060504030201 ∧ t.cp = 0x8004 := by decide

/-- R211: `NBSWAP.96 N1, N0` (96 bits, 12 bytes). -/
theorem test_nbswap_other :
    let t := after (step (fetching (blank.setN 0 0x102030405060708) 0x8000 0x39100020))
    t.n 1 = 0x80706050403020100000000 ∧ t.cp = 0x8004 := by decide

/-- R212: `NBSWAPW.64.32 N1, N0`. -/
theorem test_nbswapw :
    let t := after (step (fetching (blank.setN 0 0x102030405060708) 0x8000 0x3a100018))
    t.n 1 = 0x403020108070605 ∧ t.cp = 0x8004 := by decide

/-- R212: `NBSWAPW.64.16 N1, N0`. -/
theorem test_nbswapw_other :
    let t := after (step (fetching (blank.setN 0 0x102030405060708) 0x8000 0x3a100014))
    t.n 1 = 0x201040306050807 ∧ t.cp = 0x8004 := by decide

/-- R213: `NGETW.16 X1, N0, 1`. -/
theorem test_ngetw :
    let t := after (step (fetching (blank.setN 0 0x44332211) 0x8000 0x3b100104))
    t.x 1 = 0x4433 ∧ t.cp = 0x8004 := by decide

/-- R213: `NGETW.8 X1, N0, 64` (idx = 512/8). -/
theorem test_ngetw_badIndex :
    let t := after (step (fetching blank 0x8000 0x3b104000))
    t.run = .error ∧ t.errcode = .badIndex ∧ t.errcp = 0x8000 ∧ t.errcmd = 0x3B104000 := by decide

/-- R214: `NSETW.32 N0, X1, 2`. -/
theorem test_nsetw :
    let t := after (step (fetching ((blank.setX 1 0xAABBCCDDEEFF0011).setN 0 0x1111111122222222) 0x8000 0x3c010208))
    t.n 0 = 0xEEFF00111111111122222222 ∧ t.cp = 0x8004 := by decide

/-- R214: `NSETW.64 N0, X1, 0` (upper bits kept). -/
theorem test_nsetw_other :
    let t := after (step (fetching ((blank.setX 1 0x0).setN 0 (2 ^ 512 - 1)) 0x8000 0x3c01000c))
    t.n 0 = 0xFFFFFFFFFFFFFFFFFFFFFFFFFFFFFFFFFFFFFFFFFFFFFFFFFFFFFFFFFFFFFFFFFFFFFFFFFFFFFFFFFFFFFFFFFFFFFFFFFFFFFFFFFFFFFFFF0000000000000000 ∧ t.cp = 0x8004 := by decide

/-- R302: `HINIT SHA256` (restart from ACCUM). -/
theorem test_hinit :
    let t := after (step (fetching (((blank.setHe (.init .rmd160)).setX 2 5).setHe ((((blank.setHe (.init .rmd160)).setX 2 5)).he.update [0, 0, 0, 0, 0] 5)) 0x8000 0x40000000))
    t.he.state = .empty ∧ t.he.mode = .sha256 ∧ t.he.off = 0 ∧ t.he.total = 0 ∧ t.cp = 0x8004 := by decide

/-- R302: 0x40000007 (mode 7). -/
theorem test_hinit_illegal :
    let t := after (step (fetching blank 0x8000 0x40000007))
    t.run = .error ∧ t.errcode = .illegal ∧ t.errcp = 0x8000 ∧ t.errcmd = 0x40000007 := by decide

/-- R303: `HUPD X1, X2`. -/
theorem test_hupd :
    let t := after (step (fetching ((((blank.setX 1 0x100).setX 2 0x3).setLmem (Memory.writeBytes [] 0x100 [0x61, 0x62, 0x63])).setHe (.init .sha256)) 0x8000 0x41012000))
    t.he.state = .accum ∧ t.he.off = 3 ∧ t.he.total = 3 ∧ t.cp = 0x8004 := by decide

/-- R303: `HUPD X1, X2` (FINAL and out of range: HASH_STATE wins). -/
theorem test_hupd_hashState :
    let t := after (step (fetching (((((blank.setX 1 0xFFFF).setX 2 0x9).setHe (.init .sha256)).setX 3 0x100).setHe (((((blank.setX 1 0xFFFF).setX 2 0x9).setHe (.init .sha256)).setX 3 0x100)).he.finalize) 0x8000 0x41012000))
    t.run = .error ∧ t.errcode = .hashState ∧ t.errcp = 0x8000 ∧ t.errcmd = 0x41012000 := by decide

/-- R304: `HDIG X3` (from EMPTY). -/
theorem test_hdig :
    let t := after (step (fetching ((blank.setX 3 0x200).setHe (.init .sha256)) 0x8000 0x42030000))
    t.lmem.readBytes 0x200 32 = [0xe3, 0xb0, 0xc4, 0x42, 0x98, 0xfc, 0x1c, 0x14, 0x9a, 0xfb, 0xf4, 0xc8, 0x99, 0x6f, 0xb9, 0x24, 0x27, 0xae, 0x41, 0xe4, 0x64, 0x9b, 0x93, 0x4c, 0xa4, 0x95, 0x99, 0x1b, 0x78, 0x52, 0xb8, 0x55] ∧ t.he.state = .final ∧ t.he.off = 64 ∧ t.cp = 0x8004 := by decide

/-- R304: `HDIG X3` (0xFFE1 + 32 > 65536; context stays EMPTY). -/
theorem test_hdig_dataFault :
    let t := after (step (fetching ((blank.setX 3 0xFFE1).setHe (.init .sha256)) 0x8000 0x42030000))
    t.run = .error ∧ t.errcode = .dataFault ∧ t.errcp = 0x8000 ∧ t.errcmd = 0x42030000 := by decide

/-- R305: `HSTAT X4, OFF` (FINAL sentinel B = 128). -/
theorem test_hstat :
    let t := after (step (fetching ((blank.setHe (.init .sha384)).setHe ((blank.setHe (.init .sha384))).he.finalize) 0x8000 0x43400001))
    t.x 4 = 0x80 ∧ t.cp = 0x8004 := by decide

/-- R305: `HSTAT X4, MODE`. -/
theorem test_hstat_other :
    let t := after (step (fetching (blank.setHe (.init .sha512t224)) 0x8000 0x43400002))
    t.x 4 = 0x5 ∧ t.cp = 0x8004 := by decide

/-- R316: `HWIPE`. -/
theorem test_hwipe :
    let t := after (step (fetching (blank.setHe (.init .sha224)) 0x8000 0x44000000))
    t.he.state = .uninit ∧ t.he.mode = .sha256 ∧ t.cp = 0x8004 := by decide
/-! ## Digests, errors, the host (95_test_vectors.md §2.1, §2.6, §2.7) -/

/-- 95_test_vectors.md §2.1: SHA-512 and SHA-512/256 of "abc", the first bytes. -/
theorem test_sha512_abc :
    ((((HashCtx.init .sha512).update [0x61, 0x62, 0x63] 3).finalize).output).take 8 =
      [0xdd, 0xaf, 0x35, 0xa1, 0x93, 0x61, 0x7a, 0xba] := by decide

/-- 95_test_vectors.md §2.1: RIPEMD-160 of "abc". -/
theorem test_rmd160_abc :
    (((HashCtx.init .rmd160).update [0x61, 0x62, 0x63] 3).finalize).output =
      [0x8e, 0xb2, 0x08, 0xf7, 0xe0, 0x5d, 0x98, 0x7a, 0x9b, 0x04, 0x4a, 0x8e, 0x98, 0xc6, 0xb0, 0x87, 0xf1, 0x5a,
       0x0b, 0xfc] := by decide

/-- 95_test_vectors.md §2.1: SHA-224 of 63 bytes 0x61, the length that needs a second final block. -/
theorem test_sha224_extra_block :
    ((((HashCtx.init .sha224).update (List.replicate 63 0x61) 63).finalize).output).take 4 =
      [0x1d, 0x4e, 0x05, 0x1f] := by decide

/-- 95_test_vectors.md §2.6: ABORTED before FETCH_FAULT; FETCH_FAULT before ILLEGAL. -/
theorem test_error_priority :
    let t := after (step { running with abortReq := true, cp := 0x8002 })
    let u := after (step { running with cp := 0x8002 })
    t.errcode = .aborted ∧ t.errcp = 0x8002 ∧ t.errcmd = 0 ∧ t.abortReq = false ∧
    u.errcode = .fetchFault ∧ u.errcmd = 0 ∧
    (after (step (fetching blank 0x8000 0x3601200C))).errcode = .illegal := by decide

/-- 95_test_vectors.md §2.7, after reset. -/
theorem test_host_reads_after_reset :
    reads blank 0x000 = some 0x51484301 ∧ reads blank 0x004 = some 0 ∧ reads blank 0x008 = some 0 ∧
    reads blank 0x018 = some 0x00010000 ∧ reads blank 0x01C = some 0x7F100410 ∧ reads blank 0x020 = some 0 ∧
    reads blank 0x100 = some 0 ∧ reads blank 0x20000 = some 0 := by decide

/-- 95_test_vectors.md §2.7: an LMEM write by the host and its read. -/
theorem test_host_lmem :
    let t := after (step (hostWrites blank 0x10100 0x00636261))
    t.lmem.readBytes 0x100 4 = [0x61, 0x62, 0x63, 0x00] ∧ reads t 0x10100 = some 0x00636261 := by decide

/-- 95_test_vectors.md §2.7: START with IRQ_EN; LMEM and CP are kept from the host while RUNNING. -/
theorem test_host_while_running :
    let t := after (step (hostWrites blank 0x004 0x00000009))
    let u := after (step (hostReads t 0x10100))
    let v := after (step (hostWrites u 0x00C 0x40))
    t.run = .running ∧ t.irqEn = true ∧ reads t 0x008 = some 0x00000001 ∧
    u.readData = some 0 ∧ v.cp = 0 ∧ reads v 0x008 = some 0x00000009 := by decide

/-- 95_test_vectors.md §2.7: abort of a loop, and what STATUS reads. -/
theorem test_host_abort :
    let s := fetching blank 0 0x03000000
    let t := after (step (hostWrites s 0x004 0x00000002))
    let u := after (step t)
    (after (step s)).cp = 0 ∧ t.abortReq = true ∧ u.abortReq = false ∧ u.irq = true ∧
    reads u 0x008 = some 0x00000707 ∧ (after (step (hostWrites u 0x004 2))).abortReq = false := by decide

/-- 95_test_vectors.md §2.7: SOFT_RESET wins over START and IRQ_EN, and keeps LMEM. -/
theorem test_host_soft_reset :
    let t := after (step (hostWrites (fetching blank 0x40 0x02000000) 0x004 0x0000000D))
    t.run = .idle ∧ t.irqEn = false ∧ t.cp = 0 ∧ reads t 0x10040 = some 0x02000000 := by decide

/-- 93_implementation_defined.md U13: an unaligned host access is refused. -/
theorem test_host_unaligned : refuses (step (hostReads blank 0x001)) = true := by decide

/-- The word placed by `withFetchWord` is the next command run, from the state after reset. -/
theorem test_withFetchWord_runs :
    (after (step (State.reset.withFetchWord 32 0x10101234))).x 1 = 0x1234 ∧
    (after (Sys2Proof.core.step (State.reset.withFetchWord 32 0x02000000))).run = .halted := by decide

/-! ## Witnesses: concrete states and operands that meet the hypotheses of the statements -/

theorem witness_DecodeEncodeRoundTrip :
    ∀ i ∈ [Instr.wrotr .w32 15 15 31, .nadds 15 .ww64 3 15, .ndivs 0 .ww32 3 15 15, .nsetw .ww8 3 15 255,
      .hinit .rmd160, .jmp 0xFFFF, .st64 15 15 0x8000], i.wellFormed = true := by decide

theorem witness_EncodeDecodeRoundTrip : decode 0x40000006 = .ok (.hinit .rmd160) := rfl

/-- For the statements about a fetch: every word can be the one about to be fetched. -/
theorem witness_AboutToFetch (w : Word32) :
    (fetching blank 0x8000 w).AboutToFetch ∧ (fetching blank 0x8000 w).fetchWord = w := by
  refine ⟨⟨rfl, rfl, rfl, ?_⟩, ?_⟩
  · show (0x8000 : Word32).toNat % 4 = 0 ∧ (0x8000 : Word32).toNat + 4 ≤ 65536
    decide
  · have h := Memory.readBytes_writeBytes State.reset.lmem (0x8000 : Word32).toNat (bytesOfWord w)
    show wordOfBytes ((State.reset.lmem.writeBytes (0x8000 : Word32).toNat (bytesOfWord w)).readBytes (0x8000 : Word32).toNat 4) = w
    rw [show 4 = (bytesOfWord w).length from rfl, h, wordOfBytes_bytesOfWord]

theorem witness_EveryWordIsOneCommandOrIllegal :
    (after (step (fetching blank 0x8000 0))).errcode = .illegal ∧ opOf 0 = 0 ∧
    (0x06 ≤ (opOf 0x06000000).toNat ∧ (opOf 0x0FFFFFFF).toNat ≤ 0x0F) ∧ 0x45 ≤ (opOf 0xFF000000).toNat := by decide

theorem witness_ReservedBitsAreIllegal :
    (opRows[0] ∈ opRows ∧ opRows[26] ∈ opRows) ∧
    (opOf 0x01000001 = opOf opRows[0].pattern ∧ opRows[0].mask.getLsbD 0 = true ∧
      (0x01000001 : Word32).getLsbD 0 = true) ∧
    (opOf 0x01800000 = opOf opRows[0].pattern ∧ opRows[0].mask.getLsbD 23 = true ∧
      (0x01800000 : Word32).getLsbD 23 = true) ∧
    (opOf 0x28310002 = opOf opRows[26].pattern ∧ opRows[26].mask.getLsbD 1 = true ∧
      (0x28310002 : Word32).getLsbD 1 = true) :=
  ⟨⟨List.getElem_mem _, List.getElem_mem _⟩, by decide⟩

theorem witness_IllegalFieldValues :
    ((opOf 0x30410010).toNat = 0x30 ∧ 4 ≤ (rdOf 0x30410010).toNat) ∧
    ((opOf 0x331F0000).toNat = 0x33 ∧ 4 ≤ (raOf 0x331F0000).toNat) ∧
    ((opOf 0x38014010).toNat = 0x38 ∧ 4 ≤ (rbOf 0x38014010).toNat) ∧
    ((opOf 0x3401000C).toNat = 0x34 ∧
      32 * ((szOf 0x3401000C).toNat + 1) % (8 * 2 ^ (wwOf 0x3401000C).toNat) ≠ 0) ∧
    ((opOf 0x21312000).toNat = 0x21 ∧ wOf 0x21312000 = 0 ∧ 32 ≤ (sh6Of 0x21312000).toNat) ∧
    ((opOf 0x40000007).toNat = 0x40 ∧ (modeOf 0x40000007).toNat = 7) ∧
    512 / NumWidth.ww8.bits ≤ (64 : Fin 256).val ∧ 512 / NumWidth.ww64.bits ≤ (8 : Fin 256).val := by decide

theorem witness_IllegalFieldValues_index :
    decode 0x3B104000 = .ok (.ngetw .ww8 1 0 64) ∧ decode 0x3C01080C = .ok (.nsetw .ww64 0 1 8) := ⟨rfl, rfl⟩

theorem witness_StepRunsDecodedCommand :
    let s := fetching blank 0x8000 0x01000000
    let s' := s.setTurns [.sequencer]
    (s.turns = [] ∧ s.run = .running ∧ s.abortReq = false ∧ s.canFetch ∧ decodeBytes s.fetchBytes = .ok .nop) ∧
    (s'.turns = .sequencer :: [] ∧ s'.run = .running ∧ s'.abortReq = false ∧ s'.canFetch ∧
      decodeBytes s'.fetchBytes = .ok .nop) :=
  ⟨⟨rfl, rfl, rfl, by decide, rfl⟩, ⟨rfl, rfl, rfl, by decide, rfl⟩⟩

theorem witness_FetchFaults :
    ((0xFFFE : Word32).toNat % 4 ≠ 0 ∧ blank.cfg.lmemBytes < (0x10000 : Word32).toNat + 4) ∧
    (let s := hostWrites blank 0x00C 2
     step s = .next (after (step s)) ∧ s.cp.toNat % 4 = 0 ∧ (after (step s)).cp.toNat % 4 ≠ 0) ∧
    (let s := fetching blank 0xFFFC 0x01000000
     step s = .next (after (step s)) ∧ s.cp.toNat + 4 ≤ s.cfg.lmemBytes ∧ (after (step s)).cp.toNat = 0x10000) ∧
    (let s := fetching blank 0 0x0300FFFF
     step s = .next (after (step s)) ∧ s.cp.toNat + 4 ≤ s.cfg.lmemBytes ∧
      s.cfg.lmemBytes < (after (step s)).cp.toNat + 4) :=
  ⟨by decide, ⟨rfl, by decide⟩, ⟨rfl, by decide⟩, ⟨rfl, by decide⟩⟩

theorem witness_ErrorsArePrecise :
    (let s := { running with abortReq := true }
     step s = .next (after (step s)) ∧ (after (step s)).run = .error) ∧
    (let s := { running with cp := 2 }
     step s = .next (after (step s)) ∧ (after (step s)).run = .error) ∧
    (let s := fetching blank 0x8000 0x1812FFFF
     step s = .next (after (step s)) ∧ (after (step s)).run = .error) :=
  ⟨⟨rfl, by decide⟩, ⟨rfl, by decide⟩, ⟨rfl, by decide⟩⟩

theorem witness_AbortIsTakenBeforeTheFetch :
    let s := hostWrites running 0x004 2
    s.turns = .host (.write (s.cfg.hostBase + 0x004) 2) :: [] ∧ s.run = .running ∧
    (2 : Word32).getLsbD 1 = true ∧ (2 : Word32).getLsbD 2 = false ∧ (after (step s)).turns = [] ∧
    (after (step s)).run = .running ∧ (after (step s)).abortReq = true ∧
    (s.abortReq = true → s.run = .running) := by decide

theorem witness_StoppedSequencerDoesNothing :
    blank.run ≠ .running ∧ blank.turns = [] ∧ (blank.setTurns [.sequencer]).turns = .sequencer :: [] := by decide

theorem witness_ErrorsOfEachCommand :
    (Instr.ld8 1 2 0xFFFF).wellFormed = true ∧ running.run = .running ∧
    exec (.ld8 1 2 0xFFFF) running = .next (after (exec (.ld8 1 2 0xFFFF) running)) ∧
    (after (exec (.ld8 1 2 0xFFFF) running)).run = .error ∧
    exec (.hupd 1 2) running = .next (after (exec (.hupd 1 2) running)) ∧ ¬ hashStateAllows running (.hupd 1 2) :=
  ⟨rfl, rfl, rfl, by decide, rfl, by unfold hashStateAllows; decide⟩

theorem witness_CompletionInterrupt :
    (let s := fetching blank 0x8000 0x02000000
     s.run = .running ∧ s.irq = false ∧ (after (step s)).run = .halted ∧ (after (step s)).irq = true) ∧
    (let s := hostWrites { blank with irq := true } 0x008 4
     s.irq = true ∧ (after (step s)).irq = false) ∧
    (let s := hostWrites { blank with irq := true } 0x004 4
     s.irq = true ∧ (after (step s)).irq = false) ∧
    (let s : State := { blank with irq := true, turns := [.powerOn [(0, 1)]] }
     s.irq = true ∧ (after (step s)).irq = false) := by decide

theorem witness_IllFormedTermsTakeIllegal :
    (Instr.wrotr .w32 3 1 32).wellFormed = false ∧ (Instr.nmuls 0 .ww64 0 1).wellFormed = false := by decide

theorem witness_NextCommandPointer :
    let s := { running with cp := 0xFFFFFFFC }
    (exec (.jmp 0x8000) s = .next (after (exec (.jmp 0x8000) s)) ∧ takesBranch s (.jmp 0x8000) = true ∧
      (after (exec (.jmp 0x8000) s)).run ≠ .error) ∧
    (exec .nop s = .next (after (exec .nop s)) ∧ takesBranch s .nop = false ∧ (after (exec .nop s)).run ≠ .error) ∧
    (exec (.hdig 0) s = .next (after (exec (.hdig 0) s)) ∧ (after (exec (.hdig 0) s)).run = .error) :=
  ⟨⟨rfl, by decide⟩, ⟨rfl, by decide⟩, ⟨rfl, by decide⟩⟩

/-- For the statements whose hypothesis is that a command answers a next state. -/
theorem witness_commandsAnswerNext :
    ∀ i ∈ [Instr.ndivs 1 .ww8 0 1 2, .st64 1 2 0, .hinit .rmd160, .hwipe, .addi 1 1 0xFFFF, .tstx 3, .nisz 0 1,
      .neq 15 0 1, .nsetw .ww8 0 1 63], refuses (exec i running) = false := by decide

theorem witness_OnlyDestinationRegistersChange :
    exec (.movi 1 7) running = .next (after (exec (.movi 1 7) running)) ∧ (2 : XReg) ∉ writesX (.movi 1 7) ∧
    (0 : NReg) ∉ writesN (.movi 1 7) := ⟨rfl, by decide⟩

theorem witness_FlagZ :
    exec .nop running = .next (after (exec .nop running)) ∧ writesZ .nop = false ∧
    exec (.addi 1 1 0) running = .next (after (exec (.addi 1 1 0) running)) ∧
    exec (.tstx 1) running = .next (after (exec (.tstx 1) running)) ∧
    exec (.nisz 0 0) running = .next (after (exec (.nisz 0 0) running)) ∧
    exec (.neq 0 0 1) running = .next (after (exec (.neq 0 0 1) running)) ∧
    (∀ off, Instr.nop ≠ .jz off ∧ Instr.nop ≠ .jnz off) :=
  ⟨rfl, rfl, rfl, rfl, rfl, rfl, fun _ => ⟨nofun, nofun⟩⟩

theorem witness_OnlyHashCommandsWriteTheContext :
    exec (.hstat 1 .off) running = .next (after (exec (.hstat 1 .off) running)) ∧
    writesHash (.hstat 1 .off) = false ∧ (∀ m, Instr.hstat 1 .off ≠ .hinit m) ∧ Instr.hstat 1 .off ≠ .hwipe ∧
    exec (.hdig 0) running = .next (after (exec (.hdig 0) running)) ∧ (∃ ra, Instr.hdig 0 = .hdig ra) :=
  ⟨rfl, rfl, nofun, nofun, rfl, 0, rfl⟩

theorem witness_OnlyStoredBytesChange :
    exec (.st16 1 2 8) running = .next (after (exec (.st16 1 2 8) running)) ∧
    ¬ storesAt running (.st16 1 2 8) 10 ∧ ¬ storesAt running (.st16 1 2 8) 7 ∧
    exec (.st16 1 2 0xFFFF) running = .next (after (exec (.st16 1 2 0xFFFF) running)) ∧
    (after (exec (.st16 1 2 0xFFFF) running)).run = .error := by
  refine ⟨rfl, ?_, ?_, rfl, by decide⟩
  · show ¬ (8 ≤ 10 ∧ 10 < 8 + 2); omega
  · show ¬ (8 ≤ 7 ∧ 7 < 8 + 2); omega

theorem witness_CommandsLeaveTheHostSideAlone :
    exec .nop running = .next (after (exec .nop running)) ∧ running.run = .running ∧
    (after (exec .nop running)).run ≠ .error ∧ Instr.nop ≠ .halt := ⟨rfl, by decide⟩

theorem witness_LoadResults :
    effAddr (blank.setX 2 0xFFFF) 2 0 + 1 ≤ blank.cfg.lmemBytes ∧
    effAddr (blank.setX 2 0xFFFE) 2 0 + 2 ≤ blank.cfg.lmemBytes ∧
    effAddr (blank.setX 2 0x10000) 2 0xFFFC + 4 ≤ blank.cfg.lmemBytes ∧
    effAddr (blank.setX 2 0x10000) 2 0xFFF8 + 8 ≤ blank.cfg.lmemBytes := by decide

theorem witness_StoreResults :
    effAddr (blank.setX 2 0xFFFFFFFFFFFFFFFF) 2 1 + 8 ≤ blank.cfg.lmemBytes ∧ effAddr blank 2 0 + 1 ≤ 1 := by decide

theorem witness_EffectiveAddressAndRangeCheck :
    blank.cfg.WellFormed ∧ ((blank.x 2).toNat : Int) + (0xFFFF : BitVec 16).toInt < 0 ∧
    accessSpan blank (.ld8 1 2 0xFFFF) = some (2 ^ 64 - 1, 1) ∧ blank.cfg.lmemBytes < 2 ^ 64 - 1 + 1 ∧
    accessSpan blank (.nst 15 0 2) = some (0, 64) ∧ 0 + 64 ≤ blank.cfg.lmemBytes ∧
    hashStateAllows (blank.setHe (.init .sha256)) (.hupd 1 2) ∧ hashStateAllows blank (.nst 15 0 2) :=
  ⟨by decide, by decide, rfl, by decide, rfl, by decide, .inl rfl, trivial⟩

theorem witness_Rotates :
    (31 : Fin 64).val < Width.w32.bits ∧ (0 : Fin 64).val < Width.w32.bits ∧ (63 : Fin 64).val < Width.w64.bits := by
  decide

theorem witness_NumberLoadAndStore :
    ((blank.setX 1 0xFFC0).x 1).toNat + sizeBytes 15 ≤ blank.cfg.lmemBytes ∧
    ((blank.setX 1 0xFFFC).x 1).toNat + sizeBytes 0 ≤ blank.cfg.lmemBytes := by decide

theorem witness_NumberAddAndMultiply :
    sizeBits 0 % NumWidth.ww32.bits = 0 ∧ sizeBits 15 % NumWidth.ww64.bits = 0 := by decide

theorem witness_NumberDivide :
    sizeBits 1 % NumWidth.ww8.bits = 0 ∧ ((blank.setX 2 0x100).x 2).toNat % 2 ^ NumWidth.ww8.bits = 0 ∧
    ((blank.setX 2 0x10).x 2).toNat % 2 ^ NumWidth.ww8.bits ≠ 0 := by decide

theorem witness_NumberByteSwaps : sizeBits 2 % NumWidth.ww16.bits = 0 := by decide

theorem witness_NumberWordIndexing :
    (63 : Fin 256).val < 512 / NumWidth.ww8.bits ∧ 512 / NumWidth.ww8.bits ≤ (64 : Fin 256).val ∧
    (7 : Fin 256).val < 512 / NumWidth.ww64.bits ∧ 512 / NumWidth.ww64.bits ≤ (8 : Fin 256).val := by decide

/-- HashStateMachine, HashUpdate, HashDigest: each state, each range. -/
theorem witness_HashStates :
    blank.he.state = .uninit ∧ (HashCtx.init .sha512).state = .empty ∧
    ((HashCtx.init .sha512).update [0] 1).state = .accum ∧ ((HashCtx.init .sha512).finalize).state = .final ∧
    ((blank.setX 1 0x10000).x 1).toNat + (blank.x 2).toNat ≤ blank.cfg.lmemBytes ∧
    ((blank.setX 1 0xFFC0).x 1).toNat + Mode.sha512.digestBytes ≤ blank.cfg.lmemBytes := by decide

theorem witness_DigestIsIdempotent :
    let s := running.setHe (.init .rmd160)
    s.run = .running ∧ exec (.hdig 1) s = .next (after (exec (.hdig 1) s)) ∧
    (after (exec (.hdig 1) s)).run = .running ∧ (s.x 2).toNat + s.he.mode.digestBytes ≤ s.cfg.lmemBytes :=
  ⟨rfl, rfl, rfl, by decide⟩

/-- AppendFillsAndCompresses, StaleBufferBytesAreNeverRead: an offset at the block's end, with either amount of data. -/
theorem witness_AppendFillsAndCompresses :
    let c := (HashCtx.init .sha256).append (List.replicate 63 0)
    c.off.toNat < c.mode.blockBytes ∧ ([] : List Byte).length < c.mode.blockBytes - c.off.toNat ∧
    c.mode.blockBytes - c.off.toNat ≤ ([1] : List Byte).length := by decide

theorem witness_StaleBufferBytesAreNeverRead :
    let c := (HashCtx.init .sha256).append [1, 2, 3]
    c.off.toNat < c.mode.blockBytes ∧ (c.blk.set 3 0xFF)[3] ≠ c.blk[3] ∧
    ∀ j : Fin 128, j.val < c.off.toNat → (c.blk.set 3 0xFF)[j] = c.blk[j] := by decide

theorem witness_FinalizePads :
    let c := (HashCtx.init .sha512).append (List.replicate 112 0)
    c.off.toNat < c.mode.blockBytes ∧ 127 < c.mode.blockBytes ∧
    (c.off.toNat + 1 + 127 + c.mode.lengthBytes) % c.mode.blockBytes = 0 := by decide

theorem witness_DigestFoldsThePaddedMessage :
    ([0x61, 0x62, 0x63] : List Byte).length < 2 ^ 64 ∧ 52 < Mode.sha256.blockBytes ∧
    (3 + 1 + 52 + Mode.sha256.lengthBytes) % Mode.sha256.blockBytes = 0 := by decide

theorem witness_StreamingEquivalence :
    let s := ((running.setHe (.init .sha256)).setX 2 3).setX 4 3
    let t := after (exec (.hupd 1 2) s)
    s.run = .running ∧ (s.x 4).toNat = (s.x 1).toNat + (s.x 2).toNat ∧ (s.x 4).toNat = (s.x 2).toNat + (s.x 1).toNat ∧
    exec (.hupd 1 2) s = .next t ∧ t.run = .running ∧
    exec (.hupd 4 1) t = .next (after (exec (.hupd 4 1) t)) ∧ (after (exec (.hupd 4 1) t)).run = .running ∧
    exec (.hupd 1 4) s = .next (after (exec (.hupd 1 4) s)) :=
  ⟨rfl, by decide, by decide, rfl, rfl, rfl, rfl, rfl⟩

theorem witness_MessageSchedule :
    (List.replicate 64 (0 : Byte)).length = 16 * Width.w32.bytes ∧
    (List.replicate 128 (0 : Byte)).length = 16 * Width.w64.bytes := by decide

theorem witness_Resets :
    (hostWrites running 0x004 0xF).turns = .host (.write (running.cfg.hostBase + 0x004) 0xF) :: [] ∧
    (0xF : Word32).getLsbD 2 = true ∧
    (running.setTurns [.powerOn [(5, 7)]]).turns = .powerOn [(5, 7)] :: [] := by decide

theorem witness_AtReset : State.reset.AtReset :=
  ⟨by decide, rfl, rfl, by decide, rfl, by decide, rfl, by decide, rfl, rfl, by decide, by decide, rfl, rfl⟩

/-- ControlRegister, StatusRegister: with and without SOFT_RESET. -/
theorem witness_ControlRegister :
    (hostWrites blank 0x004 9).turns = .host (.write (blank.cfg.hostBase + 0x004) 9) :: [] ∧
    (9 : Word32).getLsbD 2 = false ∧ (4 : Word32).getLsbD 2 = true ∧
    (hostWrites blank 0x008 0xC).turns = .host (.write (blank.cfg.hostBase + 0x008) 0xC) :: [] ∧
    (hostReads blank 0x004).turns = .host (.read (blank.cfg.hostBase + 0x004)) :: [] ∧
    (hostReads blank 0x008).turns = .host (.read (blank.cfg.hostBase + 0x008)) :: [] := by decide

/-- HostRegisterAccess: a register, the last offset below the window, the first beyond LMEM. -/
theorem witness_HostRegisterAccess :
    (∀ o ∈ [0x000, 0x004, 0x008, 0x00C, 0x01C, 0x020, 0xFFFC], o < 0x10000 ∧ o % 4 = 0 ∧
      (hostReads blank o).turns = .host (.read (blank.cfg.hostBase + o)) :: []) ∧
    blank.run ≠ .running ∧ 0x10000 + blank.cfg.lmemBytes ≤ 0x20000 ∧ 0xFFFFFFFC < 2 ^ 32 ∧
    (hostWrites blank 0x20000 1).turns = .host (.write (blank.cfg.hostBase + 0x20000) 1) :: [] := by decide

theorem witness_HostIsKeptOutWhileRunning :
    running.run = .running ∧ 0x10000 ≤ 0x1FFFC ∧ 0x1FFFC < 0x10000 + running.cfg.lmemBytes ∧ 0x1FFFC % 4 = 0 ∧
    (hostWrites running 0x1FFFC 1).turns = .host (.write (running.cfg.hostBase + 0x1FFFC) 1) :: [] ∧
    (hostReads running 0x10000).turns = .host (.read (running.cfg.hostBase + 0x10000)) :: [] := by decide

theorem witness_HostLmemWindow :
    blank.run ≠ .running ∧ 0xFFFC % 4 = 0 ∧ 0xFFFC < blank.cfg.lmemBytes ∧
    (hostWrites blank 0x1FFFC 1).turns = .host (.write (blank.cfg.hostBase + (0x10000 + 0xFFFC)) 1) :: [] := by decide

theorem witness_HostCannotSeeRegisters :
    let c := (HashCtx.init .sha256).finalize
    let s := blank.setHe { c with total := 9 }
    c.mode = s.he.mode ∧ c.state = s.he.state ∧ hostTurn (.read 0x008) s = .next (after (hostTurn (.read 0x008) s)) :=
  ⟨rfl, rfl, rfl⟩

theorem witness_MemoryEqualWhenBytesEqual :
    Memory.wf [(0, 1), (0xFFFFFFFF, 2)] = true ∧ Memory.wf [] = true ∧ Memory.wf [(1, 0)] = false := by decide

/-- The state after reset meets the invariant, and so does a running state past one command. -/
theorem reset_inv : State.reset.Inv :=
  ⟨by decide, rfl, rfl, by decide, by decide, by decide,
    ⟨fun _ => rfl, fun _ => ⟨rfl, rfl⟩, by decide, by decide, by decide, by decide⟩⟩

theorem witness_StepKeepsInvariant :
    State.reset.Inv ∧ step State.reset = .next (after (step State.reset)) ∧
    Reaches State.reset (after (step State.reset)) := ⟨reset_inv, rfl, .next .here rfl⟩

end Sys2Proof.Tests
end

section
/-! # The flag Z (10_state.md R33) -/
namespace Sys2Proof.Machine

/-- An answer with Z set in its next state. -/
def answerWithZ (b : Bool) : Answer → Answer
  | .next t => .next (t.setZ b)
  | .fault r => .fault r
  | .refused r => .refused r

@[simp] theorem answerWithZ_next (b : Bool) (t : State) : answerWithZ b (.next t) = .next (t.setZ b) := rfl

/-- Setting Z goes through a check that does not read Z. -/
theorem ite_eq_answerWithZ {b : Bool} {p : Prop} [Decidable p] {x y x' y' : Answer}
    (hx : x' = answerWithZ b x) (hy : y' = answerWithZ b y) :
    (if p then x' else y') = answerWithZ b (if p then x else y) := by
  rw [hx, hy, apply_ite (answerWithZ b)]

/-- HDIG's two checks, of HE.STATE and of the range, do not read Z. -/
theorem execHdig_setZ (ra : XReg) (s : State) (b : Bool) :
    execHdig ra (s.setZ b) = answerWithZ b (execHdig ra s) := by
  simp only [execHdig, State.setZ_he]
  cases s.he.state with
  | uninit => rfl
  | empty | accum | final => exact ite_eq_answerWithZ rfl rfl

/-- A command that neither writes nor reads Z carries it through: its effect commutes with setting Z. -/
theorem exec_setZ_of_not_writesZ (i : Instr) (s : State) (b : Bool) (hw : writesZ i = false)
    (hr : ∀ off, i ≠ .jz off ∧ i ≠ .jnz off) : exec i (s.setZ b) = answerWithZ b (exec i s) := by
  cases i with
  | jz off => exact absurd rfl (hr off).1
  | jnz off => exact absurd rfl (hr off).2
  | addi | tstx | nisz | neq => cases hw
  | nop | halt | jmp | movi | movk | mov | wadd | wrotrv | wrotlv | wbswap | wch | wmaj | wbsig0
  | wbsig1 | wssig0 | wssig1 | nclr | nmov | nbswap | hinit | hstat | hwipe => rfl
  | ld8 | ld16 | ld32 | ld64 | st8 | st16 | st32 | st64 | wrotr | wrotl | nld | nst | nadds | nmuls
  | nbswapw | ngetw | nsetw => exact ite_eq_answerWithZ rfl rfl
  | ndivs | hupd => exact ite_eq_answerWithZ (ite_eq_answerWithZ rfl rfl) rfl
  | hdig ra => exact execHdig_setZ ra s b

/-- A writer of Z does not read the old value. -/
theorem exec_setZ_of_writesZ (i : Instr) (s : State) (b : Bool) (hw : writesZ i = true) :
    exec i (s.setZ b) = exec i s := by
  cases i with
  | addi | tstx | nisz | neq => rfl
  | _ => cases hw

/-- Only ADDI, TSTX, NISZ and NEQ write Z. -/
theorem exec_keeps_z {i : Instr} {s t : State} (h : exec i s = .next t) (hw : writesZ i = false) : t.z = s.z := by
  by_cases hr : ∀ off, i ≠ .jz off ∧ i ≠ .jnz off
  · have hz : exec i s = answerWithZ s.z (exec i s) := exec_setZ_of_not_writesZ i s s.z hw hr
    rw [h, answerWithZ_next] at hz
    have ht : t = t.setZ s.z := Host.Outcome.next.inj hz
    rw [ht, State.setZ_z]
  · cases i with
    | jz off | jnz off =>
      simp only [exec, execJz, execJnz] at h
      split at h <;> cases h <;> rfl
    | _ => exact absurd (fun _ => ⟨nofun, nofun⟩) hr

/-- But for JZ and JNZ, the effect of a command on everything but Z does not depend on Z. -/
theorem exec_independent_of_z {i : Instr} {s t : State} (b : Bool) (hr : ∀ off, i ≠ .jz off ∧ i ≠ .jnz off)
    (h : exec i s = .next t) : ∃ u, exec i (s.setZ b) = .next u ∧ u.setZ true = t.setZ true := by
  cases hw : writesZ i with
  | true => exact ⟨t, (exec_setZ_of_writesZ i s b hw).trans h, rfl⟩
  | false => exact ⟨t.setZ b, by rw [exec_setZ_of_not_writesZ i s b hw hr, h, answerWithZ_next], rfl⟩

theorem exec_addi_z {s t : State} {rd ra : XReg} {imm : BitVec 16} (h : exec (.addi rd ra imm) s = .next t) :
    t.z = decide (t.x rd = 0) := by
  cases complete_next h
  simp [zeroFlag, beq_eq_decide]

theorem exec_tstx_z {s t : State} {ra : XReg} (h : exec (.tstx ra) s = .next t) : t.z = decide (s.x ra = 0) := by
  cases complete_next h
  exact beq_eq_decide _ _

theorem exec_nisz_z {s t : State} {sz : SizeCode} {na : NReg} (h : exec (.nisz sz na) s = .next t) :
    t.z = decide (numberValue sz s na = 0) := by
  cases complete_next h
  exact beq_eq_decide _ _

theorem exec_neq_z {s t : State} {sz : SizeCode} {na nb : NReg} (h : exec (.neq sz na nb) s = .next t) :
    t.z = decide (numberValue sz s na = numberValue sz s nb) := by
  cases complete_next h
  exact beq_eq_decide _ _

/-- R62: STATUS shows Z at bit 4. -/
theorem getLsbD_statusWord_z (s : State) : s.statusWord.getLsbD 4 = s.z := by
  simp [State.statusWord, bitField, getElem_placeField]

/-- Settles O17: a command that is no writer of Z commutes with setting Z, so it keeps Z (with the value Z has)
and, JZ and JNZ apart, does not depend on it (with any value); a writer overwrites it. -/
theorem flagZ : Obligations.FlagZ :=
  ⟨fun _ _ _ => exec_keeps_z, fun _ _ _ _ _ => exec_addi_z, fun _ _ _ => exec_tstx_z,
    fun _ _ _ _ => exec_nisz_z, fun _ _ _ _ _ => exec_neq_z, fun _ _ _ b => exec_independent_of_z b,
    getLsbD_statusWord_z, rfl⟩

end Sys2Proof.Machine
end

section
/-! # The host's turn at the registers CTRL and STATUS (10_state.md R61, R62) -/
namespace Sys2Proof.Machine

/-! ## A host access of the register block -/

/-- Every 32-bit offset lies in the window (R87, R90). -/
theorem windowOffset_hostBase_add (c : Config) (o : Nat) (h : o < 2 ^ 32) :
    Config.windowOffset c (c.hostBase + o) = some o := by
  have hw : o < Config.windowBytes c := lt_of_lt_of_le h (le_max_left _ _)
  simp [Config.windowOffset, hw]

theorem step_hostRead {s : State} {o : Nat} {rest : List Turn}
    (h : s.turns = .host (.read (s.cfg.hostBase + o)) :: rest) (ho : o < 2 ^ 32) (hal : o % 4 = 0) :
    step s = .next ((s.setTurns rest).hostRead o) := by
  rw [step_host s _ rest h]
  simp only [hostTurn, HostAccess.addr, State.setTurns_cfg, windowOffset_hostBase_add _ _ ho, hal, if_true]
  rfl

theorem step_hostWrite {s : State} {o : Nat} {v : Word32} {rest : List Turn}
    (h : s.turns = .host (.write (s.cfg.hostBase + o) v) :: rest) (ho : o < 2 ^ 32) (hal : o % 4 = 0) :
    step s = .next ((s.setTurns rest).hostWrite o v) := by
  rw [step_host s _ rest h]
  simp only [hostTurn, HostAccess.addr, State.setTurns_cfg, windowOffset_hostBase_add _ _ ho, hal, if_true]
  rfl

theorem not_inWindow_of_lt (s : State) {o : Nat} (h : o < 0x10000) : ¬ s.inWindow o :=
  fun hw => absurd hw.1 (Nat.not_le.mpr h)

/-- A read below the LMEM window returns the register's word and changes nothing else. -/
theorem hostRead_of_lt (s : State) {o : Nat} (h : o < 0x10000) :
    s.hostRead o = { s with readData := some (s.registerWord o) } :=
  if_neg (not_inWindow_of_lt s h)

theorem step_hostRead_register {s : State} {o : Nat} {rest : List Turn}
    (h : s.turns = .host (.read (s.cfg.hostBase + o)) :: rest) (ho : o < 0x10000) (hal : o % 4 = 0) :
    step s = .next { s with turns := rest, readData := some (s.registerWord o) } := by
  rw [step_hostRead h (ho.trans (by decide)) hal, hostRead_of_lt _ ho]
  rfl

theorem hostWrite_ctrl (s : State) (v : Word32) : s.hostWrite 0x004 v = s.writeCtrl v :=
  if_neg (not_inWindow_of_lt s (by decide))

theorem hostWrite_status (s : State) (v : Word32) : s.hostWrite 0x008 v = s.writeStatus v :=
  if_neg (not_inWindow_of_lt s (by decide))

/-! ## CTRL -/

/-- R551: what the soft reset leaves, whatever the state before. -/
theorem softReset_atReset (s : State) : s.softReset.AtReset where
  x r := by simp [State.x]
  z := rfl
  cp := rfl
  n r := by simp [State.n]
  run := rfl
  error := ⟨rfl, rfl, rfl⟩
  abort := rfl
  host := ⟨rfl, rfl, rfl⟩
  mode := rfl
  state := rfl
  h k := by simp [HashCtx.wiped]
  blk k := by simp [HashCtx.wiped]
  off := rfl
  total := rfl

theorem writeCtrl_softReset (s : State) {v : Word32} (hv : v.getLsbD 2 = true) : s.writeCtrl v = s.softReset :=
  if_pos hv

/-- R61 while RUNNING: ABORT counts, START does not. -/
theorem writeCtrl_running {s : State} {v : Word32} (hv : v.getLsbD 2 = false) (hr : s.run = .running) :
    s.writeCtrl v = { s with irqEn := v.getLsbD 3, abortReq := s.abortReq || v.getLsbD 1 } := by
  simp only [State.writeCtrl, hv, Bool.false_eq_true, if_false, State.requestAbort_running, hr]
  cases v.getLsbD 1 <;> simp [State.start_running]

/-- R61 while stopped: START counts, ABORT does not. -/
theorem writeCtrl_stopped {s : State} {v : Word32} (hv : v.getLsbD 2 = false) (hr : s.run ≠ .running) :
    s.writeCtrl v =
      if v.getLsbD 0 then { s with irqEn := v.getLsbD 3, errcode := .none, abortReq := false, run := .running }
      else { s with irqEn := v.getLsbD 3 } := by
  simp only [State.writeCtrl, hv, Bool.false_eq_true, if_false, State.requestAbort_stopped, State.start_stopped,
    hr, ne_eq, not_false_eq_true, ite_self]

/-- R61: IRQ_EN is at bit 3, and every other bit of CTRL reads 0. -/
theorem getLsbD_ctrlWord (s : State) {k : Nat} (hk : k < 32) :
    s.ctrlWord.getLsbD k = (decide (k = 3) && s.irqEn) := by
  have h3 : 3 ≤ k ∧ k - 3 = 0 ↔ k = 3 := by omega
  simp only [State.ctrlWord, bitField, getLsbD_placeField, BitVec.getLsbD_ofBool, hk, decide_true, Bool.true_and,
    ← Bool.and_assoc, ← Bool.decide_and, h3]

/-- Settles O52: a write splits on SOFT_RESET, then on RUN; a read is that of any register. -/
theorem controlRegister : Obligations.ControlRegister := by
  refine ⟨fun s v rest h hv => ?_, fun s v rest h hv => ?_, fun s k hk => getLsbD_ctrlWord s hk,
    fun s rest h => step_hostRead_register h (by decide) rfl, rfl⟩
  · rw [step_hostWrite h (by decide) rfl, hostWrite_ctrl]
    split
    · rw [writeCtrl_running hv ‹_›]; rfl
    · rw [writeCtrl_stopped hv ‹_›]; rfl
  · rw [step_hostWrite h (by decide) rfl, hostWrite_ctrl, writeCtrl_softReset _ hv]
    exact ⟨_, rfl, softReset_atReset _, rfl⟩

/-! ## STATUS -/

/-- A field read out of STATUS is read out of each of the seven fields that the word is made of. -/
theorem extractLsb'_statusWord (s : State) (lo n : Nat) :
    s.statusWord.extractLsb' lo n =
      (placeField s.run.code 0).extractLsb' lo n ||| (bitField s.irq 2).extractLsb' lo n |||
      (bitField s.hostErr 3).extractLsb' lo n ||| (bitField s.z 4).extractLsb' lo n |||
      (placeField s.errcode.code 8).extractLsb' lo n ||| (placeField s.he.mode.code 16).extractLsb' lo n |||
      (placeField s.he.state.code 20).extractLsb' lo n := by
  simp only [State.statusWord, extractLsb'_or_word]

/-- R62: STATUS read at the place of each field, and at the reserved bits between them. -/
theorem statusWord_fields (s : State) :
    s.statusWord.extractLsb' 0 2 = s.run.code ∧ s.statusWord.extractLsb' 5 3 = 0 ∧
    s.statusWord.extractLsb' 8 8 = s.errcode.code ∧ s.statusWord.extractLsb' 16 3 = s.he.mode.code ∧
    s.statusWord.extractLsb' 20 2 = s.he.state.code ∧ s.statusWord.extractLsb' 22 10 = 0 := by
  refine ⟨?_, ?_, ?_, ?_, ?_, ?_⟩ <;>
    simp (disch := decide) [extractLsb'_statusWord, bitField, extractLsb'_placeField_self,
      extractLsb'_placeField_other]

/-- R62: IRQ, HOSTERR and the reserved bit 19 (for Z: `getLsbD_statusWord_z`). -/
theorem statusWord_bits (s : State) :
    s.statusWord.getLsbD 2 = s.irq ∧ s.statusWord.getLsbD 3 = s.hostErr ∧ s.statusWord.getLsbD 19 = false := by
  simp [State.statusWord, bitField, getElem_placeField]

/-- Settles O53: an access is that of the register at 0x008, whose word is read field by field. -/
theorem statusRegister : Obligations.StatusRegister := by
  refine ⟨fun s v rest h => ?_, fun s => ?_, fun s rest h => step_hostRead_register h (by decide) rfl, by decide⟩
  · rw [step_hostWrite h (by decide) rfl, hostWrite_status]
    rfl
  · obtain ⟨hrun, h5, hcode, hmode, hstate, h22⟩ := statusWord_fields s
    obtain ⟨h2, h3, h19⟩ := statusWord_bits s
    refine ⟨hrun.trans ?_, h2, h3, getLsbD_statusWord_z s, h5, hcode.trans ?_, hmode.trans ?_, h19,
      hstate.trans ?_, h22⟩
    · cases s.run <;> rfl
    · cases s.errcode <;> rfl
    · cases s.he.mode <;> rfl
    · cases s.he.state <;> rfl

end Sys2Proof.Machine
end

section
/-! # Decoding and encoding are inverse to each other (30_encoding.md R128 to R132)

A word decodes to a command exactly when it is the word of that command and the command's field values are legal. -/
namespace Sys2Proof

/-! ## The row of a command -/

theorem ctorIdx_lt_length_opRows (i : Instr) : i.ctorIdx < opRows.length := by
  cases i <;> exact of_decide_eq_true rfl

/-- The row of a command: the rows of the opcode map stand in the order of the constructors. -/
def Instr.row (i : Instr) : OpRow := opRows[i.ctorIdx]'(ctorIdx_lt_length_opRows i)

theorem row_mem_opRows (i : Instr) : i.row ∈ opRows := List.getElem_mem _

theorem opOf_encode (i : Instr) : opOf (encode i) = opOf i.row.pattern := by
  cases i <;>
    simp (disch := decide) only [encode, encJ, encI, encWR, encWI, encNR, encNX, encRdRa, opOf_or, opOf_placeField,
      BitVec.ofNat_eq_ofNat, BitVec.or_zero] <;>
    rfl

/-- A row is known by its OP. -/
theorem eq_of_opOf_pattern_eq {r r' : OpRow} (hr : r ∈ opRows) (hr' : r' ∈ opRows)
    (h : opOf r.pattern = opOf r'.pattern) : r = r' :=
  List.inj_on_of_nodup_map opRows_op_nodup hr hr' h

theorem rowOf?_some {c : Word32} {r : OpRow} (h : rowOf? c = some r) : r ∈ opRows ∧ opOf r.pattern = opOf c :=
  ⟨List.mem_of_find?_eq_some h, by simpa using List.find?_some h⟩

open Laws.FixedBits in
/-- The laws of all commands on their fixed bits, as one. -/
theorem fixedBits : ∀ i, Statement i
  | .nop => nop | .halt => halt | .jmp _ => jmp _ | .jz _ => jz _ | .jnz _ => jnz _
  | .movi _ _ => movi _ _ | .movk _ _ _ => movk _ _ _ | .mov _ _ => mov _ _ | .addi _ _ _ => addi _ _ _
  | .tstx _ => tstx _
  | .ld8 _ _ _ => ld8 _ _ _ | .ld16 _ _ _ => ld16 _ _ _ | .ld32 _ _ _ => ld32 _ _ _ | .ld64 _ _ _ => ld64 _ _ _
  | .st8 _ _ _ => st8 _ _ _ | .st16 _ _ _ => st16 _ _ _ | .st32 _ _ _ => st32 _ _ _ | .st64 _ _ _ => st64 _ _ _
  | .wadd _ _ _ _ => wadd _ _ _ _ | .wrotr _ _ _ _ => wrotr _ _ _ _ | .wrotl _ _ _ _ => wrotl _ _ _ _
  | .wrotrv _ _ _ _ => wrotrv _ _ _ _ | .wrotlv _ _ _ _ => wrotlv _ _ _ _ | .wbswap _ _ _ => wbswap _ _ _
  | .wch _ _ _ _ _ => wch _ _ _ _ _ | .wmaj _ _ _ _ _ => wmaj _ _ _ _ _
  | .wbsig0 _ _ _ => wbsig0 _ _ _ | .wbsig1 _ _ _ => wbsig1 _ _ _
  | .wssig0 _ _ _ => wssig0 _ _ _ | .wssig1 _ _ _ => wssig1 _ _ _
  | .nld _ _ _ => nld _ _ _ | .nst _ _ _ => nst _ _ _ | .nclr _ => nclr _ | .nmov _ _ _ => nmov _ _ _
  | .nadds _ _ _ _ => nadds _ _ _ _ | .nmuls _ _ _ _ => nmuls _ _ _ _ | .ndivs _ _ _ _ _ => ndivs _ _ _ _ _
  | .nisz _ _ => nisz _ _ | .neq _ _ _ => neq _ _ _ | .nbswap _ _ _ => nbswap _ _ _
  | .nbswapw _ _ _ _ => nbswapw _ _ _ _ | .ngetw _ _ _ _ => ngetw _ _ _ _ | .nsetw _ _ _ _ => nsetw _ _ _ _
  | .hinit _ => hinit _ | .hupd _ _ => hupd _ _ | .hdig _ => hdig _ | .hstat _ _ => hstat _ _ | .hwipe => hwipe

/-- R128, R129: the word of a command is found at the command's row and has the row's fixed bits. -/
theorem encode_at_row (i : Instr) : rowOf? (encode i) = some i.row ∧ encode i &&& i.row.mask = i.row.pattern := by
  obtain ⟨r, hrow, hmask⟩ := fixedBits i
  obtain ⟨hr, hop⟩ := rowOf?_some hrow
  obtain rfl := eq_of_opOf_pattern_eq hr (row_mem_opRows i) (hop.trans (opOf_encode i))
  exact ⟨hrow, hmask⟩

/-! ## The fields of a command's word are the command's operands -/

/-- The row of a command reads its word back: every field is found where the encoder placed it. -/
theorem build_encode (i : Instr) : i.row.build (encode i) = .ok i := by
  cases i with
  | nop | halt | hwipe => rfl
  | jmp | jz | jnz | movi | movk | mov | addi | tstx | ld8 | ld16 | ld32 | ld64 | st8 | st16 | st32 | st64
  | wadd | wrotr | wrotl | wrotrv | wrotlv | wbswap | wch | wmaj | wbsig0 | wbsig1 | wssig0 | wssig1
  | hupd | hdig | hstat =>
    show Except.ok _ = _
    simp (disch := decide) [encode, encJ, encI, encWR, encWI, encRdRa, rdOf, raOf, rbOf, rcOf, imm16Of, hwOf, sh6Of,
      wOf, selOf, extractLsb'_or_word, extractLsb'_placeField_self, extractLsb'_placeField_other]
  | nld | nst | nclr | nmov | nadds | nmuls | ndivs | nisz | neq | nbswap | nbswapw | ngetw | nsetw =>
    show withN _ _ = _
    simp (disch := decide) [withN, encode, encNR, encNX, encRdRa, rdOf, raOf, rbOf, idx8Of, szOf, wwOf,
      extractLsb'_or_word, extractLsb'_placeField_self, extractLsb'_placeField_other]
  | hinit =>
    show withMode _ _ = _
    simp [withMode, encode, modeOf, extractLsb'_or_word, extractLsb'_placeField_self]

/-! ## A command read from a word has that word -/

theorem or_placeField_zero (x : Word32) (n lo : Nat) : x ||| placeField (0 : BitVec n) lo = x := by
  rw [placeField_zero]
  exact BitVec.or_zero

theorem placeField_zero_or (x : Word32) (n lo : Nat) : placeField (0 : BitVec n) lo ||| x = x := by
  rw [placeField_zero]
  exact BitVec.zero_or

theorem and_eq_self_of_eq_allOnes {c m : Word32} (h : m = BitVec.allOnes 32) : c &&& m = c := by
  rw [h, BitVec.and_allOnes]

theorem nReg?_eq_some {f : BitVec 4} {n : NReg} : nReg? f = some n ↔ nCode n = f :=
  ⟨nCode_nReg? f n, fun h => h ▸ nReg?_nCode n⟩

theorem mode?_eq_some {f : BitVec 3} {m : Mode} : mode? f = some m ↔ m.code = f :=
  ⟨code_mode? f m, fun h => h ▸ mode?_code m⟩

/-- What a row answers for the word `c` is a command only if `c` is the command's word. -/
def EncodesTo (c : Word32) (answer : Except Reject Instr) : Prop := ∀ i, answer = .ok i → encode i = c

theorem encodesTo_ok {c : Word32} {i : Instr} : EncodesTo c (.ok i) ↔ encode i = c :=
  ⟨fun h => h i rfl, fun h _ hi => Except.ok.inj hi ▸ h⟩

theorem encodesTo_withN {c : Word32} {f : BitVec 4} {k : NReg → Except Reject Instr} :
    EncodesTo c (withN f k) ↔ ∀ n, nCode n = f → EncodesTo c (k n) := by
  unfold withN
  split <;> simp_all [← nReg?_eq_some, EncodesTo]

theorem encodesTo_withMode {c : Word32} {f : BitVec 3} {k : Mode → Except Reject Instr} :
    EncodesTo c (withMode f k) ↔ ∀ m, m.code = f → EncodesTo c (k m) := by
  unfold withMode
  split <;> simp_all [← mode?_eq_some, EncodesTo]

/-- A word with the fixed bits of a row is the word of what the row reads from it: the encoder puts the fields back
where they were, and the row's mask and fields together cover the whole word. -/
theorem build_encodesTo {r : OpRow} (hr : r ∈ opRows) {c : Word32} (hm : c &&& r.mask = r.pattern) :
    EncodesTo c (r.build c) := by
  fin_cases hr <;> dsimp only at hm ⊢
  all_goals
    simp +contextual only [encodesTo_ok, encodesTo_withN, encodesTo_withMode, encode, encJ, encI, encWR, encWI, encNR,
      encNX, encRdRa, finCode_of_toFin, finCode_zero, code_widthOf, code_numWidthOf, code_statSelOf,
      rdOf, raOf, rbOf, rcOf, imm16Of, hwOf, sh6Of, idx8Of, szOf, wwOf, wOf, modeOf, selOf,
      placeField_extractLsb', or_placeField_zero, placeField_zero_or, ← hm, ← BitVec.and_or_distrib_left]
    intros
    exact and_eq_self_of_eq_allOnes rfl

/-! ## The decoder -/

/-- R132: the three checks that a word passes when it decodes. -/
theorem decode_ok {c : Word32} {i : Instr} (h : decode c = .ok i) :
    ∃ r ∈ opRows, c &&& r.mask = r.pattern ∧ r.build c = .ok i ∧ i.wellFormed = true := by
  cases hrow : rowOf? c with
  | none => rw [decode_no_row c hrow] at h; cases h
  | some r =>
    rw [decode_row c r hrow] at h
    refine ⟨r, (rowOf?_some hrow).1, ?_⟩
    split at h
    · next hmask =>
      refine ⟨hmask, ?_⟩
      split at h
      · next hbuild =>
        split at h
        · next hw => cases h; exact ⟨hbuild, hw⟩
        · cases h
      · cases h
    · cases h

theorem decode_encode {i : Instr} (hw : i.wellFormed = true) : decode (encode i) = .ok i := by
  obtain ⟨hrow, hmask⟩ := encode_at_row i
  rw [decode_row _ _ hrow, if_pos hmask, build_encode]
  exact if_pos hw

/-- A word decodes to a command exactly when it is its word and its field values are legal. -/
theorem decode_eq_ok_iff {c : Word32} {i : Instr} : decode c = .ok i ↔ encode i = c ∧ i.wellFormed = true := by
  constructor
  · intro h
    obtain ⟨r, hr, hmask, hbuild, hw⟩ := decode_ok h
    exact ⟨build_encodesTo hr hmask i hbuild, hw⟩
  · rintro ⟨rfl, hw⟩
    exact decode_encode hw

end Sys2Proof
end

section
/-! # Which words raise ILLEGAL (30_encoding.md R129 to R131) -/
namespace Sys2Proof.Machine

/-! ## The step at a fetch -/

theorem step_of_aboutToFetch {s : State} (h : s.AboutToFetch) : step s = runFetched s := by
  obtain ⟨hturns, hrun, habort, hfetch⟩ := h
  rw [step_no_turns s hturns, sequencerTurn_running s hrun, runStep, habort, if_neg Bool.false_ne_true, if_pos hfetch]

theorem step_of_decode_ok {s : State} (h : s.AboutToFetch) {i : Instr} (hi : decode s.fetchWord = .ok i) :
    step s = exec i s := by
  rw [step_of_aboutToFetch h, runFetched, show decodeBytes s.fetchBytes = .ok i from hi]

theorem step_of_decode_error {s : State} (h : s.AboutToFetch) {e : Reject} (he : decode s.fetchWord = .error e) :
    step s = .next (s.errorEntry .illegal s.cp s.fetchWord) := by
  rw [step_of_aboutToFetch h, runFetched, show decodeBytes s.fetchBytes = .error e from he]

/-- A word that no well-formed command encodes to raises ILLEGAL. -/
theorem step_illegal {s : State} (h : s.AboutToFetch)
    (hno : ∀ i : Instr, i.wellFormed = true → encode i ≠ s.fetchWord) :
    step s = .next (s.errorEntry .illegal s.cp s.fetchWord) := by
  cases hd : decode s.fetchWord with
  | error e => exact step_of_decode_error h hd
  | ok i =>
    obtain ⟨hi, hw⟩ := decode_eq_ok_iff.mp hd
    exact absurd hi (hno i hw)

/-! ## OP values and reserved bits -/

/-- R130: the OP values that are not in the opcode map. -/
def UnlistedOp (o : Nat) : Prop :=
  o = 0x00 ∨ (0x06 ≤ o ∧ o ≤ 0x0F) ∨ (0x15 ≤ o ∧ o ≤ 0x17) ∨ (0x2C ≤ o ∧ o ≤ 0x2F) ∨
    (0x3D ≤ o ∧ o ≤ 0x3F) ∨ 0x45 ≤ o

theorem not_unlistedOp_encode (i : Instr) : ¬ UnlistedOp (opOf (encode i)).toNat := by
  have hrows : ∀ r ∈ opRows, ¬ UnlistedOp (opOf r.pattern).toNat := by unfold UnlistedOp; decide
  rw [opOf_encode]
  exact hrows _ (row_mem_opRows i)

theorem step_of_unlistedOp {s : State} (h : s.AboutToFetch) (ho : UnlistedOp (opOf s.fetchWord).toNat) :
    step s = .next (s.errorEntry .illegal s.cp s.fetchWord) :=
  step_illegal h fun i _ hi => not_unlistedOp_encode i (hi ▸ ho)

/-- R129: the reserved bits of a row, the fixed bits below OP, are 0 in the word of its command. -/
theorem getLsbD_encode_reserved (i : Instr) {k : Nat} (hk : k < 24) (hm : i.row.mask.getLsbD k = true) :
    (encode i).getLsbD k = false := by
  have hrows : ∀ r ∈ opRows, ∀ k < 24, r.pattern.getLsbD k = false := by decide
  have hbit := congrArg (·.getLsbD k) (encode_at_row i).2
  simpa [hm, hrows _ (row_mem_opRows i) k hk] using hbit

/-- Settles O4: a word decodes exactly when it is the word of a well-formed command, which is then the one command
it stands for; no command has an unlisted OP. -/
theorem everyWordIsOneCommandOrIllegal : Obligations.EveryWordIsOneCommandOrIllegal := by
  intro s h
  refine ⟨step_of_unlistedOp h, fun h0 => ?_, ?_⟩
  · rw [← h0]
    exact step_of_unlistedOp h (.inl (by rw [h0]; rfl))
  · cases hd : decode s.fetchWord with
    | error e => exact .inr (step_of_decode_error h hd)
    | ok i =>
      obtain ⟨hi, hw⟩ := decode_eq_ok_iff.mp hd
      refine .inl ⟨i, ⟨hw, hi, step_of_decode_ok h hd⟩, ?_⟩
      rintro j ⟨hwj, hj, -⟩
      exact Except.ok.inj ((decode_eq_ok_iff.mpr ⟨hj, hwj⟩).symm.trans hd)

/-- Settles O5: the row with the word's OP is the row of any command with that word, whose reserved bits are 0. -/
theorem reservedBitsAreIllegal : Obligations.ReservedBitsAreIllegal := by
  rintro s h r hr hop ⟨k, hk, hmask, hbit⟩
  refine step_illegal h fun i _ hi => ?_
  rw [← hi] at hop hbit
  obtain rfl := eq_of_opOf_pattern_eq (row_mem_opRows i) hr ((opOf_encode i).symm.trans hop)
  exact Bool.false_ne_true ((getLsbD_encode_reserved i hk hmask).symm.trans hbit)

end Sys2Proof.Machine
end

section
/-! # Illegal field values (30_encoding.md R131)

A field value that R131 forbids stands in no word of a well-formed command with that OP. -/
namespace Sys2Proof.Machine

/-! ## The operand fields of a command's word -/

/-- The OP of a command's row. -/
def opNumber (i : Instr) : Nat := (opRows.map fun r => (opOf r.pattern).toNat).getD i.ctorIdx 0

theorem toNat_opOf_encode (i : Instr) : (opOf (encode i)).toNat = opNumber i := by
  simp [opOf_encode, Instr.row, opNumber, ctorIdx_lt_length_opRows]

theorem toNat_nCode_lt (n : NReg) : (nCode n).toNat < 4 := by revert n; decide

/-- R125: the commands whose rd names a number register. -/
theorem rdOf_encode_lt (i : Instr)
    (ho : (opOf (encode i)).toNat ∈ [0x30, 0x31, 0x32, 0x33, 0x34, 0x35, 0x36, 0x39, 0x3A, 0x3C]) :
    (rdOf (encode i)).toNat < 4 := by
  rw [toNat_opOf_encode] at ho
  cases i with
  | nld | nst | nclr | nmov | nadds | nmuls | ndivs | nbswap | nbswapw | nsetw =>
    simp (disch := decide) [encode, encNR, encNX, encRdRa, rdOf, toNat_nCode_lt, extractLsb'_or_word,
      extractLsb'_placeField_self, extractLsb'_placeField_other]
  | _ => dsimp only [opNumber, Instr.ctorIdx] at ho; exact absurd ho (by decide)

/-- R125: the commands whose ra names a number register. -/
theorem raOf_encode_lt (i : Instr) (ho : (opOf (encode i)).toNat ∈ [0x33, 0x37, 0x38, 0x39, 0x3A, 0x3B]) :
    (raOf (encode i)).toNat < 4 := by
  rw [toNat_opOf_encode] at ho
  cases i with
  | nmov | nisz | neq | nbswap | nbswapw | ngetw =>
    simp (disch := decide) [encode, encNR, encNX, encRdRa, raOf, toNat_nCode_lt, extractLsb'_or_word,
      extractLsb'_placeField_self, extractLsb'_placeField_other]
  | _ => dsimp only [opNumber, Instr.ctorIdx] at ho; exact absurd ho (by decide)

/-- R125: NEQ, the one command whose rb names a number register. -/
theorem rbOf_encode_lt (i : Instr) (ho : (opOf (encode i)).toNat = 0x38) : (rbOf (encode i)).toNat < 4 := by
  rw [toNat_opOf_encode] at ho
  cases i with
  | neq =>
    simp (disch := decide) [encode, encNR, encRdRa, rbOf, toNat_nCode_lt, extractLsb'_or_word,
      extractLsb'_placeField_self, extractLsb'_placeField_other]
  | _ => dsimp only [opNumber, Instr.ctorIdx] at ho; exact absurd ho (by decide)

/-- R126: WW read off its code. -/
theorem numWidth_bits_eq (ww : NumWidth) : ww.bits = 8 * 2 ^ ww.code.toNat := by cases ww <;> rfl

/-- R126: the commands that use WW. -/
theorem size_mod_width_encode (i : Instr) (hw : i.wellFormed = true)
    (ho : (opOf (encode i)).toNat ∈ [0x34, 0x35, 0x36, 0x3A]) :
    32 * ((szOf (encode i)).toNat + 1) % (8 * 2 ^ (wwOf (encode i)).toNat) = 0 := by
  rw [toNat_opOf_encode] at ho
  cases i with
  | nadds sz ww | nmuls sz ww | ndivs sz ww | nbswapw sz ww =>
    have hfit : 32 * (sz.val + 1) % (8 * 2 ^ ww.code.toNat) = 0 := numWidth_bits_eq ww ▸ eq_of_beq hw
    simpa (disch := decide) [encode, encNR, encRdRa, szOf, wwOf, finCode, extractLsb'_or_word,
      extractLsb'_placeField_self, extractLsb'_placeField_other] using hfit
  | _ => dsimp only [opNumber, Instr.ctorIdx] at ho; exact absurd ho (by decide)

/-- R131: WROTR and WROTL in 32-bit operation. -/
theorem sh6Of_encode_lt (i : Instr) (hw : i.wellFormed = true) (ho : (opOf (encode i)).toNat ∈ [0x21, 0x22])
    (h32 : wOf (encode i) = 0) : (sh6Of (encode i)).toNat < 32 := by
  rw [toNat_opOf_encode] at ho
  cases i with
  | wrotr w rd ra sh | wrotl w rd ra sh =>
    have hcode : w.code = 0 := by
      simpa (disch := decide) [encode, encWI, encRdRa, wOf, extractLsb'_or_word,
        extractLsb'_placeField_self, extractLsb'_placeField_other] using h32
    have hsh : sh.val < 32 := by
      cases w with
      | w32 => exact of_decide_eq_true hw
      | w64 => exact absurd hcode (by decide)
    simpa (disch := decide) [encode, encWI, encRdRa, sh6Of, finCode, extractLsb'_or_word,
      extractLsb'_placeField_self, extractLsb'_placeField_other] using hsh
  | _ => dsimp only [opNumber, Instr.ctorIdx] at ho; exact absurd ho (by decide)

/-- R131: HINIT has no mode 7. -/
theorem modeOf_encode_ne (i : Instr) (ho : (opOf (encode i)).toNat = 0x40) : (modeOf (encode i)).toNat ≠ 7 := by
  rw [toNat_opOf_encode] at ho
  cases i with
  | hinit m => cases m <;> decide
  | _ => dsimp only [opNumber, Instr.ctorIdx] at ho; exact absurd ho (by decide)

/-! ## The word index -/

theorem exec_ngetw_badIndex {ww : NumWidth} {idx : Fin 256} (h : 512 / ww.bits ≤ idx.val) (rd : XReg) (na : NReg)
    (s : State) :
    exec (.ngetw ww rd na idx) s = .next (s.errorEntry .badIndex s.cp (encode (.ngetw ww rd na idx))) :=
  if_neg h.not_gt

theorem exec_nsetw_badIndex {ww : NumWidth} {idx : Fin 256} (h : 512 / ww.bits ≤ idx.val) (nd : NReg) (ra : XReg)
    (s : State) :
    exec (.nsetw ww nd ra idx) s = .next (s.errorEntry .badIndex s.cp (encode (.nsetw ww nd ra idx))) :=
  if_neg h.not_gt

/-- Settles O6: each forbidden field value is one that no word of a well-formed command has; a word that decodes to
NGETW or NSETW is the word of that command, which is the ERRCMD of its BAD_INDEX. -/
theorem illegalFieldValues : Obligations.IllegalFieldValues := by
  intro s h
  refine ⟨fun hfields => step_illegal h fun i hw hi => ?_, fun ww r n idx hidx hd => ?_⟩
  · rw [← hi] at hfields
    rcases hfields with ⟨ho, hrd⟩ | ⟨ho, hra⟩ | ⟨ho, hrb⟩ | ⟨ho, hsize⟩ | ⟨ho, h32, hsh⟩ | ⟨ho, hmode⟩
    · exact absurd (rdOf_encode_lt i ho) hrd.not_gt
    · exact absurd (raOf_encode_lt i ho) hra.not_gt
    · exact absurd (rbOf_encode_lt i ho) hrb.not_gt
    · exact hsize (size_mod_width_encode i hw ho)
    · exact absurd (sh6Of_encode_lt i hw ho h32) hsh.not_gt
    · exact modeOf_encode_ne i ho hmode
  · rcases hd with hd | hd
    · rw [step_of_decode_ok h hd, exec_ngetw_badIndex hidx, (decode_eq_ok_iff.mp hd).1]
    · rw [step_of_decode_ok h hd, exec_nsetw_badIndex hidx, (decode_eq_ok_iff.mp hd).1]

end Sys2Proof.Machine
end

section
/-! # The hash commands in each state of HE.STATE (42_hash_engine.md R301 to R305, R316) -/
namespace Sys2Proof.Machine

theorem acceptsUpdate_eq_true_iff {h : HashState} : acceptsUpdate h = true ↔ h = .empty ∨ h = .accum := by
  cases h <;> decide

theorem acceptsUpdate_eq_false_iff {h : HashState} : acceptsUpdate h = false ↔ h = .uninit ∨ h = .final := by
  cases h <;> decide

/-- R303: HUPD completes in EMPTY and ACCUM on a range inside LMEM. -/
theorem exec_hupd_inRange {s : State} {ra rb : XReg} (hs : s.he.state = .empty ∨ s.he.state = .accum)
    (hr : s.inRange (s.x ra).toNat (s.x rb).toNat) :
    exec (.hupd ra rb) s = .next
      (s.setHe (s.he.update (s.lmem.readBytes (s.x ra).toNat (s.x rb).toNat) (s.x rb).toNat)).advance :=
  (if_pos (acceptsUpdate_eq_true_iff.mpr hs)).trans (if_pos hr)

/-- R303: HUPD in UNINIT and FINAL, whatever the range. -/
theorem exec_hupd_hashState {s : State} (ra rb : XReg) (hs : s.he.state = .uninit ∨ s.he.state = .final) :
    exec (.hupd ra rb) s = .next (s.errorEntry .hashState s.cp (encode (.hupd ra rb))) :=
  if_neg (Bool.eq_false_iff.mp (acceptsUpdate_eq_false_iff.mpr hs))

/-- R304: HDIG in UNINIT, whatever the range. -/
theorem exec_hdig_hashState {s : State} (ra : XReg) (hs : s.he.state = .uninit) :
    exec (.hdig ra) s = .next (s.errorEntry .hashState s.cp (encode (.hdig ra))) := by
  simp only [exec, execHdig, hs, raise_eq]

/-- R304: outside UNINIT, HDIG completes on a range inside LMEM. -/
theorem exec_hdig_inRange {s : State} {ra : XReg} (hs : s.he.state ≠ .uninit)
    (hr : s.inRange (s.x ra).toNat s.he.mode.digestBytes) :
    exec (.hdig ra) s = .next ((s.setHe s.he.digested).setLmem
      (s.lmem.writeBytes (s.x ra).toNat s.he.digested.output)).advance := by
  cases hc : s.he.state with
  | uninit => exact absurd hc hs
  | empty | accum | final => simp only [exec, execHdig, hc, hr, if_true, complete_eq]

/-- R303: HUPD leaves EMPTY for ACCUM when there is a byte to take. -/
theorem afterUpdate_empty (len : Nat) : afterUpdate .empty len = if len = 0 then .empty else .accum := rfl

/-- R303: HUPD of any length stays in ACCUM. -/
theorem afterUpdate_accum (len : Nat) : afterUpdate .accum len = .accum := ite_self _

/-- Settles O41: HINIT, HSTAT and HWIPE complete in every state; HUPD and HDIG are split on HE.STATE, and on a range
inside LMEM the context they leave is that of `HashCtx.update` and `HashCtx.digested`. -/
theorem hashStateMachine : Obligations.HashStateMachine := by
  intro s m ra rb rd sel
  refine ⟨⟨_, rfl, rfl⟩, ⟨_, rfl, rfl⟩, ⟨_, rfl, rfl⟩, exec_hupd_hashState ra rb, exec_hdig_hashState ra,
    fun hr => ⟨fun hs => ?_, fun hs => ?_⟩, fun hr => ⟨fun hs => ?_, fun hs => ?_⟩⟩
  · refine ⟨_, exec_hupd_inRange (.inl hs) hr, ?_⟩
    simp only [State.advance_he, State.setHe_he, HashCtx.update_state, hs, afterUpdate_empty]
  · refine ⟨_, exec_hupd_inRange (.inr hs) hr, ?_⟩
    simp only [State.advance_he, State.setHe_he, HashCtx.update_state, hs, afterUpdate_accum]
  · have hne : s.he.state ≠ .uninit := by rcases hs with hs | hs <;> simp [hs]
    exact ⟨_, exec_hdig_inRange hne hr, s.he.digested_state⟩
  · have hne : s.he.state ≠ .uninit := by simp [hs]
    exact ⟨_, exec_hdig_inRange hne hr, s.he.digested_final hs⟩

end Sys2Proof.Machine
end

section
/-! # The message schedule (43_sha2_compression.md R352, R353)

The model builds the schedule newest word first and reverses it at the end: the word `k + 1` places back from W[t]
stands at index `k` of the `t` oldest words. -/
namespace Sys2Proof.Machine

/-! ## The words of the block -/

@[simp] theorem length_wordsBE (w : Width) (n : Nat) (m : List Byte) : (wordsBE w n m).length = n := by
  induction n generalizing m with
  | zero => rfl
  | succ n ih => exact congrArg (· + 1) (ih _)

theorem getD_wordsBE (w : Width) {n t : Nat} (m : List Byte) (ht : t < n) :
    (wordsBE w n m).getD t 0 = BitVec.ofNat w.bits (fromBE ((m.drop (t * w.bytes)).take w.bytes)) := by
  induction n generalizing t m with
  | zero => exact absurd ht t.not_lt_zero
  | succ n ih =>
    cases t with
    | zero => simp [wordsBE]
    | succ t =>
      have hdrop : (t + 1) * w.bytes = w.bytes + t * w.bytes := by ring
      rw [wordsBE, List.getD_cons_succ, ih _ (by omega), List.drop_drop, hdrop]

/-- R11: the value of at most w/8 bytes fits in a word. -/
theorem fromBE_take_lt (w : Width) (bs : List Byte) : fromBE (bs.take w.bytes) < 2 ^ w.bits := by
  calc fromBE (bs.take w.bytes) < 256 ^ (bs.take w.bytes).reverse.length := fromLE_lt _
    _ ≤ 256 ^ w.bytes := Nat.pow_le_pow_right (by decide) (by simp)
    _ = 2 ^ w.bits := by cases w <;> rfl

/-! ## The recurrence, newest word first -/

/-- The last of the words that extend a schedule is made from all the words before it. -/
theorem extendSchedule_succ (w : Width) (n : Nat) (ws : List (BitVec w.bits)) :
    extendSchedule w (n + 1) ws = nextScheduleWord w (extendSchedule w n ws) :: extendSchedule w n ws := by
  induction n generalizing ws with
  | zero => rfl
  | succ n ih => exact ih _

@[simp] theorem length_extendSchedule (w : Width) (n : Nat) (ws : List (BitVec w.bits)) :
    (extendSchedule w n ws).length = ws.length + n := by
  induction n with
  | zero => rfl
  | succ n ih => rw [extendSchedule_succ, List.length_cons, ih, Nat.add_assoc]

/-- Extending a schedule keeps the words it had. -/
theorem suffix_extendSchedule (w : Width) (n : Nat) (ws : List (BitVec w.bits)) : ws <:+ extendSchedule w n ws := by
  induction n with
  | zero => exact List.suffix_rfl
  | succ n ih => rw [extendSchedule_succ]; exact ih.trans (List.suffix_cons _ _)

/-- Each added word is made from the words older than it. -/
theorem getD_extendSchedule (w : Width) {n i : Nat} (ws : List (BitVec w.bits)) (hi : i < n) :
    (extendSchedule w n ws).getD i 0 = nextScheduleWord w ((extendSchedule w n ws).drop (i + 1)) := by
  induction n generalizing i with
  | zero => exact absurd hi i.not_lt_zero
  | succ n ih =>
    rw [extendSchedule_succ]
    cases i with
    | zero => rfl
    | succ i => exact ih (by omega)

/-! ## The schedule, oldest word first -/

/-- R353: the next word after the `t` oldest words, by the words' numbers. -/
theorem nextScheduleWord_oldest (w : Width) {ws : List (BitVec w.bits)} {t : Nat} (h16 : 16 ≤ t) (ht : t ≤ ws.length) :
    nextScheduleWord w (ws.drop (ws.length - t)) =
      ssig1 w (ws.reverse.getD (t - 2) 0) + ws.reverse.getD (t - 7) 0 + ssig0 w (ws.reverse.getD (t - 15) 0) +
        ws.reverse.getD (t - 16) 0 := by
  have back : ∀ k < 16, (ws.drop (ws.length - t)).getD k 0 = ws.reverse.getD (t - (k + 1)) 0 := fun k hk => by
    have hidx : ws.length - 1 - (t - (k + 1)) = ws.length - t + k := by omega
    rw [List.getD_reverse _ (by omega), hidx, List.getD_eq_getElem?_getD, List.getD_eq_getElem?_getD,
      List.getElem?_drop]
  rw [nextScheduleWord, back 1 (by decide), back 6 (by decide), back 14 (by decide), back 15 (by decide)]

theorem length_schedule (w : Width) (m : List Byte) : (schedule w m).length = (roundConstants w).length := by
  have h16 : 16 ≤ (roundConstants w).length := by cases w <;> decide
  simp only [schedule, List.length_reverse, length_extendSchedule, length_wordsBE]
  omega

/-- R352. -/
theorem getD_schedule_block (w : Width) (m : List Byte) {t : Nat} (ht : t < 16) :
    (schedule w m).getD t 0 = BitVec.ofNat w.bits (fromBE ((m.drop (t * w.bytes)).take w.bytes)) := by
  obtain ⟨added, hadded⟩ := suffix_extendSchedule w ((roundConstants w).length - 16) (wordsBE w 16 m).reverse
  rw [schedule, ← hadded, List.reverse_append, List.reverse_reverse, List.getD_append _ _ _ _ (by simpa using ht),
    getD_wordsBE w m ht]

/-- R353. -/
theorem getD_schedule_recurrence (w : Width) (m : List Byte) {t : Nat} (h16 : 16 ≤ t)
    (ht : t < (roundConstants w).length) :
    (schedule w m).getD t 0 =
      ssig1 w ((schedule w m).getD (t - 2) 0) + (schedule w m).getD (t - 7) 0 +
        ssig0 w ((schedule w m).getD (t - 15) 0) + (schedule w m).getD (t - 16) 0 := by
  have hlen := length_schedule w m
  rw [schedule, List.length_reverse] at hlen
  rw [schedule, ← nextScheduleWord_oldest w h16 (by omega), List.getD_reverse _ (by omega),
    getD_extendSchedule w _ (by omega)]
  congr 2
  omega

/-- Settles O50: newest word first, the block's words end the list and every word before them is made from those
after it. The block's length is not used: a byte it lacks is lacking on both sides. -/
theorem messageSchedule : Obligations.MessageSchedule := by
  intro w m _
  have hrounds := length_roundConstants w
  refine ⟨(length_schedule w m).trans hrounds, fun t ht => ?_,
    fun t h16 ht => getD_schedule_recurrence w m h16 (ht.trans_eq hrounds.symm)⟩
  have hword := congrArg BitVec.toNat (getD_schedule_block w m ht)
  rwa [BitVec.toNat_ofNat, Nat.mod_eq_of_lt (fromBE_take_lt w _)] at hword

end Sys2Proof.Machine
end

section
/-! # How a command ends, and the errors of the sequencer's step (60_exceptions.md R500 to R507) -/
namespace Sys2Proof.Machine

/-! ## The two ways a command ends -/

/-- The state `t` in which the command `i` leaves `s` without an error. -/
inductive Completes (i : Instr) (s : State) : State → Prop where
  /-- CP moves on past the writes of the command, which are in `u` (R34). -/
  | advanced {u : State} (hcfg : u.cfg = s.cfg) (hcp : u.cp = s.cp) (hrun : u.run = s.run) (hirq : u.irq = s.irq) :
      Completes i s u.advance
  /-- HALT (R452). -/
  | halted : Completes i s s.halt.advance
  /-- CP goes to a branch target (R124). -/
  | branched (off : BitVec 16) (hb : takesBranch s i = true) : Completes i s (s.setCp (branchTarget s off))

/-- The answers that the command `i` can give in `s`: it completes, or it takes an error of R500 that is a command's
own, which FETCH_FAULT and ABORTED are not. -/
inductive EndsWith (i : Instr) (s : State) : Answer → Prop where
  | completed {t : State} (h : Completes i s t) : EndsWith i s (.next t)
  | raised {code : ErrCode} (hc : code ∉ [.none, .fetchFault, .aborted]) : EndsWith i s (raise code i s)

theorem EndsWith.advanced {i : Instr} {s u : State} (hcfg : u.cfg = s.cfg) (hcp : u.cp = s.cp) (hrun : u.run = s.run)
    (hirq : u.irq = s.irq) : EndsWith i s (complete u) :=
  .completed (.advanced hcfg hcp hrun hirq)

theorem EndsWith.branched {i : Instr} {s : State} (off : BitVec 16) (hb : takesBranch s i = true) :
    EndsWith i s (.next (s.setCp (branchTarget s off))) :=
  .completed (.branched off hb)

/-- A check leads to one of two endings. -/
theorem EndsWith.ite {i : Instr} {s : State} {p : Prop} [Decidable p] {x y : Answer} (hx : EndsWith i s x)
    (hy : EndsWith i s y) : EndsWith i s (if p then x else y) := by
  split <;> assumption

/-- Every command ends in one of the two ways. -/
theorem exec_endsWith (i : Instr) (s : State) : EndsWith i s (exec i s) := by
  cases i with
  | nop | movi | movk | mov | addi | tstx | wadd | wrotrv | wrotlv | wbswap | wch | wmaj | wbsig0 | wbsig1 | wssig0
  | wssig1 | nclr | nmov | nisz | neq | nbswap | hinit | hstat | hwipe => exact .advanced rfl rfl rfl rfl
  | halt => exact .completed .halted
  | jmp off => exact .branched off rfl
  | jz off =>
    show EndsWith _ s (if s.z then _ else _)
    split
    · next hz => exact .branched off hz
    · exact .advanced rfl rfl rfl rfl
  | jnz off =>
    show EndsWith _ s (if s.z then _ else _)
    split
    · exact .advanced rfl rfl rfl rfl
    · next hz => exact .branched off (by simpa [takesBranch] using hz)
  | ld8 | ld16 | ld32 | ld64 | st8 | st16 | st32 | st64 | wrotr | wrotl | nld | nst | nadds | nmuls | nbswapw | ngetw
  | nsetw => exact .ite (.advanced rfl rfl rfl rfl) (.raised (by decide))
  | ndivs => exact .ite (.ite (.raised (by decide)) (.advanced rfl rfl rfl rfl)) (.raised (by decide))
  | hupd => exact .ite (.ite (.advanced rfl rfl rfl rfl) (.raised (by decide))) (.raised (by decide))
  | hdig ra =>
    show EndsWith _ s (execHdig ra s)
    unfold execHdig
    split
    · exact .raised (by decide)
    · exact .ite (.advanced rfl rfl rfl rfl) (.raised (by decide))

theorem Completes.cfg {i : Instr} {s t : State} (h : Completes i s t) : t.cfg = s.cfg := by
  cases h with
  | advanced hcfg => exact hcfg
  | halted | branched => rfl

theorem Completes.run_ne_error {i : Instr} {s t : State} (h : Completes i s t) (hs : s.run = .running) :
    t.run ≠ .error := by
  cases h with
  | advanced hcfg hcp hrun => simp [hrun, hs]
  | halted => simp
  | branched => simp [hs]

/-- R34: a command that completes moves CP on by 4 or sends it to a branch target. -/
theorem Completes.cp {i : Instr} {s t : State} (h : Completes i s t) :
    t.cp = s.cp + 4 ∨ takesBranch s i = true ∧ ∃ off, t.cp = branchTarget s off := by
  cases h with
  | advanced hcfg hcp => exact .inl (congrArg (· + 4) hcp)
  | halted => exact .inl rfl
  | branched off hb => exact .inr ⟨hb, off, rfl⟩

/-- R452, R508: a command that completes leaves RUN and IRQ alone, or halts the sequencer and sets IRQ. -/
theorem Completes.run_irq {i : Instr} {s t : State} (h : Completes i s t) :
    t.run = s.run ∧ t.irq = s.irq ∨ t.run = .halted ∧ t.irq = true := by
  cases h with
  | advanced hcfg hcp hrun hirq => exact .inl ⟨hrun, hirq⟩
  | halted => exact .inr ⟨rfl, rfl⟩
  | branched => exact .inl ⟨rfl, rfl⟩

/-! ## The step of a running sequencer -/

/-- R504, R505, R507: `t` is `s` after ERROR_ENTRY and nothing else, a pending abort request consumed. -/
def PreciseError (s t : State) : Prop :=
  ∃ code : ErrCode, code ≠ .none ∧ (code = .aborted ↔ s.abortReq = true) ∧
    t = State.errorEntry { s with abortReq := false } code s.cp
      (if code = .fetchFault ∨ code = .aborted then 0 else s.fetchWord)

theorem clear_abortReq {s : State} (h : s.abortReq = false) : { s with abortReq := false } = s := by
  cases s; cases h; rfl

theorem preciseError_aborted {s : State} (h : s.abortReq = true) :
    PreciseError s (State.errorEntry { s with abortReq := false } .aborted s.cp 0) :=
  ⟨.aborted, nofun, iff_of_true rfl h, rfl⟩

theorem preciseError_fetchFault {s : State} (h : s.abortReq = false) :
    PreciseError s (s.errorEntry .fetchFault s.cp 0) :=
  ⟨.fetchFault, nofun, by simp [h], by rw [clear_abortReq h]; rfl⟩

theorem preciseError_command {s : State} (h : s.abortReq = false) {code : ErrCode}
    (hc : code ∉ [.none, .fetchFault, .aborted]) : PreciseError s (s.errorEntry code s.cp s.fetchWord) := by
  obtain ⟨hnone, hfault, haborted⟩ : code ≠ .none ∧ code ≠ .fetchFault ∧ code ≠ .aborted := by simpa using hc
  exact ⟨code, hnone, by simp [haborted, h], by simp only [clear_abortReq h, hfault, haborted, or_self, if_false]⟩

/-- R450: the abort, the fetch fault, the word that is no command and the command's own errors are all precise;
otherwise the command at CP completes. -/
theorem runStep_cases {s t : State} (h : runStep s = .next t) :
    PreciseError s t ∨ ∃ i, decode s.fetchWord = .ok i ∧ Completes i s t := by
  unfold runStep at h
  split at h
  · next hab => cases h; exact .inl (preciseError_aborted hab)
  next hab =>
  replace hab : s.abortReq = false := by simpa using hab
  split at h
  · cases hd : decode s.fetchWord with
    | error e =>
      rw [runFetched, show decodeBytes s.fetchBytes = .error e from hd] at h
      cases h
      exact .inl (preciseError_command hab (by decide))
    | ok i =>
      rw [runFetched, show decodeBytes s.fetchBytes = .ok i from hd] at h
      have hend : EndsWith i s (.next t) := h ▸ exec_endsWith i s
      cases hend with
      | completed hcomp => exact .inr ⟨i, rfl, hcomp⟩
      | raised hc =>
        rw [(decode_eq_ok_iff.mp hd).1]
        exact .inl (preciseError_command hab hc)
  · cases h; exact .inl (preciseError_fetchFault hab)

/-- R36: the sequencer has a step only while RUNNING. -/
theorem sequencerTurn_cases {s t : State} (h : sequencerTurn s = .next t) :
    s.run ≠ .running ∧ t = s ∨
    s.run = .running ∧ (PreciseError s t ∨ ∃ i, decode s.fetchWord = .ok i ∧ Completes i s t) := by
  by_cases hs : s.run = .running
  · rw [sequencerTurn_running s hs] at h
    exact .inr ⟨hs, runStep_cases h⟩
  · rw [sequencerTurn_stopped s hs] at h
    exact .inl ⟨hs, (Host.Outcome.next.inj h).symm⟩

/-- Settles O9: the errors of the sequencer's step are precise, and a command that completes ends in no error. -/
theorem errorsArePrecise : Obligations.ErrorsArePrecise := by
  intro s t hturns hrun h herr
  rw [step_no_turns s hturns, sequencerTurn_running s hrun] at h
  obtain hprecise | ⟨i, -, hcomp⟩ := runStep_cases h
  · exact hprecise
  · exact absurd herr (hcomp.run_ne_error hrun)

end Sys2Proof.Machine
end

section
/-! # What a step of any agent does to CP, RUN and IRQ (10_state.md R34, R36, R39; 60_exceptions.md R501, R508) -/
namespace Sys2Proof.Machine

/-! ## The agents' steps -/

/-- R30: a step is the sequencer's, the host's or the reset input's. -/
theorem step_cases {s t : State} (h : step s = .next t) :
    (∃ rest, sequencerTurn (s.setTurns rest) = .next t) ∨
    (∃ a rest, s.turns = .host a :: rest ∧ hostTurn a (s.setTurns rest) = .next t) ∨
    (∃ m rest, s.turns = .powerOn m :: rest ∧ t = (s.setTurns rest).powerOn m) := by
  cases hturns : s.turns with
  | nil =>
    have hs : s.setTurns [] = s := by rw [← hturns]; rfl
    exact .inl ⟨[], by rw [hs, ← h, step_no_turns s hturns]⟩
  | cons turn rest =>
    cases turn with
    | sequencer => exact .inl ⟨rest, by rw [← h, step_sequencer s rest hturns]⟩
    | host a => exact .inr (.inl ⟨a, rest, rfl, by rw [← h, step_host s a rest hturns]⟩)
    | powerOn m =>
      rw [step_powerOn s m rest hturns] at h
      exact .inr (.inr ⟨m, rest, rfl, (Host.Outcome.next.inj h).symm⟩)

/-- The window offset of an address, counted from HOST_BASE (R87). -/
theorem eq_hostBase_add_of_windowOffset {c : Config} {addr o : Nat} (h : Config.windowOffset c addr = some o) :
    addr = c.hostBase + o := by
  simp only [Config.windowOffset, Option.ite_none_right_eq_some, Option.some.injEq] at h
  omega

/-- The next turn is the host's write of `v` to the register at offset `o`, `rest` coming after it. -/
def HostWrites (s : State) (o : Nat) (v : Word32) (rest : List Turn) : Prop :=
  s.turns = .host (.write (s.cfg.hostBase + o) v) :: rest

/-- The next turn resets QHC: CTRL.SOFT_RESET (R61) or the reset input (R550). -/
def Resets (s : State) : Prop :=
  (∃ v rest, HostWrites s 0x004 v rest ∧ v.getLsbD 2 = true) ∨ ∃ m rest, s.turns = .powerOn m :: rest

/-! ## CP, RUN and IRQ in one step -/

/-- What the step from `s` to `t` does to CP, RUN and IRQ, and whose step it is where they change. -/
inductive ControlChange (s t : State) : Prop where
  /-- At most a stopped sequencer is started. -/
  | kept (hcp : t.cp = s.cp) (hrun : s.run = .running → t.run = .running) (hirq : t.irq = s.irq)
  | completed {i : Instr} {rest : List Turn} (hs : s.run = .running) (hd : decode s.fetchWord = .ok i)
      (hcomp : Completes i (s.setTurns rest) t)
  | error (hs : s.run = .running) (hcp : t.cp = s.cp) (hrun : t.run = .error) (hirq : t.irq = true)
  | statusWrite {v : Word32} {rest : List Turn} (hw : HostWrites s 0x008 v rest) (hcp : t.cp = s.cp)
      (hrun : t.run = s.run) (hirq : t.irq = (s.irq && !v.getLsbD 2))
  | cpWrite {v : Word32} {rest : List Turn} (hw : HostWrites s 0x00C v rest) (hrun : t.run = s.run)
      (hirq : t.irq = s.irq)
  | reset (hr : Resets s) (hcp : t.cp = 0) (hrun : t.run = .idle) (hirq : t.irq = false)

/-- R61: without SOFT_RESET, a write of CTRL leaves CP and IRQ alone and at most starts the sequencer. -/
theorem writeCtrl_control (s : State) {v : Word32} (hv : v.getLsbD 2 = false) :
    (s.writeCtrl v).cp = s.cp ∧ (s.run = .running → (s.writeCtrl v).run = .running) ∧
      (s.writeCtrl v).irq = s.irq := by
  by_cases hr : s.run = .running
  · rw [writeCtrl_running hv hr]
    exact ⟨rfl, id, rfl⟩
  · rw [writeCtrl_stopped hv hr]
    split <;> exact ⟨rfl, fun hs => absurd hs hr, rfl⟩

theorem hostRead_control (s : State) (o : Nat) :
    (s.hostRead o).cp = s.cp ∧ (s.hostRead o).run = s.run ∧ (s.hostRead o).irq = s.irq := by
  unfold State.hostRead
  split_ifs <;> exact ⟨rfl, rfl, rfl⟩

/-- R61 to R64, R90: of the host's writes, those of CTRL, STATUS and CP reach CP, RUN and IRQ. -/
theorem hostWrite_control {s : State} {o : Nat} {v : Word32} {rest : List Turn} (h : HostWrites s o v rest) :
    ControlChange s ((s.setTurns rest).hostWrite o v) := by
  unfold State.hostWrite
  split_ifs with hwin hrun hctrl hstatus hcp
  · exact .kept rfl id rfl
  · exact .kept rfl id rfl
  · subst hctrl
    cases hv : v.getLsbD 2 with
    | true =>
      rw [writeCtrl_softReset _ hv]
      exact .reset (.inl ⟨v, rest, h, hv⟩) rfl rfl rfl
    | false =>
      obtain ⟨hcp, hrun, hirq⟩ := writeCtrl_control (s.setTurns rest) hv
      exact .kept hcp hrun hirq
  · subst hstatus
    exact .statusWrite h rfl rfl rfl
  · subst hcp
    unfold State.writeCp
    split <;> exact .cpWrite h rfl rfl
  · exact .kept rfl id rfl

theorem hostTurn_control {s t : State} {a : HostAccess} {rest : List Turn} (hturns : s.turns = .host a :: rest)
    (h : hostTurn a (s.setTurns rest) = .next t) : ControlChange s t := by
  obtain ⟨-, rfl⟩ | ⟨o, ho, -, rfl⟩ := hostTurn_cases h
  · exact .kept rfl id rfl
  · have haddr : a.addr = s.cfg.hostBase + o := eq_hostBase_add_of_windowOffset ho
    cases a with
    | read addr =>
      obtain ⟨hcp, hrun, hirq⟩ := hostRead_control (s.setTurns rest) o
      exact .kept hcp hrun.trans hirq
    | write addr v =>
      obtain rfl : addr = s.cfg.hostBase + o := haddr
      exact hostWrite_control hturns

theorem sequencerTurn_control {s t : State} {rest : List Turn} (h : sequencerTurn (s.setTurns rest) = .next t) :
    ControlChange s t := by
  obtain ⟨-, rfl⟩ | ⟨hs, ⟨code, -, -, rfl⟩ | ⟨i, hd, hcomp⟩⟩ := sequencerTurn_cases h
  · exact .kept rfl id rfl
  · exact .error hs rfl rfl rfl
  · exact .completed hs hd hcomp

theorem step_control {s t : State} (h : step s = .next t) : ControlChange s t := by
  obtain ⟨rest, hseq⟩ | ⟨a, rest, hturns, hhost⟩ | ⟨m, rest, hturns, rfl⟩ := step_cases h
  · exact sequencerTurn_control hseq
  · exact hostTurn_control hturns hhost
  · exact .reset (.inr ⟨m, rest, hturns⟩) rfl rfl rfl

/-! ## The interrupt -/

/-- Settles O13: of the ways CP, RUN and IRQ change, only HALT and an error set IRQ, and only a write of STATUS and a
reset clear it. -/
theorem completionInterrupt : Obligations.CompletionInterrupt := by
  refine ⟨fun s t h hs ht => ?_, fun s t h hs ht => ?_, fun s t h hs ht => ?_, fun s => Bool.and_eq_true_iff⟩
  · cases step_control h with
    | completed _ _ hcomp =>
      obtain ⟨hrun, -⟩ | ⟨-, hirq⟩ := hcomp.run_irq
      · simp [hrun, hs] at ht
      · exact hirq
    | error _ _ _ hirq => exact hirq
    | kept _ hrun | statusWrite _ _ hrun | cpWrite _ hrun | reset _ _ hrun => simp [hrun, hs] at ht
  · cases step_control h with
    | completed hrun _ hcomp =>
      obtain ⟨-, hirq⟩ | ⟨hhalt, -⟩ := hcomp.run_irq
      · simp [hirq, hs] at ht
      · exact ⟨hrun, .inl hhalt⟩
    | error hrun _ herr => exact ⟨hrun, .inr herr⟩
    | kept _ _ hirq | statusWrite _ _ _ hirq | cpWrite _ _ hirq | reset _ _ _ hirq => simp [hirq, hs] at ht
  · cases step_control h with
    | completed _ _ hcomp => obtain ⟨-, hirq⟩ | ⟨-, hirq⟩ := hcomp.run_irq <;> simp [hirq, hs] at ht
    | statusWrite hw _ _ hirq => exact .inl ⟨_, _, hw, by simpa [hirq, hs] using ht⟩
    | reset hreset => exact .inr hreset
    | kept _ _ hirq | error _ _ _ hirq | cpWrite _ _ hirq => simp [hirq, hs] at ht

/-! ## CP -/

theorem writeCtrl_cfg (s : State) (v : Word32) : (s.writeCtrl v).cfg = s.cfg := by
  cases hv : v.getLsbD 2 with
  | true => rw [writeCtrl_softReset _ hv]; rfl
  | false =>
    by_cases hr : s.run = .running
    · rw [writeCtrl_running hv hr]
    · rw [writeCtrl_stopped hv hr]; split <;> rfl

theorem writeCp_cfg (s : State) (v : Word32) : (s.writeCp v).cfg = s.cfg := by
  unfold State.writeCp
  split <;> rfl

theorem hostRead_cfg (s : State) (o : Nat) : (s.hostRead o).cfg = s.cfg := by
  unfold State.hostRead
  split_ifs <;> rfl

theorem hostWrite_cfg (s : State) (o : Nat) (v : Word32) : (s.hostWrite o v).cfg = s.cfg := by
  unfold State.hostWrite
  split_ifs with hwin hrun hctrl hstatus hcp
  · rfl
  · rfl
  · exact writeCtrl_cfg s v
  · rfl
  · exact writeCp_cfg s v
  · rfl

/-- R7, R87: no step changes a parameter. -/
theorem step_cfg {s t : State} (h : step s = .next t) : t.cfg = s.cfg := by
  obtain ⟨rest, hseq⟩ | ⟨a, rest, -, hhost⟩ | ⟨m, rest, -, rfl⟩ := step_cases h
  · obtain ⟨-, rfl⟩ | ⟨-, ⟨code, -, -, rfl⟩ | ⟨i, -, hcomp⟩⟩ := sequencerTurn_cases hseq
    · rfl
    · rfl
    · exact hcomp.cfg
  · obtain ⟨-, rfl⟩ | ⟨o, -, -, rfl⟩ := hostTurn_cases hhost
    · rfl
    · cases a with
      | read => exact hostRead_cfg _ o
      | write _ v => exact hostWrite_cfg _ o v
  · rfl

/-- R501. -/
theorem step_fetchFault {s : State} (hturns : s.turns = []) (hrun : s.run = .running) (hab : s.abortReq = false)
    (h : ¬ s.canFetch) : step s = .next (s.errorEntry .fetchFault s.cp 0) := by
  rw [step_no_turns s hturns, sequencerTurn_running s hrun, runStep, hab, if_neg Bool.false_ne_true, if_neg h]

theorem toNat_add_four (c : Word32) : (c + 4).toNat = (c.toNat + 4) % 2 ^ 32 := BitVec.toNat_add c 4

/-- R124, R501: the offset of a branch counts words, so the target is aligned as CP is. -/
theorem branchTarget_mod_four (s : State) (off : BitVec 16) : (branchTarget s off).toNat % 4 = s.cp.toNat % 4 := by
  have h4 : (4 : Word32).toNat = 4 := rfl
  simp only [branchTarget, BitVec.toNat_add, BitVec.toNat_mul, h4]
  omega

theorem Completes.cp_mod_four {i : Instr} {s t : State} (h : Completes i s t) : t.cp.toNat % 4 = s.cp.toNat % 4 := by
  obtain hcp | ⟨-, off, hcp⟩ := h.cp
  · rw [hcp, toNat_add_four]
    omega
  · rw [hcp, branchTarget_mod_four]

/-- R34, R501: CP + 4 runs off the end of LMEM or is in range: the one CP that wraps goes to 0. -/
theorem toNat_add_four_of_out_of_range {c : Config} (hwf : c.WellFormed) {cp : Word32}
    (hcp : cp.toNat + 4 ≤ c.lmemBytes) (hout : c.lmemBytes < (cp + 4).toNat + 4) : (cp + 4).toNat = cp.toNat + 4 := by
  rw [toNat_add_four] at hout ⊢
  omega

/-- Settles O8: a step that neither is a host's write of CP nor completes a command leaves CP as it was or makes it 0;
a command that completes keeps the alignment, and without a branch moves CP on by 4. -/
theorem fetchFaults : Obligations.FetchFaults := by
  refine ⟨fun s hturns hrun hab h => step_fetchFault hturns hrun hab (by omega), fun s t h hs ht => ?_,
    fun s t hwf h hs ht => ?_⟩
  · cases step_control h with
    | cpWrite hw => exact ⟨_, _, hw⟩
    | completed _ _ hcomp => exact absurd (hcomp.cp_mod_four.trans hs) ht
    | kept hcp | error _ hcp | statusWrite _ hcp | reset _ hcp => simp [hcp, hs] at ht
  · rw [step_cfg h] at ht
    cases step_control h with
    | cpWrite hw => exact .inl ⟨_, _, hw⟩
    | @completed i rest hrun hd hcomp =>
      refine .inr ⟨hrun, i, hd, ?_⟩
      obtain hcp | ⟨hb, -⟩ := hcomp.cp
      · rw [hcp] at ht ⊢
        exact .inr (toNat_add_four_of_out_of_range hwf hs ht)
      · exact .inl hb
    | kept hcp | error _ hcp | statusWrite _ hcp =>
      rw [hcp] at ht
      exact absurd hs ht.not_ge
    | reset _ hcp =>
      have hzero : t.cp.toNat = 0 := by rw [hcp]; rfl
      omega

end Sys2Proof.Machine
end

section
/-! # Decoding: the round trips, and the spec's own words (30_encoding.md R128 to R132) -/
namespace Sys2Proof

/-- Settles O2: the word of a command is found at the command's row, and the row reads it back. -/
theorem decodeEncodeRoundTrip : Obligations.DecodeEncodeRoundTrip := fun _ hw => decode_encode hw

/-- Settles O3: the encoder puts every field back, and a row's mask and fields cover the whole word. -/
theorem encodeDecodeRoundTrip : Obligations.EncodeDecodeRoundTrip := fun _ _ h => decode_eq_ok_iff.mp h

/-- Settles O1: each word is the word of the command it stands for. -/
theorem specWordsDecode : Obligations.SpecWordsDecode := by
  simp only [Obligations.SpecWordsDecode, decode_eq_ok_iff]
  decide

end Sys2Proof
end

section
/-! # The effect of a command: what it writes, or the error it takes (10_state.md R32 to R39; 60_exceptions.md R503) -/
namespace Sys2Proof.Machine

/-! ## What a completing command writes -/

/-- The hash context that the command may leave when it completes in `s` (42_hash_engine.md R302 to R304, R316). -/
inductive HashEffect (s : State) : Instr → HashCtx → Prop where
  | kept (i : Instr) : HashEffect s i s.he
  | init (m : Mode) : HashEffect s (.hinit m) (.init m)
  | wiped : HashEffect s .hwipe .wiped
  | updated (ra rb : XReg) (m : List Byte) (hs : s.he.state = .empty ∨ s.he.state = .accum) :
      HashEffect s (.hupd ra rb) (s.he.update m m.length)
  | digested (ra : XReg) (hs : s.he.state ≠ .uninit) : HashEffect s (.hdig ra) s.he.digested

/-- `u` is `s` with the writes of the command `i` in it, CP not yet moved. -/
structure Writes (i : Instr) (s u : State) : Prop where
  only : u = { s with xregs := u.xregs, z := u.z, nregs := u.nregs, he := u.he, lmem := u.lmem }
  x : ∀ r, r ∉ writesX i → u.x r = s.x r
  n : ∀ r, r ∉ writesN i → u.n r = s.n r
  he : HashEffect s i u.he
  lmem : u.lmem = s.lmem ∨ ∃ (lo : Nat) (bs : List Byte), storeSpan s i = some (lo, bs.length) ∧
    s.inRange lo bs.length ∧ u.lmem = s.lmem.writeBytes lo bs

namespace Writes
variable {i : Instr} {s u : State}

theorem nothing : Writes i s s := ⟨rfl, fun _ _ => rfl, fun _ _ => rfl, .kept i, .inl rfl⟩

theorem setX {rd : XReg} {v : Word64} (hrd : rd ∈ writesX i) (h : Writes i s u) : Writes i s (u.setX rd v) where
  only := by rw [h.only]; rfl
  x r hr := (State.x_setX_ne u rd r v fun e => hr (e ▸ hrd)).trans (h.x r hr)
  n := h.n
  he := h.he
  lmem := h.lmem

theorem setN {nd : NReg} {v : Number} (hnd : nd ∈ writesN i) (h : Writes i s u) : Writes i s (u.setN nd v) where
  only := by rw [h.only]; rfl
  x := h.x
  n r hr := (State.n_setN_ne u nd r v fun e => hr (e ▸ hnd)).trans (h.n r hr)
  he := h.he
  lmem := h.lmem

theorem setZ {b : Bool} (h : Writes i s u) : Writes i s (u.setZ b) where
  only := by rw [h.only]; rfl
  x := h.x
  n := h.n
  he := h.he
  lmem := h.lmem

theorem setHe {c : HashCtx} (hc : HashEffect s i c) (h : Writes i s u) : Writes i s (u.setHe c) where
  only := by rw [h.only]; rfl
  x := h.x
  n := h.n
  he := hc
  lmem := h.lmem

theorem setLmem {lo : Nat} {bs : List Byte} (hspan : storeSpan s i = some (lo, bs.length))
    (hr : s.inRange lo bs.length) (h : Writes i s u) : Writes i s (u.setLmem (s.lmem.writeBytes lo bs)) where
  only := by rw [h.only]; rfl
  x := h.x
  n := h.n
  he := h.he
  lmem := .inr ⟨lo, bs, hspan, hr, rfl⟩

theorem storeLE {lo n v : Nat} (hspan : storeSpan s i = some (lo, n)) (hr : s.inRange lo n) :
    Writes i s (s.setLmem (s.lmem.storeLE lo n v)) :=
  nothing.setLmem (by rwa [length_toLE]) (by rwa [length_toLE])

/-- R84: no byte changes but those of the command's span. -/
theorem get_lmem (h : Writes i s u) {a : Nat} (ha : ¬ storesAt s i a) : u.lmem.get a = s.lmem.get a := by
  obtain hm | ⟨lo, bs, hspan, -, hm⟩ := h.lmem
  · rw [hm]
  · rw [hm, Memory.get_writeBytes_outside]
    simpa [storesAt, hspan] using ha

end Writes

/-! ## The answers of a command -/

/-- R303: HUPD outside EMPTY and ACCUM, whatever the range. -/
theorem exec_hupd_refused {s : State} (ra rb : XReg) (hs : ¬ (s.he.state = .empty ∨ s.he.state = .accum)) :
    exec (.hupd ra rb) s = raise .hashState (.hupd ra rb) s :=
  if_neg (mt acceptsUpdate_eq_true_iff.mp hs)

/-- R304, R85: outside UNINIT, HDIG takes DATA_FAULT where its range leaves LMEM. -/
theorem exec_hdig_dataFault {s : State} {ra : XReg} (hs : s.he.state ≠ .uninit)
    (hr : ¬ s.inRange (s.x ra).toNat s.he.mode.digestBytes) :
    exec (.hdig ra) s = raise .dataFault (.hdig ra) s := by
  cases hc : s.he.state with
  | uninit => exact absurd hc hs
  | empty | accum | final => simp only [exec, execHdig, hc, if_neg hr]

/-- Everything that the command `i` can answer in `s`: as `EndsWith`, with what the command writes and which of the
errors of R503 it takes. -/
inductive Effect (i : Instr) (s : State) : Answer → Prop where
  | completed {u : State} (hb : takesBranch s i = false) (hw : Writes i s u) : Effect i s (complete u)
  | halted (hi : i = .halt) : Effect i s (complete s.halt)
  | branched {off : BitVec 16} (hi : i = .jmp off ∨ i = .jz off ∨ i = .jnz off) (hb : takesBranch s i = true) :
      Effect i s (.next (s.setCp (branchTarget s off)))
  | raised {code : ErrCode} (hc : code ∈ canRaise i ∨ i.wellFormed = false ∧ code = .illegal) :
      Effect i s (raise code i s)

theorem Effect.ite {i : Instr} {s : State} {p : Prop} [Decidable p] {x y : Answer} (hx : p → Effect i s x)
    (hy : ¬ p → Effect i s y) : Effect i s (if p then x else y) := by
  split
  · exact hx ‹_›
  · exact hy ‹_›

theorem Effect.illegal {i : Instr} {s : State} (h : ¬ i.wellFormed = true) : Effect i s (raise .illegal i s) :=
  .raised (.inr ⟨eq_false_of_ne_true h, rfl⟩)

theorem exec_effect (i : Instr) (s : State) : Effect i s (exec i s) := by
  cases i with
  | nop => exact .completed rfl .nothing
  | halt => exact .halted rfl
  | jmp off => exact .branched (.inl rfl) rfl
  | jz off =>
    exact .ite (fun hz => .branched (.inr (.inl rfl)) hz) fun hz => .completed (eq_false_of_ne_true hz) .nothing
  | jnz off =>
    exact .ite (fun hz => .completed (congrArg not hz) .nothing) fun hz =>
      .branched (.inr (.inr rfl)) (congrArg not (eq_false_of_ne_true hz))
  | movi | movk | mov | wadd | wrotrv | wrotlv | wbswap | wch | wmaj | wbsig0 | wbsig1 | wssig0 | wssig1 | hstat =>
    exact .completed rfl (.setX (.head _) .nothing)
  | addi => exact .completed rfl (.setZ (.setX (.head _) .nothing))
  | tstx | nisz | neq => exact .completed rfl (.setZ .nothing)
  | ld8 | ld16 | ld32 | ld64 =>
    exact .ite (fun _ => .completed rfl (.setX (.head _) .nothing)) fun _ => .raised (.inl (.head _))
  | st8 | st16 | st32 | st64 | nst =>
    exact .ite (fun hr => .completed rfl (.storeLE rfl hr)) fun _ => .raised (.inl (.head _))
  | wrotr | wrotl => exact .ite (fun _ => .completed rfl (.setX (.head _) .nothing)) fun hf => .illegal hf
  | nld => exact .ite (fun _ => .completed rfl (.setN (.head _) .nothing)) fun _ => .raised (.inl (.head _))
  | nclr | nmov | nbswap => exact .completed rfl (.setN (.head _) .nothing)
  | nadds | nmuls | nbswapw => exact .ite (fun _ => .completed rfl (.setN (.head _) .nothing)) fun hf => .illegal hf
  | ndivs =>
    exact .ite (fun _ => .ite (fun _ => .raised (.inl (.head _)))
      fun _ => .completed rfl (.setX (.head _) (.setN (.head _) .nothing))) fun hf => .illegal hf
  | ngetw => exact .ite (fun _ => .completed rfl (.setX (.head _) .nothing)) fun _ => .raised (.inl (.head _))
  | nsetw => exact .ite (fun _ => .completed rfl (.setN (.head _) .nothing)) fun _ => .raised (.inl (.head _))
  | hinit m => exact .completed rfl (.setHe (.init m) .nothing)
  | hwipe => exact .completed rfl (.setHe .wiped .nothing)
  | hupd ra rb =>
    refine .ite (fun hs => .ite (fun _ => ?_) fun _ => .raised (.inl (.tail _ (.head _))))
      fun _ => .raised (.inl (.head _))
    have hupdated := HashEffect.updated ra rb (s.lmem.readBytes (s.x ra).toNat (s.x rb).toNat)
      (acceptsUpdate_eq_true_iff.mp hs)
    rw [Memory.length_readBytes] at hupdated
    exact .completed rfl (.setHe hupdated .nothing)
  | hdig ra =>
    by_cases hs : s.he.state = .uninit
    · rw [exec_hdig_hashState ra hs]
      exact .raised (.inl (.head _))
    · by_cases hr : s.inRange (s.x ra).toNat s.he.mode.digestBytes
      · have hlen : s.he.digested.output.length = s.he.mode.digestBytes := by simp
        rw [exec_hdig_inRange hs hr]
        exact .completed rfl ((Writes.setHe (.digested ra hs) .nothing).setLmem (by rw [hlen]; rfl) (hlen ▸ hr))
      · rw [exec_hdig_dataFault hs hr]
        exact .raised (.inl (.tail _ (.head _)))

end Sys2Proof.Machine
end

section
/-! # What the commands leave alone, and the errors they take (10_state.md R32 to R45; 60_exceptions.md R503) -/
namespace Sys2Proof.Machine

/-! ## The command pointer -/

/-- R124: the branch target, the offset counting words and signed. -/
theorem toNat_branchTarget (s : State) (off : BitVec 16) :
    ((branchTarget s off).toNat : Int) = ((s.cp.toNat : Int) + 4 * off.toInt) % 2 ^ 32 := by
  have h4 : (4 : Word32).toNat = 4 := rfl
  simp only [branchTarget, BitVec.signExtend, BitVec.toNat_add, BitVec.toNat_mul, BitVec.toNat_ofInt, h4]
  omega

/-- Settles O15: of the ways a command ends, only a taken branch sends CP elsewhere than to CP + 4; an error
leaves it. -/
theorem nextCommandPointer : Obligations.NextCommandPointer := by
  intro i s t hrun h
  have heff : Effect i s (.next t) := h ▸ exec_effect i s
  cases heff with
  | completed hb hw =>
    have hcp := toNat_add_four s.cp
    rw [hw.only]
    exact ⟨fun herr => absurd (hrun.symm.trans herr) nofun, fun _ _ => hcp,
      fun _ ht => absurd (hb.symm.trans ht) nofun⟩
  | halted hi =>
    subst hi
    exact ⟨nofun, fun _ _ => toNat_add_four s.cp, nofun⟩
  | @branched off hi hb =>
    exact ⟨fun herr => absurd (hrun.symm.trans herr) nofun, fun _ hf => absurd (hb.symm.trans hf) nofun,
      fun _ _ => ⟨off, hi, toNat_branchTarget s off⟩⟩
  | raised => exact ⟨fun _ => rfl, fun h => absurd rfl h, fun h => absurd rfl h⟩

/-! ## Registers, the hash context, LMEM and the host's side -/

/-- Settles O16: only a command that completes writes registers, and only its destinations. -/
theorem onlyDestinationRegistersChange : Obligations.OnlyDestinationRegistersChange := by
  intro i s t h
  have heff : Effect i s (.next t) := h ▸ exec_effect i s
  cases heff with
  | completed _ hw => exact ⟨hw.x, hw.n⟩
  | halted | branched | raised => exact ⟨fun _ _ => rfl, fun _ _ => rfl⟩

@[simp] theorem HashCtx.digested_total (c : HashCtx) : c.digested.total = c.total := by
  unfold HashCtx.digested
  split <;> simp

/-- Settles O18: the five things a command may leave in the hash context. -/
theorem onlyHashCommandsWriteTheContext : Obligations.OnlyHashCommandsWriteTheContext := by
  intro i s t h
  have heff : Effect i s (.next t) := h ▸ exec_effect i s
  cases heff with
  | @completed u _ hw =>
    show (_ → u.he = _) ∧ (_ → _ → u.he.mode = _) ∧ (_ → u.he.total = _)
    have hhe : HashEffect s i u.he := hw.he
    generalize u.he = c at hhe ⊢
    cases hhe with
    | kept => exact ⟨fun _ => rfl, fun _ _ => rfl, fun _ => rfl⟩
    | init m => exact ⟨nofun, fun hi _ => absurd rfl (hi m), nofun⟩
    | wiped => exact ⟨nofun, fun _ hi => absurd rfl hi, nofun⟩
    | updated ra rb m => exact ⟨nofun, fun _ _ => s.he.update_mode m _, nofun⟩
    | digested ra => exact ⟨nofun, fun _ _ => s.he.digested_mode, fun _ => s.he.digested_total⟩
  | halted | branched | raised => exact ⟨fun _ => rfl, fun _ _ => rfl, fun _ => rfl⟩

/-- Settles O19: only a command that completes stores, and a command that completes ends in no error. -/
theorem onlyStoredBytesChange : Obligations.OnlyStoredBytesChange := by
  intro i s t h
  have heff : Effect i s (.next t) := h ▸ exec_effect i s
  cases heff with
  | completed _ hw =>
    refine ⟨fun a ha => hw.get_lmem ha, fun hrun herr => ?_⟩
    rw [hw.only] at herr
    exact absurd (hrun.symm.trans herr) nofun
  | halted | branched | raised => exact ⟨fun _ _ => rfl, fun _ _ => rfl⟩

/-- Settles O20: a command writes X, Z, N, the context, LMEM and CP; HALT and an error write the control state. -/
theorem commandsLeaveTheHostSideAlone : Obligations.CommandsLeaveTheHostSideAlone := by
  intro i s t h
  have heff : Effect i s (.next t) := h ▸ exec_effect i s
  cases heff with
  | completed _ hw =>
    rw [hw.only]
    exact ⟨rfl, rfl, rfl, rfl, rfl, rfl, fun _ _ => ⟨rfl, rfl, rfl, fun _ => ⟨rfl, rfl⟩⟩⟩
  | halted hi => exact ⟨rfl, rfl, rfl, rfl, rfl, rfl, fun _ _ => ⟨rfl, rfl, rfl, fun hne => absurd hi hne⟩⟩
  | branched => exact ⟨rfl, rfl, rfl, rfl, rfl, rfl, fun _ _ => ⟨rfl, rfl, rfl, fun _ => ⟨rfl, rfl⟩⟩⟩
  | raised => exact ⟨rfl, rfl, rfl, rfl, rfl, rfl, fun _ hne => absurd rfl hne⟩

/-- Settles O21: each of the four ways a command ends is a next state. -/
theorem everyCommandTerminates : Obligations.EveryCommandTerminates := by
  intro i s
  have heff : Effect i s (exec i s) := exec_effect i s
  generalize exec i s = answer at heff ⊢
  cases heff <;> exact ⟨_, rfl⟩

/-! ## Errors -/

/-- Settles O12: a command that completes ends in no error, and a well-formed one raises only its own errors; the check
of HE.STATE comes first. -/
theorem errorsOfEachCommand : Obligations.ErrorsOfEachCommand := by
  intro i s t hwf h
  refine ⟨fun hrun herr => ?_, fun hno => ?_⟩
  · have heff : Effect i s (.next t) := h ▸ exec_effect i s
    cases heff with
    | completed _ hw =>
      rw [hw.only] at herr
      exact absurd (hrun.symm.trans herr) nofun
    | halted => cases herr
    | branched => exact absurd (hrun.symm.trans herr) nofun
    | raised hc =>
      obtain hc | ⟨hill, -⟩ := hc
      · exact hc
      · exact absurd (hwf.symm.trans hill) nofun
  · cases i with
    | hupd ra rb => exact Host.Outcome.next.inj (h.symm.trans (exec_hupd_refused ra rb hno))
    | hdig ra => exact Host.Outcome.next.inj (h.symm.trans (exec_hdig_hashState ra (not_not.mp hno)))
    | _ => exact absurd trivial hno

/-- Settles O14: the six commands that have an illegal field value check it first. -/
theorem illFormedTermsTakeIllegal : Obligations.IllFormedTermsTakeIllegal := by
  intro i s hwf
  cases i with
  | wrotr | wrotl | nadds | nmuls | ndivs | nbswapw => exact if_neg (Bool.eq_false_iff.mp hwf)
  | _ => cases hwf

end Sys2Proof.Machine
end

section
/-! # The invariant of the reachable states (10_state.md R36, R37, R42, R46; 44_ripemd160.md R411) -/
namespace Sys2Proof.Machine

/-! ## The digest words of a mode -/

/-- R42, R411: the digest words use no bit beyond the mode's: w bits of each, and of RIPEMD-160 the first five. -/
def DigestFits (m : Mode) (h : Vector Word64 8) : Prop :=
  (m.width = .w32 → ∀ k : Fin 8, h[k].toNat < 2 ^ 32) ∧ (m = .rmd160 → h[5] = 0 ∧ h[6] = 0 ∧ h[7] = 0)

theorem seedOf_fits (m : Mode) : DigestFits m (seedOf m) := by
  cases m <;> exact ⟨by decide, by decide⟩

theorem toNat_setWidth_word_lt (x : Word32) : (x.setWidth 64).toNat < 2 ^ 32 := by
  rw [BitVec.toNat_setWidth_of_le (by decide)]
  exact x.isLt

/-- R355: the feed-forward of the 32-bit compression is zero-extended. -/
theorem sha2Feed_lt (u v : Sha2Vars 32) (k : Fin 8) : (sha2Feed .w32 u v)[k].toNat < 2 ^ 32 := by
  fin_cases k <;> exact toNat_setWidth_word_lt _

/-- R404: so is the combination of RIPEMD-160. -/
theorem rmdCombine_lt (u l r : RmdVars) (k : Fin 8) : (rmdCombine u l r)[k].toNat < 2 ^ 32 := by
  match k with
  | 0 | 1 | 2 | 3 | 4 => exact toNat_setWidth_word_lt _
  | 5 | 6 | 7 => exact Nat.two_pow_pos 32

/-- Whatever it is given, a compression leaves words of the mode's form. -/
theorem compressFn_fits (m : Mode) (h : Vector Word64 8) (block : List Byte) : DigestFits m (compressFn m h block) := by
  cases m with
  | sha256 | sha224 => exact ⟨fun _ k => sha2Feed_lt _ _ k, nofun⟩
  | sha512 | sha384 | sha512t256 | sha512t224 => exact ⟨nofun, nofun⟩
  | rmd160 => exact ⟨fun _ k => rmdCombine_lt _ _ _ k, fun _ => ⟨rfl, rfl, rfl⟩⟩

theorem appendByte_fits {c : HashCtx} (b : Byte) (h : DigestFits c.mode c.h) :
    DigestFits c.mode (c.appendByte b).h := by
  unfold HashCtx.appendByte
  split
  · exact h
  · exact compressFn_fits _ _ _

theorem append_fits {c : HashCtx} (m : List Byte) (h : DigestFits c.mode c.h) : DigestFits c.mode (c.append m).h := by
  induction m generalizing c with
  | nil => exact h
  | cons b m ih =>
    rw [← c.appendByte_mode b]
    exact ih ((c.appendByte_mode b).symm ▸ appendByte_fits b h)

theorem makeRoom_fits {c : HashCtx} (h : DigestFits c.mode c.h) : DigestFits c.mode c.makeRoom.h := by
  unfold HashCtx.makeRoom
  split
  · exact compressFn_fits _ _ _
  · exact h

theorem finalize_fits {c : HashCtx} (h : DigestFits c.mode c.h) : DigestFits c.mode c.finalize.h := by
  have hroom := makeRoom_fits (c := c.append [0x80]) (c.append_mode _ ▸ append_fits _ h)
  have hpad := append_fits (c := (c.append [0x80]).makeRoom.padZeros) (lengthField c.mode c.lengthBits)
  simp only [HashCtx.padZeros_mode, HashCtx.padZeros_h, HashCtx.makeRoom_mode, HashCtx.append_mode] at hroom hpad
  exact hpad hroom

/-! ## The hash context -/

theorem HashCtx.Inv.fits {c : HashCtx} (h : c.Inv) : DigestFits c.mode c.h := ⟨h.narrow, h.rmd_unused⟩

theorem wiped_inv : HashCtx.wiped.Inv :=
  ⟨fun _ => rfl, nofun, nofun, nofun, by decide, nofun⟩

theorem init_inv (m : Mode) : (HashCtx.init m).Inv :=
  ⟨nofun, fun _ => ⟨rfl, rfl⟩, nofun, nofun, (seedOf_fits m).1, (seedOf_fits m).2⟩

/-- R46: in EMPTY and ACCUM, OFF = TOTAL mod B. -/
theorem HashCtx.Inv.off_eq {c : HashCtx} (h : c.Inv) (hs : c.state = .empty ∨ c.state = .accum) :
    c.off.toNat = c.total.toNat % c.mode.blockBytes := by
  obtain hs | hs := hs
  · obtain ⟨htotal, hoff⟩ := h.empty_zero hs
    rw [htotal, hoff]
    exact (Nat.zero_mod _).symm
  · exact h.accum_off hs

/-- R303: HUPD advances OFF and TOTAL alike; TOTAL wraps at 2^64, a multiple of B. -/
theorem update_off_eq {c : HashCtx} (m : List Byte) (h : c.off.toNat = c.total.toNat % c.mode.blockBytes) :
    (c.update m m.length).off.toNat = (c.update m m.length).total.toNat % c.mode.blockBytes := by
  have hlt : c.off.toNat < c.mode.blockBytes := h ▸ Nat.mod_lt _ (Mode.blockBytes_pos c.mode)
  rw [HashCtx.update_off, HashCtx.append_off c m hlt, h, Nat.mod_add_mod, HashCtx.update_total, BitVec.toNat_ofNat,
    Nat.mod_mod_of_dvd _ (Mode.blockBytes_dvd c.mode)]

/-- R303: HUPD leaves ACCUM, or EMPTY where it takes no byte. -/
theorem afterUpdate_cases {old : HashState} (h : old = .empty ∨ old = .accum) (len : Nat) :
    afterUpdate old len = .accum ∨ afterUpdate old len = .empty ∧ old = .empty ∧ len = 0 := by
  obtain rfl | rfl := h
  · by_cases hlen : len = 0
    · exact .inr ⟨if_pos hlen, rfl, hlen⟩
    · exact .inl (if_neg hlen)
  · exact .inl (afterUpdate_accum len)

theorem update_inv {c : HashCtx} (m : List Byte) (h : c.Inv) (hs : c.state = .empty ∨ c.state = .accum) :
    (c.update m m.length).Inv := by
  obtain ⟨hnarrow, hrmd⟩ := append_fits m h.fits
  have hoff := update_off_eq m (h.off_eq hs)
  rw [← c.update_mode m m.length] at hoff hnarrow hrmd
  obtain ha | ⟨-, hempty, hlen⟩ := afterUpdate_cases hs m.length
  · exact ⟨by simp [ha], by simp [ha], fun _ => hoff, by simp [ha], hnarrow, hrmd⟩
  · obtain rfl := List.length_eq_zero_iff.mp hlen
    obtain ⟨htotal, hzero⟩ := h.empty_zero hempty
    have hsum : (c.update [] 0).total = 0 := by rw [HashCtx.update_total, htotal]; rfl
    exact ⟨by simp [hempty, afterUpdate], fun _ => ⟨hsum, hzero⟩, by simp [hempty, afterUpdate],
      by simp [hempty, afterUpdate], hnarrow, hrmd⟩

theorem digested_inv {c : HashCtx} (h : c.Inv) : c.digested.Inv := by
  by_cases hs : c.state = .final
  · rw [c.digested_final hs]
    exact h
  · rw [c.digested_not_final hs]
    obtain ⟨hnarrow, hrmd⟩ := finalize_fits h.fits
    rw [← c.finalize_mode] at hnarrow hrmd
    refine ⟨nofun, nofun, nofun, fun _ => ?_, hnarrow, hrmd⟩
    rw [c.finalize_off, c.finalize_mode]
    cases c.mode <;> rfl

theorem HashEffect.inv {s : State} {i : Instr} {c : HashCtx} (hc : HashEffect s i c) (h : s.he.Inv) : c.Inv := by
  cases hc with
  | kept => exact h
  | init m => exact init_inv m
  | wiped => exact wiped_inv
  | updated _ _ m hs => exact update_inv m h hs
  | digested => exact digested_inv h

/-! ## The state -/

/-- The invariant speaks of these fields only. -/
theorem State.Inv.of_eq {s t : State} (h : s.Inv) (hcfg : t.cfg = s.cfg) (hlmem : t.lmem = s.lmem)
    (habort : t.abortReq = s.abortReq) (hrun : t.run = s.run) (hcode : t.errcode = s.errcode)
    (hcmd : t.errcmd = s.errcmd) (hhe : t.he = s.he) : t.Inv := by
  constructor
  · rw [hcfg]; exact h.cfg_legal
  · rw [hlmem]; exact h.lmem_wf
  · rw [hlmem, hcfg]; exact h.lmem_below
  · rw [habort, hrun]; exact h.abort_running
  · rw [hcode, hrun]; exact h.error_code
  · rw [hcode, hcmd]; exact h.errcmd_zero
  · rw [hhe]; exact h.hash

theorem State.Inv.setTurns {s : State} (h : s.Inv) (rest : List Turn) : (s.setTurns rest).Inv :=
  h.of_eq rfl rfl rfl rfl rfl rfl rfl

theorem State.Inv.errcode_none {s : State} (h : s.Inv) (hs : s.run ≠ .error) : s.errcode = .none :=
  not_not.mp fun hne => hs (h.error_code.mp hne)

/-- R49: bytes written in range keep LMEM canonical and below its bound. -/
theorem State.Inv.writeBytes {s : State} (h : s.Inv) {lo : Nat} {bs : List Byte} (hr : s.inRange lo bs.length) :
    (s.setLmem (s.lmem.writeBytes lo bs)).Inv :=
  { h with
    lmem_wf := Memory.wf_writeBytes _ _ _ h.lmem_wf
    lmem_below := Memory.below_writeBytes _ _ _ _ hr h.lmem_below }

theorem Writes.inv {i : Instr} {s u : State} (hw : Writes i s u) (h : s.Inv) : u.Inv := by
  have hmem : (s.setLmem u.lmem).Inv := by
    obtain hm | ⟨lo, bs, -, hr, hm⟩ := hw.lmem
    · rw [hm]; exact h
    · rw [hm]; exact h.writeBytes hr
  rw [hw.only]
  exact { hmem with hash := hw.he.inv h.hash }

theorem preciseError_inv {s t : State} (ht : PreciseError s t) (h : s.Inv) : t.Inv := by
  obtain ⟨code, hne, -, rfl⟩ := ht
  exact { h with
    abort_running := nofun
    error_code := iff_of_true hne rfl
    errcmd_zero := fun hcode => if_pos hcode }

/-- A command that completes keeps the invariant. -/
theorem exec_inv {i : Instr} {s t : State} (h : s.Inv) (hrun : s.run = .running) (hab : s.abortReq = false)
    (hexec : exec i s = .next t) (hok : t.run ≠ .error) : t.Inv := by
  have heff : Effect i s (.next t) := hexec ▸ exec_effect i s
  cases heff with
  | completed _ hw => exact (hw.inv h).of_eq rfl rfl rfl rfl rfl rfl rfl
  | halted =>
    have hnone : s.errcode = .none := h.errcode_none (by rw [hrun]; nofun)
    exact { h with
      abort_running := fun ht => absurd (hab.symm.trans ht) nofun
      error_code := iff_of_false (fun hne => hne hnone) nofun }
  | branched => exact h.of_eq rfl rfl rfl rfl rfl rfl rfl
  | raised => exact absurd rfl hok

/-- The step of a running sequencer is a precise error or a command that completes. -/
theorem runStep_error_or_exec {s t : State} (hrun : s.run = .running) (h : runStep s = .next t) :
    PreciseError s t ∨ s.abortReq = false ∧ t.run ≠ .error ∧ ∃ i, exec i s = .next t := by
  obtain hprecise | ⟨i, hd, hcomp⟩ := runStep_cases h
  · exact .inl hprecise
  have hok : t.run ≠ .error := hcomp.run_ne_error hrun
  unfold runStep at h
  split at h
  · cases h; exact absurd rfl hok
  next hab =>
  split at h
  · rw [runFetched, show decodeBytes s.fetchBytes = .ok i from hd] at h
    exact .inr ⟨eq_false_of_ne_true hab, hok, i, h⟩
  · cases h; exact absurd rfl hok

theorem sequencerTurn_inv {s t : State} (h : s.Inv) (hstep : sequencerTurn s = .next t) : t.Inv := by
  by_cases hrun : s.run = .running
  · rw [sequencerTurn_running s hrun] at hstep
    obtain hprecise | ⟨hab, hok, i, hexec⟩ := runStep_error_or_exec hrun hstep
    · exact preciseError_inv hprecise h
    · exact exec_inv h hrun hab hexec hok
  · rw [sequencerTurn_stopped s hrun] at hstep
    cases hstep
    exact h

theorem softReset_inv {s : State} (h : s.Inv) : s.softReset.Inv where
  cfg_legal := h.cfg_legal
  lmem_wf := h.lmem_wf
  lmem_below := h.lmem_below
  abort_running := nofun
  error_code := iff_of_false (fun hne => hne rfl) nofun
  errcmd_zero _ := rfl
  hash := wiped_inv

theorem powerOn_inv {s : State} (h : s.Inv) (m : List Host.Cell) : (s.powerOn m).Inv :=
  { softReset_inv h with
    lmem_wf := Memory.wf_ofCells _ _
    lmem_below := Memory.below_ofCells _ _ }

theorem writeCtrl_inv {s : State} (h : s.Inv) (v : Word32) : (s.writeCtrl v).Inv := by
  cases hv : v.getLsbD 2 with
  | true => rw [writeCtrl_softReset _ hv]; exact softReset_inv h
  | false =>
    by_cases hrun : s.run = .running
    · rw [writeCtrl_running hv hrun]
      exact { h with abort_running := fun _ => hrun }
    · rw [writeCtrl_stopped hv hrun]
      split
      · exact { h with
          abort_running := nofun
          error_code := iff_of_false (fun hne => hne rfl) nofun
          errcmd_zero := by simp }
      · exact h.of_eq rfl rfl rfl rfl rfl rfl rfl

theorem hostRead_inv {s : State} (h : s.Inv) (o : Nat) : (s.hostRead o).Inv := by
  unfold State.hostRead
  split_ifs <;> exact h.of_eq rfl rfl rfl rfl rfl rfl rfl

/-- R90: an aligned write of the window lies in LMEM, whose size is a multiple of 4. -/
theorem hostWrite_inv {s : State} (h : s.Inv) {o : Nat} (hal : o % 4 = 0) (v : Word32) : (s.hostWrite o v).Inv := by
  unfold State.hostWrite
  split_ifs with hwin hrun
  · exact h.of_eq rfl rfl rfl rfl rfl rfl rfl
  · refine h.writeBytes ?_
    obtain ⟨-, -, h4⟩ := h.cfg_legal
    simp only [State.inWindow, lmemWindow] at hwin
    simp only [length_toLE, State.inRange, lmemWindow]
    omega
  · exact writeCtrl_inv h v
  · exact h.of_eq rfl rfl rfl rfl rfl rfl rfl
  · unfold State.writeCp
    split <;> exact h.of_eq rfl rfl rfl rfl rfl rfl rfl
  · exact h

theorem step_inv {s t : State} (h : s.Inv) (hstep : step s = .next t) : t.Inv := by
  obtain ⟨rest, hseq⟩ | ⟨a, rest, -, hhost⟩ | ⟨m, rest, -, rfl⟩ := step_cases hstep
  · exact sequencerTurn_inv (h.setTurns rest) hseq
  · obtain ⟨-, rfl⟩ | ⟨o, -, hal, rfl⟩ := hostTurn_cases hhost
    · exact h.setTurns rest
    · cases a with
      | read => exact hostRead_inv (h.setTurns rest) o
      | write _ v => exact hostWrite_inv (h.setTurns rest) hal v
  · exact powerOn_inv (h.setTurns rest) m

theorem reaches_inv {s t : State} (h : s.Inv) (hr : Reaches s t) : t.Inv := by
  induction hr with
  | here => exact h
  | next _ hstep ih => exact step_inv ih hstep

/-- Settles O59: the step of each agent keeps the invariant, and a run is made of steps. -/
theorem stepKeepsInvariant : Obligations.StepKeepsInvariant :=
  ⟨fun _ _ h hstep => step_inv h hstep, fun _ h _ hr => reaches_inv h hr⟩

/-- Settles O60: RUN is IDLE, no error is recorded, and the context is the wiped one. -/
theorem resetMeetsInvariant : Obligations.ResetMeetsInvariant where
  cfg_legal := by decide
  lmem_wf := rfl
  lmem_below := rfl
  abort_running := nofun
  error_code := iff_of_false (fun hne => hne rfl) nofun
  errcmd_zero _ := rfl
  hash := wiped_inv

end Sys2Proof.Machine
end

section
/-! # The sequencer's turn (45_sequencer.md R450; 60_exceptions.md R507; 70_reset_and_hazards.md R553) -/
namespace Sys2Proof.Machine

theorem sequencerTurn_exec {s : State} {i : Instr} (hrun : s.run = .running) (hab : s.abortReq = false)
    (hfetch : s.canFetch) (hd : decodeBytes s.fetchBytes = .ok i) : sequencerTurn s = exec i s := by
  rw [sequencerTurn_running s hrun, runStep, hab, if_neg Bool.false_ne_true, if_pos hfetch, runFetched, hd]

/-- R507: the abort comes before the fetch check. -/
theorem sequencerTurn_abort {s : State} (hrun : s.run = .running) (hab : s.abortReq = true) :
    sequencerTurn s = .next (State.errorEntry { s with abortReq := false } .aborted s.cp 0) := by
  rw [sequencerTurn_running s hrun, runStep, if_pos hab]

/-- Settles O7: with no abort pending and CP fetchable, the turn is the execution of what decodes. -/
theorem stepRunsDecodedCommand : Obligations.StepRunsDecodedCommand := by
  intro s i hrun hab hfetch hd
  refine ⟨fun hturns => ?_, fun rest hturns => ?_⟩
  · rw [step_no_turns s hturns]
    exact sequencerTurn_exec hrun hab hfetch hd
  · rw [step_sequencer s rest hturns]
    exact sequencerTurn_exec hrun hab hfetch hd

/-- Settles O11: the sequencer has no step while stopped. -/
theorem stoppedSequencerDoesNothing : Obligations.StoppedSequencerDoesNothing := by
  intro s hrun
  refine ⟨fun hturns => ?_, fun rest hturns => ?_⟩
  · rw [step_no_turns s hturns, sequencerTurn_stopped s hrun]
  · rw [step_sequencer s rest hturns, sequencerTurn_stopped (s.setTurns rest) hrun]

/-! ## The abort request -/

/-- R507: an abort request is pending only while RUNNING. -/
def AbortNeedsRunning (s : State) : Prop := s.abortReq = true → s.run = .running

theorem AbortNeedsRunning.of_eq {s t : State} (h : AbortNeedsRunning s) (habort : t.abortReq = s.abortReq)
    (hrun : t.run = s.run) : AbortNeedsRunning t := by
  unfold AbortNeedsRunning
  rw [habort, hrun]
  exact h

theorem AbortNeedsRunning.setTurns {s : State} (h : AbortNeedsRunning s) (rest : List Turn) :
    AbortNeedsRunning (s.setTurns rest) := h.of_eq rfl rfl

theorem exec_abortReq {i : Instr} {s t : State} (h : exec i s = .next t) : t.abortReq = s.abortReq := by
  obtain ⟨-, -, -, habort, -⟩ := commandsLeaveTheHostSideAlone i s t h
  exact habort

theorem sequencerTurn_abortNeedsRunning {s t : State} (h : AbortNeedsRunning s) (hstep : sequencerTurn s = .next t) :
    AbortNeedsRunning t := by
  by_cases hrun : s.run = .running
  · rw [sequencerTurn_running s hrun] at hstep
    obtain ⟨code, -, -, rfl⟩ | ⟨hab, -, i, hexec⟩ := runStep_error_or_exec hrun hstep
    · exact nofun
    · exact fun ht => absurd (ht.symm.trans ((exec_abortReq hexec).trans hab)) nofun
  · rw [sequencerTurn_stopped s hrun] at hstep
    cases hstep
    exact h

theorem writeCtrl_abortNeedsRunning {s : State} (h : AbortNeedsRunning s) (v : Word32) :
    AbortNeedsRunning (s.writeCtrl v) := by
  cases hv : v.getLsbD 2 with
  | true => rw [writeCtrl_softReset _ hv]; exact nofun
  | false =>
    by_cases hrun : s.run = .running
    · rw [writeCtrl_running hv hrun]
      exact fun _ => hrun
    · rw [writeCtrl_stopped hv hrun]
      split
      · exact nofun
      · exact h

theorem hostEffect_abortNeedsRunning {s : State} (h : AbortNeedsRunning s) (o : Nat) (a : HostAccess) :
    AbortNeedsRunning (s.hostEffect o a) := by
  cases a with
  | read =>
    show AbortNeedsRunning (s.hostRead o)
    unfold State.hostRead
    split_ifs <;> exact h.of_eq rfl rfl
  | write _ v =>
    show AbortNeedsRunning (s.hostWrite o v)
    unfold State.hostWrite State.writeCp
    split_ifs
    any_goals exact h.of_eq rfl rfl
    exact writeCtrl_abortNeedsRunning h v

theorem step_abortNeedsRunning {s t : State} (h : AbortNeedsRunning s) (hstep : step s = .next t) :
    AbortNeedsRunning t := by
  obtain ⟨rest, hseq⟩ | ⟨a, rest, -, hhost⟩ | ⟨m, rest, -, rfl⟩ := step_cases hstep
  · exact sequencerTurn_abortNeedsRunning (h.setTurns rest) hseq
  · obtain ⟨-, rfl⟩ | ⟨o, -, -, rfl⟩ := hostTurn_cases hhost
    · exact h.setTurns rest
    · exact hostEffect_abortNeedsRunning (h.setTurns rest) o a
  · exact nofun

/-- Settles O10: CTRL.ABORT while RUNNING, the first check of the next step, and what each agent keeps. -/
theorem abortIsTakenBeforeTheFetch : Obligations.AbortIsTakenBeforeTheFetch := by
  refine ⟨fun s v rest hturns hrun habort hreset => ?_, fun s hturns hrun hab => ?_,
    fun s t h hstep => step_abortNeedsRunning h hstep⟩
  · rw [step_hostWrite hturns (by decide) rfl, hostWrite_ctrl, writeCtrl_running (s := s.setTurns rest) hreset hrun,
      habort, Bool.or_true]
    rfl
  · rw [step_no_turns s hturns, sequencerTurn_abort hrun hab]
    rfl

end Sys2Proof.Machine
end

section
/-! # Resets and the host's accesses (10_state.md R60 to R68; 20_memory.md R90, R91; 70_reset_and_hazards.md R550) -/
namespace Sys2Proof.Machine

/-! ## Reset -/

theorem State.AtReset.setLmem {s : State} (h : s.AtReset) (m : Memory) : (s.setLmem m).AtReset := { h with }

theorem powerOn_atReset (s : State) (m : List Host.Cell) : (s.powerOn m).AtReset := (softReset_atReset s).setLmem _

theorem State.AtReset.ctrlWord {s : State} (h : s.AtReset) : s.ctrlWord = 0 := by
  obtain ⟨-, hirqEn, -⟩ := h.host
  rw [State.ctrlWord, hirqEn]
  rfl

theorem State.AtReset.statusWord {s : State} (h : s.AtReset) : s.statusWord = 0 := by
  obtain ⟨hcode, -, -⟩ := h.error
  obtain ⟨hirq, -, hhostErr⟩ := h.host
  rw [State.statusWord, h.run, hirq, hhostErr, h.z, hcode, h.mode, h.state]
  decide

/-- Settles O51: both resets make the state of `State.softReset`, the power-on with other contents of LMEM. -/
theorem resets : Obligations.Resets := by
  refine ⟨softReset_atReset State.reset, fun s h => ⟨h.ctrlWord, h.statusWord, rfl⟩, fun s v rest hturns hv => ?_,
    fun s m rest hturns => ?_⟩
  · rw [step_hostWrite hturns (by decide) rfl, hostWrite_ctrl, writeCtrl_softReset _ hv]
    exact ⟨_, rfl, softReset_atReset _, rfl, rfl, rfl, rfl⟩
  · refine ⟨_, step_powerOn s m rest hturns, powerOn_atReset _ m, fun a ha => ?_, rfl, rfl, rfl⟩
    rw [State.powerOn_lmem, State.setTurns_cfg, Memory.get_ofCells, if_pos ha]

/-! ## Registers and unmapped offsets -/

theorem registerWord_of_ge (s : State) {o : Nat} (h : 0x020 ≤ o) : s.registerWord o = 0 := by
  have hne : ∀ k < 0x020, o ≠ k := fun k hk => by omega
  simp [State.registerWord, hne]

theorem hostRead_of_beyond {s : State} {o : Nat} (h : 0x10000 + s.cfg.lmemBytes ≤ o) :
    s.hostRead o = { s with readData := some 0 } := by
  rw [State.hostRead, if_neg fun hw => absurd hw.2 h.not_gt, registerWord_of_ge s (by omega)]

theorem hostWrite_cp (s : State) (v : Word32) : s.hostWrite 0x00C v = s.writeCp v :=
  if_neg (not_inWindow_of_lt s (by decide))

theorem writeCp_stopped {s : State} (h : s.run ≠ .running) (v : Word32) : s.writeCp v = { s with cp := v } := if_neg h

theorem writeCp_running {s : State} (h : s.run = .running) (v : Word32) : s.writeCp v = { s with hostErr := true } :=
  if_pos h

/-- R60, R90: of the offsets outside the LMEM window, only CTRL, STATUS and CP can be written. -/
theorem hostWrite_ignored {s : State} {o : Nat} (hwin : ¬ s.inWindow o) (h4 : o ≠ 0x004) (h8 : o ≠ 0x008)
    (hC : o ≠ 0x00C) (v : Word32) : s.hostWrite o v = s := by
  rw [State.hostWrite, if_neg hwin, if_neg h4, if_neg h8, if_neg hC]

/-- Settles O54: outside the LMEM window an access is that of the register at its offset, or of none. -/
theorem hostRegisterAccess : Obligations.HostRegisterAccess := by
  refine ⟨fun s o rest ho hal hturns => ?_, fun s o v rest hal ho hturns => ⟨fun hC hrun => ?_, fun hout => ?_⟩,
    fun s o rest hal hbeyond ho hturns => ?_⟩
  · refine ⟨_, step_hostRead_register hturns ho hal, ?_, fun _ => rfl, ?_, ?_, ?_, ?_, ?_,
      fun hge => registerWord_of_ge s hge⟩
    · rintro rfl; rfl
    · rintro rfl; rfl
    · rintro rfl; rfl
    · rintro rfl; rfl
    · rintro rfl; exact BitVec.toNat_ofNat _ _
    · rintro rfl; rfl
  · subst hC
    rw [step_hostWrite hturns ho hal, hostWrite_cp, writeCp_stopped (s := s.setTurns rest) hrun]
    rfl
  · have hwin : ¬ (s.setTurns rest).inWindow o := by
      rintro ⟨hlo, hhi⟩
      simp only [lmemWindow, State.setTurns_cfg] at hlo hhi
      omega
    rw [step_hostWrite hturns ho hal, hostWrite_ignored hwin (by omega) (by omega) (by omega)]
  · rw [step_hostRead hturns ho hal, hostRead_of_beyond (s := s.setTurns rest) hbeyond]
    rfl

/-! ## The LMEM window -/

theorem hostTurn_of_offset {s : State} {a : HostAccess} {o : Nat} (ho : Config.windowOffset s.cfg a.addr = some o)
    (hal : o % 4 = 0) : hostTurn a s = .next (s.hostEffect o a) := by
  rw [hostTurn, ho]
  exact if_pos hal

/-- R87, R90: the window reaches over all of LMEM, whatever its size. -/
theorem step_hostWindow {s : State} {o : Nat} {a : HostAccess} {rest : List Turn} (hturns : s.turns = .host a :: rest)
    (haddr : a.addr = s.cfg.hostBase + o) (ho : o < 0x10000 + s.cfg.lmemBytes) (hal : o % 4 = 0) :
    step s = .next ((s.setTurns rest).hostEffect o a) := by
  have hw : o < Config.windowBytes s.cfg := lt_of_lt_of_le ho (le_max_right _ _)
  have hoff : Config.windowOffset s.cfg a.addr = some o := by simp [Config.windowOffset, haddr, hw]
  rw [step_host s a rest hturns]
  exact hostTurn_of_offset hoff hal

theorem hostRead_window_running {s : State} {o : Nat} (hwin : s.inWindow o) (hrun : s.run = .running) :
    s.hostRead o = { s with hostErr := true, readData := some 0 } := by
  rw [State.hostRead, if_pos hwin, if_pos hrun]

theorem hostRead_window_stopped {s : State} {o : Nat} (hwin : s.inWindow o) (hrun : s.run ≠ .running) :
    s.hostRead o = { s with readData := some (BitVec.ofNat 32 (s.lmem.loadLE (o - lmemWindow) 4)) } := by
  rw [State.hostRead, if_pos hwin, if_neg hrun]

theorem hostWrite_window_running {s : State} {o : Nat} (hwin : s.inWindow o) (hrun : s.run = .running) (v : Word32) :
    s.hostWrite o v = { s with hostErr := true } := by
  rw [State.hostWrite, if_pos hwin, if_pos hrun]

theorem hostWrite_window_stopped {s : State} {o : Nat} (hwin : s.inWindow o) (hrun : s.run ≠ .running) (v : Word32) :
    s.hostWrite o v = s.setLmem (s.lmem.storeLE (o - lmemWindow) 4 v.toNat) := by
  rw [State.hostWrite, if_pos hwin, if_neg hrun]
  rfl

/-- Settles O55: the check of RUN comes before any effect of the access. -/
theorem hostIsKeptOutWhileRunning : Obligations.HostIsKeptOutWhileRunning := by
  intro s o v rest hrun hal
  refine ⟨fun hlo hhi => ⟨fun hturns => ?_, fun hturns => ?_⟩, fun hturns => ?_⟩
  · rw [step_hostWindow hturns rfl hhi hal, State.hostEffect,
      hostWrite_window_running (s := s.setTurns rest) ⟨hlo, hhi⟩ hrun]
    rfl
  · rw [step_hostWindow hturns rfl hhi hal, State.hostEffect,
      hostRead_window_running (s := s.setTurns rest) ⟨hlo, hhi⟩ hrun]
    rfl
  · rw [step_hostWrite hturns (by decide) rfl, hostWrite_cp, writeCp_running (s := s.setTurns rest) hrun]
    rfl

/-- Byte `k` of a register, from its value. -/
theorem byteOf_eq_ofNat {n : Nat} (v : BitVec n) (k : Nat) : byteOf v k = BitVec.ofNat 8 (v.toNat / 2 ^ (8 * k)) := by
  apply BitVec.eq_of_toNat_eq
  simp [byteOf, BitVec.extractLsb'_toNat, Nat.shiftRight_eq_div_pow]

/-- Byte `k` of a register that holds a number: that of the number, as far as the register reaches. -/
theorem byteOf_ofNat {n : Nat} (v : Nat) {k : Nat} (hk : 8 * k + 8 ≤ n) :
    byteOf (BitVec.ofNat n v) k = BitVec.ofNat 8 (v / 2 ^ (8 * k)) := by
  apply BitVec.eq_of_getLsbD_eq
  intro i hi
  have hin : i + 8 * k < n := by omega
  simp only [byteOf, BitVec.getLsbD_extractLsb', BitVec.getLsbD_ofNat, Nat.testBit_div_two_pow, hi, hin, decide_true,
    Bool.true_and, Nat.add_comm]

/-- Settles O56: the window is LMEM from offset 0x10000 on, four bytes an access. -/
theorem hostLmemWindow : Obligations.HostLmemWindow := by
  intro s k v rest hrun hal hk
  have ho : 0x10000 + k < 0x10000 + s.cfg.lmemBytes := by omega
  have hwin : (s.setTurns rest).inWindow (0x10000 + k) := ⟨Nat.le_add_right _ _, ho⟩
  have hoff : 0x10000 + k - lmemWindow = k := Nat.add_sub_cancel_left ..
  refine ⟨fun hturns => ?_, fun hturns => ?_⟩
  · rw [step_hostWindow hturns rfl ho (by omega), State.hostEffect, hostRead_window_stopped hwin hrun, hoff]
    exact ⟨_, rfl, fun j hj => by rw [byteOf_ofNat _ (by omega), Memory.loadLE_byte _ _ _ _ hj]; rfl⟩
  · rw [step_hostWindow hturns rfl ho (by omega), State.hostEffect, hostWrite_window_stopped hwin hrun, hoff]
    refine ⟨_, rfl, rfl, fun j hj => ?_, fun a ha => Memory.get_storeLE_outside _ _ _ _ _ ha⟩
    rw [State.setLmem_lmem, Memory.get_storeLE_inside _ _ _ _ _ hj, byteOf_eq_ofNat]

/-! ## What the host cannot see -/

/-- `u` is `t` but for X, N and the parts of the hash context other than MODE and STATE. -/
def SameToHost (t u : State) : Prop :=
  ∃ (xs : Vector Word64 16) (ns : Vector Number 4) (c : HashCtx), c.mode = t.he.mode ∧ c.state = t.he.state ∧
    u = { t with xregs := xs, nregs := ns, he := c }

theorem registerWord_sameToHost {t u : State} (h : SameToHost t u) (o : Nat) : u.registerWord o = t.registerWord o := by
  obtain ⟨xs, ns, c, hmode, hstate, rfl⟩ := h
  simp only [State.registerWord, State.statusWord, hmode, hstate]
  rfl

theorem hostRead_sameToHost {t u : State} (h : SameToHost t u) (o : Nat) :
    SameToHost (t.hostRead o) (u.hostRead o) := by
  have hword := registerWord_sameToHost h o
  obtain ⟨xs, ns, c, hmode, hstate, rfl⟩ := h
  simp only [State.hostRead, State.inWindow, hword]
  split_ifs <;> exact ⟨xs, ns, c, hmode, hstate, rfl⟩

theorem writeCtrl_sameToHost {t u : State} (h : SameToHost t u) (v : Word32) :
    SameToHost (t.writeCtrl v) (u.writeCtrl v) := by
  obtain ⟨xs, ns, c, hmode, hstate, rfl⟩ := h
  cases hv : v.getLsbD 2 with
  | true =>
    rw [writeCtrl_softReset _ hv, writeCtrl_softReset _ hv]
    exact ⟨_, _, _, rfl, rfl, rfl⟩
  | false =>
    by_cases hrun : t.run = .running
    · rw [writeCtrl_running hv hrun, writeCtrl_running (s := { t with xregs := xs, nregs := ns, he := c }) hv hrun]
      exact ⟨xs, ns, c, hmode, hstate, rfl⟩
    · rw [writeCtrl_stopped hv hrun, writeCtrl_stopped (s := { t with xregs := xs, nregs := ns, he := c }) hv hrun]
      split <;> exact ⟨xs, ns, c, hmode, hstate, rfl⟩

theorem hostWrite_sameToHost {t u : State} (h : SameToHost t u) (o : Nat) (v : Word32) :
    SameToHost (t.hostWrite o v) (u.hostWrite o v) := by
  have hctrl := writeCtrl_sameToHost h v
  obtain ⟨xs, ns, c, hmode, hstate, rfl⟩ := h
  simp only [State.hostWrite, State.inWindow, State.writeCp]
  split_ifs
  any_goals exact ⟨xs, ns, c, hmode, hstate, rfl⟩
  exact hctrl

theorem hostEffect_sameToHost {t u : State} (h : SameToHost t u) (o : Nat) (a : HostAccess) :
    SameToHost (t.hostEffect o a) (u.hostEffect o a) := by
  cases a with
  | read => exact hostRead_sameToHost h o
  | write _ v => exact hostWrite_sameToHost h o v

/-- Settles O57: the two states stay alike to the host through any access. -/
theorem hostCannotSeeRegisters : Obligations.HostCannotSeeRegisters := by
  intro s t a xs ns c hmode hstate h
  have hsame : SameToHost s { s with xregs := xs, nregs := ns, he := c } := ⟨xs, ns, c, hmode, hstate, rfl⟩
  obtain ⟨ho, rfl⟩ | ⟨o, ho, hal, rfl⟩ := hostTurn_cases h
  · exact ⟨{ t with xregs := xs, nregs := ns, he := c }, by rw [hostTurn, ho], rfl, rfl, rfl, rfl, rfl, rfl, rfl, rfl,
      rfl, rfl, rfl, rfl, hmode, hstate⟩
  · obtain ⟨xs', ns', c', hmode', hstate', hu⟩ := hostEffect_sameToHost hsame o a
    have hturn := hostTurn_of_offset (s := { s with xregs := xs, nregs := ns, he := c }) ho hal
    exact ⟨_, hturn.trans (congrArg _ hu), rfl, rfl, rfl, rfl, rfl, rfl, rfl, rfl, rfl, rfl, rfl, rfl, hmode', hstate'⟩

end Sys2Proof.Machine
end

section
/-! # Control, scalar moves, loads and stores (45_sequencer.md R451 to R469) -/
namespace Sys2Proof.Machine

/-! ## A command that writes one destination -/

theorem onlyX_setX (s : State) (rd : XReg) (v : Word64) : OnlyX rd s (s.setX rd v).advance :=
  ⟨rfl, fun r hr => State.x_setX_ne s rd r v hr⟩

theorem onlyN_setN (s : State) (nd : NReg) (v : Number) : OnlyN nd s (s.setN nd v).advance :=
  ⟨rfl, fun r hr => State.n_setN_ne s nd r v hr⟩

theorem onlyStored_storeLE (s : State) (lo n v : Nat) :
    OnlyStored lo n s (s.setLmem (s.lmem.storeLE lo n v)).advance :=
  ⟨rfl, fun a ha => Memory.get_storeLE_outside _ _ _ _ a ha⟩

/-! ## Control -/

theorem exec_jz (s : State) (off : BitVec 16) :
    exec (.jz off) s = .next (s.setCp (if s.z = true then branchTarget s off else s.cp + 4)) := by
  simp only [exec, execJz, complete_eq, State.advance]
  split <;> rfl

theorem exec_jnz (s : State) (off : BitVec 16) :
    exec (.jnz off) s = .next (s.setCp (if s.z = true then s.cp + 4 else branchTarget s off)) := by
  simp only [exec, execJnz, complete_eq, State.advance]
  split <;> rfl

/-- Settles O22: the branches that depend on Z are split on it. -/
theorem controlResults : Obligations.ControlResults := fun s =>
  ⟨rfl, rfl, fun off => ⟨branchTarget s off, toNat_branchTarget s off, rfl, exec_jz s off, exec_jnz s off⟩⟩

/-! ## Scalar moves -/

/-- Settles O23: the bits of MOVK are those of the inserted field. -/
theorem moveResults : Obligations.MoveResults := by
  intro s rd ra imm hw
  refine ⟨⟨_, rfl, onlyX_setX s rd _, ?_⟩, ⟨_, rfl, onlyX_setX s rd _, fun k hk => ?_⟩,
    ⟨_, rfl, onlyX_setX s rd _, ?_⟩⟩
  · rw [State.x_advance, State.x_setX_self, BitVec.toNat_setWidth_of_le (by decide)]
  · rw [State.x_advance, State.x_setX_self, getLsbD_insertField _ _ _ _ hk]
  · rw [State.x_advance, State.x_setX_self]

/-- R459, R461: a register plus a signed immediate, mod 2^64. -/
theorem toNat_add_signExtend (v : Word64) (imm : BitVec 16) :
    ((v + imm.signExtend 64).toNat : Int) = ((v.toNat : Int) + imm.toInt) % 2 ^ 64 := by
  simp only [BitVec.signExtend, BitVec.toNat_add, BitVec.toNat_ofInt]
  omega

/-- Settles O24: a signed immediate added mod 2^64, and Z as the flag rules give it. -/
theorem addImmediateAndTest : Obligations.AddImmediateAndTest := by
  intro s rd ra imm
  refine ⟨⟨_, rfl, ?_, exec_addi_z (rd := rd) (ra := ra) (imm := imm) rfl, rfl,
    fun r hr => State.x_setX_ne s rd r _ hr⟩, ⟨_, rfl, rfl, exec_tstx_z rfl⟩⟩
  rw [State.x_advance, State.x_setZ, State.x_setX_self, toNat_add_signExtend]

/-! ## Bytes of values -/

/-- A value below 2^(8 k) has 0 for its byte `k`. -/
theorem byte_of_lt {v k : Nat} (h : v < 2 ^ (8 * k)) : BitVec.ofNat 8 (v / 2 ^ (8 * k)) = 0 := by
  rw [Nat.div_eq_of_lt h]
  rfl

/-- A byte that lies below the modulus. -/
theorem byte_mod (v : Nat) {m k : Nat} (hk : 8 * k + 8 ≤ m) :
    BitVec.ofNat 8 (v % 2 ^ m / 2 ^ (8 * k)) = BitVec.ofNat 8 (v / 2 ^ (8 * k)) := by
  rw [← byteOf_ofNat v hk, byteOf_eq_ofNat, BitVec.toNat_ofNat]

theorem pow_256_eq (n : Nat) : 256 ^ n = 2 ^ (8 * n) := by
  rw [pow_mul]
  rfl

/-- Byte `k` of a register loaded with `n` bytes of LMEM: those bytes, and 0 above. -/
theorem byteOf_loadLE {w : Nat} (m : Memory) (a n : Nat) {k : Nat} (hk : 8 * k + 8 ≤ w) :
    byteOf (BitVec.ofNat w (m.loadLE a n)) k = if k < n then m.get (a + k) else 0 := by
  rw [byteOf_ofNat _ hk]
  split
  · next hkn => exact Memory.loadLE_byte m a n k hkn
  · next hkn =>
    refine byte_of_lt ((Memory.loadLE_lt m a n).trans_le ?_)
    rw [pow_256_eq]
    exact Nat.pow_le_pow_right (by decide) (by omega)

/-! ## Loads and stores -/

theorem loadX_result {n : Nat} {s : State} {ra : XReg} {imm : BitVec 16} (i : Instr) (rd : XReg)
    (hr : effAddr s ra imm + n ≤ s.cfg.lmemBytes) :
    ∃ t, loadX n i rd ra imm s = .next t ∧ OnlyX rd s t ∧
      ∀ k : Nat, k < 8 → byteOf (t.x rd) k = if k < n then s.lmem.get (effAddr s ra imm + k) else 0 := by
  refine ⟨_, if_pos hr, onlyX_setX s rd _, fun k hk => ?_⟩
  rw [State.x_advance, State.x_setX_self, byteOf_loadLE _ _ _ (by omega)]

theorem storeX_result {n : Nat} {s : State} {ra : XReg} {imm : BitVec 16} (i : Instr) (rs : XReg)
    (hr : effAddr s ra imm + n ≤ s.cfg.lmemBytes) :
    ∃ t, storeX n i rs ra imm s = .next t ∧ OnlyStored (effAddr s ra imm) n s t ∧
      ∀ k : Nat, k < n → t.lmem.get (effAddr s ra imm + k) = byteOf (s.x rs) k := by
  refine ⟨_, if_pos hr, onlyStored_storeLE s _ n _, fun k hk => ?_⟩
  rw [State.advance_lmem, State.setLmem_lmem, Memory.get_storeLE_inside _ _ _ _ _ hk, byteOf_eq_ofNat]

/-- Settles O25: the four loads are `loadX` of 1, 2, 4 and 8 bytes. -/
theorem loadResults : Obligations.LoadResults := by
  intro p hp s rd ra imm hr
  fin_cases hp <;> exact loadX_result _ rd hr

/-- Settles O26: the four stores are `storeX` of 1, 2, 4 and 8 bytes. -/
theorem storeResults : Obligations.StoreResults := by
  intro p hp s rs ra imm hr
  fin_cases hp <;> exact storeX_result _ rs hr

/-! ## The range check -/

/-- R85: a command that accesses LMEM checks its range, HUPD and HDIG in the states of HE that allow them. -/
theorem exec_access {i : Instr} {s : State} {a n : Nat} (hspan : accessSpan s i = some (a, n))
    (hstate : hashStateAllows s i) :
    (¬ s.inRange a n → exec i s = raise .dataFault i s) ∧
    (s.inRange a n → ∃ u, exec i s = complete u ∧ u.run = s.run) := by
  cases i with
  | ld8 | ld16 | ld32 | ld64 | st8 | st16 | st32 | st64 | nld | nst =>
    cases hspan
    exact ⟨fun hr => if_neg hr, fun hr => ⟨_, if_pos hr, rfl⟩⟩
  | hupd =>
    cases hspan
    have haccepts := acceptsUpdate_eq_true_iff.mpr hstate
    exact ⟨fun hr => (if_pos haccepts).trans (if_neg hr), fun hr => ⟨_, (if_pos haccepts).trans (if_pos hr), rfl⟩⟩
  | hdig =>
    cases hspan
    exact ⟨fun hr => exec_hdig_dataFault hstate hr, fun hr => ⟨_, exec_hdig_inRange hstate hr, rfl⟩⟩
  | _ => cases hspan

/-- R461: a negative sum wraps to an address far beyond LMEM. -/
theorem effAddr_of_neg {s : State} {ra : XReg} {imm : BitVec 16} (hwf : s.cfg.WellFormed)
    (hneg : ((s.x ra).toNat : Int) + imm.toInt < 0) : s.cfg.lmemBytes < effAddr s ra imm := by
  have hsum : ((effAddr s ra imm : Nat) : Int) = _ := toNat_add_signExtend (s.x ra) imm
  have himm := BitVec.le_toInt imm
  obtain ⟨-, hle, -⟩ := hwf
  omega

/-- Settles O27: every command that accesses LMEM checks its range, once HE.STATE allows it. -/
theorem effectiveAddressAndRangeCheck : Obligations.EffectiveAddressAndRangeCheck := by
  refine ⟨fun s ra imm => ⟨toNat_add_signExtend (s.x ra) imm, effAddr_of_neg⟩, fun i s a n hspan hstate => ?_⟩
  obtain ⟨hout, hin⟩ := exec_access hspan hstate
  refine ⟨fun hr => hout hr.not_ge, fun hr hrun => ?_⟩
  obtain ⟨u, hu, hurun⟩ := hin hr
  exact ⟨u.advance, hu, hurun.trans hrun⟩

end Sys2Proof.Machine
end

section
/-! # The word unit (41_word_unit.md R250 to R263) -/
namespace Sys2Proof.Machine

/-! ## Operands and results -/

theorem width_bits_le (w : Width) : w.bits ≤ 64 := by cases w <;> decide

theorem toNat_writtenWord (w : Width) (r : BitVec w.bits) : (r.setWidth 64).toNat = r.toNat :=
  BitVec.toNat_setWidth_of_le (width_bits_le w)

theorem getLsbD_writtenWord (w : Width) (r : BitVec w.bits) {k : Nat} (hk : k < 64) :
    (r.setWidth 64).getLsbD k = r.getLsbD k := by
  simp [hk]

theorem getLsbD_wordOperand (w : Width) (s : State) (r : XReg) (k : Nat) :
    (wordOperand w s r).getLsbD k = (decide (k < w.bits) && (s.x r).getLsbD k) :=
  BitVec.getLsbD_setWidth _ _ _

/-- R250: a word-unit command completes, and the bits of X[rd] are those of its result. -/
theorem setX_word_result (s : State) (w : Width) (rd : XReg) (r : BitVec w.bits) {bit : Nat → Bool}
    (hbit : ∀ k, r.getLsbD k = (decide (k < w.bits) && bit k)) :
    ∃ t, (.next (s.setX rd (r.setWidth 64)).advance : Answer) = .next t ∧ OnlyX rd s t ∧
      ∀ k : Nat, k < 64 → (t.x rd).getLsbD k = (decide (k < w.bits) && bit k) := by
  refine ⟨_, rfl, onlyX_setX s rd _, fun k hk => ?_⟩
  rw [State.x_advance, State.x_setX_self, getLsbD_writtenWord w r hk, hbit]

/-- Settles O28: the sum of the low words is the sum mod 2^w. -/
theorem wordAdd : Obligations.WordAdd := by
  intro s w rd ra rb
  refine ⟨_, wordOp2_eq w _ rd ra rb s, onlyX_setX s rd _, ?_⟩
  rw [State.x_advance, State.x_setX_self, toNat_writtenWord, BitVec.toNat_add, wordOperand, wordOperand,
    BitVec.toNat_setWidth, BitVec.toNat_setWidth, ← Nat.add_mod]

/-! ## Rotations -/

theorem getLsbD_rotR {w : Nat} (x : BitVec w) {n : Nat} (hn : n < w) (k : Nat) :
    (rotR x n).getLsbD k = (decide (k < w) && x.getLsbD ((k + n) % w)) := by
  rw [rotR, BitVec.getLsbD_rotateRight, Nat.mod_eq_of_lt hn]
  by_cases hk : k < w
  · by_cases hwrap : k < w - n
    · have hidx : (k + n) % w = n + k := by rw [Nat.mod_eq_of_lt (by omega), Nat.add_comm]
      simp [hk, hwrap, hidx]
    · have hidx : (k + n) % w = k - (w - n) := by
        rw [Nat.mod_eq_sub_mod (by omega), Nat.mod_eq_of_lt (by omega)]
        omega
      simp [hk, hwrap, hidx]
  · have hwrap : ¬ k < w - n := by omega
    simp [hk, hwrap]

theorem getLsbD_rotL {w : Nat} (x : BitVec w) {n : Nat} (hn : n < w) (k : Nat) :
    (rotL x n).getLsbD k = (decide (k < w) && x.getLsbD ((k + (w - n)) % w)) := by
  rw [rotL, BitVec.getLsbD_rotateLeft, Nat.mod_eq_of_lt hn]
  by_cases hk : k < w
  · by_cases hwrap : k < n
    · have hidx : (k + (w - n)) % w = w - n + k := by rw [Nat.mod_eq_of_lt (by omega), Nat.add_comm]
      simp [hwrap, hk, hidx]
    · have hidx : (k + (w - n)) % w = k - n := by
        rw [Nat.mod_eq_sub_mod (by omega), Nat.mod_eq_of_lt (by omega)]
        omega
      simp [hk, hwrap, hidx]
  · have hwrap : ¬ k < n := by omega
    simp [hk, hwrap]

/-- A rotation moves bits within the word. -/
theorem getLsbD_rotR_operand (w : Width) (s : State) (r : XReg) {n : Nat} (hn : n < w.bits) (k : Nat) :
    (rotR (wordOperand w s r) n).getLsbD k = (decide (k < w.bits) && (s.x r).getLsbD ((k + n) % w.bits)) := by
  rw [getLsbD_rotR _ hn, getLsbD_wordOperand, decide_eq_true (Nat.mod_lt _ (by omega)), Bool.true_and]

theorem getLsbD_rotL_operand (w : Width) (s : State) (r : XReg) {n : Nat} (hn : n < w.bits) (k : Nat) :
    (rotL (wordOperand w s r) n).getLsbD k =
      (decide (k < w.bits) && (s.x r).getLsbD ((k + (w.bits - n)) % w.bits)) := by
  rw [getLsbD_rotL _ hn, getLsbD_wordOperand, decide_eq_true (Nat.mod_lt _ (by omega)), Bool.true_and]

theorem exec_wrotr {w : Width} {sh : Fin 64} (h : sh.val < w.bits) (rd ra : XReg) (s : State) :
    exec (.wrotr w rd ra sh) s = wordOp1 w (fun a => rotR a sh.val) rd ra s :=
  if_pos (decide_eq_true h)

theorem exec_wrotl {w : Width} {sh : Fin 64} (h : sh.val < w.bits) (rd ra : XReg) (s : State) :
    exec (.wrotl w rd ra sh) s = wordOp1 w (fun a => rotL a sh.val) rd ra s :=
  if_pos (decide_eq_true h)

theorem rotateAmount_lt (w : Width) (s : State) (rb : XReg) : rotateAmount w s rb < w.bits :=
  Nat.mod_lt _ (by cases w <;> decide)

/-- Settles O29: an amount below w rotates within the word. -/
theorem rotates : Obligations.Rotates := by
  refine ⟨fun s w rd ra sh hsh => ⟨?_, ?_⟩, fun s w rd ra rb => ⟨?_, ?_⟩⟩
  · rw [exec_wrotr hsh]
    exact setX_word_result s w rd _ (getLsbD_rotR_operand w s ra hsh)
  · rw [exec_wrotl hsh]
    exact setX_word_result s w rd _ (getLsbD_rotL_operand w s ra hsh)
  · exact setX_word_result s w rd _ (getLsbD_rotR_operand w s ra (rotateAmount_lt w s rb))
  · exact setX_word_result s w rd _ (getLsbD_rotL_operand w s ra (rotateAmount_lt w s rb))

/-! ## Bytes -/

theorem pow_bytes_eq (w : Width) : 256 ^ w.bytes = 2 ^ w.bits := by cases w <;> rfl

theorem toNat_bswap (w : Width) (x : BitVec w.bits) : (bswap w x).toNat = byteRev w.bytes x.toNat := by
  rw [bswap, BitVec.toNat_ofNat, Nat.mod_eq_of_lt (pow_bytes_eq w ▸ byteRev_lt w.bytes x.toNat)]

/-- R13: the bytes of a value of `n` bytes in reverse order, and 0 above. -/
theorem byte_byteRev (n v k : Nat) :
    BitVec.ofNat 8 (byteRev n v / 2 ^ (8 * k)) =
      if k < n then BitVec.ofNat 8 (v / 2 ^ (8 * (n - 1 - k))) else 0 := by
  split
  · next hk => exact byteRev_byte n v k hk
  · next hk =>
    refine byte_of_lt ((byteRev_lt n v).trans_le ?_)
    rw [pow_256_eq]
    exact Nat.pow_le_pow_right (by decide) (by omega)

/-- Settles O30: a byte of the low word is a byte of the register. -/
theorem wordByteSwap : Obligations.WordByteSwap := by
  intro s w rd ra
  refine ⟨_, wordOp1_eq w _ rd ra s, onlyX_setX s rd _, fun k hk => ?_⟩
  rw [State.x_advance, State.x_setX_self, byteOf_eq_ofNat, toNat_writtenWord, toNat_bswap, byte_byteRev]
  refine if_congr Iff.rfl ?_ rfl
  rw [byteOf_eq_ofNat, wordOperand, BitVec.toNat_setWidth, byte_mod]
  cases w <;> simp only [Width.bits, Width.bytes] <;> omega

/-! ## Choose, majority and the sigma functions -/

theorem getLsbD_ch {w : Nat} (x y z : BitVec w) (k : Nat) :
    (ch x y z).getLsbD k = if x.getLsbD k = true then y.getLsbD k else (decide (k < w) && z.getLsbD k) := by
  simp only [ch, BitVec.getLsbD_xor, BitVec.getLsbD_and, BitVec.getLsbD_not]
  cases x.getLsbD k <;> simp

theorem getLsbD_maj {w : Nat} (x y z : BitVec w) (k : Nat) :
    (maj x y z).getLsbD k = if x.getLsbD k = y.getLsbD k then x.getLsbD k else z.getLsbD k := by
  simp only [maj, BitVec.getLsbD_xor, BitVec.getLsbD_and]
  cases x.getLsbD k <;> cases y.getLsbD k <;> simp

/-- Settles O31: bit by bit, where the operands have bits. -/
theorem chooseAndMajority : Obligations.ChooseAndMajority := by
  intro s w rd ra rb rc
  refine ⟨setX_word_result s w rd _ fun k => ?_, setX_word_result s w rd _ fun k => ?_⟩
  · rw [getLsbD_ch, getLsbD_wordOperand, getLsbD_wordOperand, getLsbD_wordOperand]
    by_cases hk : k < w.bits <;> simp [hk]
  · rw [getLsbD_maj, getLsbD_wordOperand, getLsbD_wordOperand, getLsbD_wordOperand]
    by_cases hk : k < w.bits <;> simp [hk]

/-- A shift right of the operand: no bit comes in from above the word. -/
theorem getLsbD_shift_operand (w : Width) (s : State) (r : XReg) (n k : Nat) :
    (wordOperand w s r >>> n).getLsbD k =
      (decide (k < w.bits) && (decide (k + n < w.bits) && (s.x r).getLsbD (k + n))) := by
  rw [BitVec.getLsbD_ushiftRight, getLsbD_wordOperand, Nat.add_comm]
  by_cases hk : k + n < w.bits
  · simp [hk, (by omega : k < w.bits)]
  · simp [hk]

/-- The exclusive or of three words whose bits are known below the word width. -/
theorem getLsbD_xor_three {w : Nat} {x y z : BitVec w} {a b c : Nat → Bool}
    (hx : ∀ k, x.getLsbD k = (decide (k < w) && a k)) (hy : ∀ k, y.getLsbD k = (decide (k < w) && b k))
    (hz : ∀ k, z.getLsbD k = (decide (k < w) && c k)) (k : Nat) :
    (x ^^^ y ^^^ z).getLsbD k = (decide (k < w) && ((a k ^^ b k) ^^ c k)) := by
  rw [BitVec.getLsbD_xor, BitVec.getLsbD_xor, hx, hy, hz]
  cases decide (k < w) <;> simp

/-- R251: a word-unit command whose result is the exclusive or of three rotations of X[ra]. -/
theorem three_rotations_result (w : Width) (s : State) (rd ra : XReg) (a b c : Nat)
    (h : a < w.bits ∧ b < w.bits ∧ c < w.bits) :
    ∃ t, wordOp1 w (fun x => rotR x a ^^^ rotR x b ^^^ rotR x c) rd ra s = .next t ∧ OnlyX rd s t ∧
      ∀ k : Nat, k < 64 → (t.x rd).getLsbD k = (decide (k < w.bits) && (((s.x ra).getLsbD ((k + a) % w.bits) ^^
        (s.x ra).getLsbD ((k + b) % w.bits)) ^^ (s.x ra).getLsbD ((k + c) % w.bits))) := by
  obtain ⟨ha, hb, hc⟩ := h
  exact setX_word_result s w rd _ (getLsbD_xor_three (getLsbD_rotR_operand w s ra ha)
    (getLsbD_rotR_operand w s ra hb) (getLsbD_rotR_operand w s ra hc))

/-- R251: a word-unit command whose result is the exclusive or of two rotations of X[ra] and a shift of it. -/
theorem two_rotations_shift_result (w : Width) (s : State) (rd ra : XReg) (a b c : Nat)
    (h : a < w.bits ∧ b < w.bits) :
    ∃ t, wordOp1 w (fun x => rotR x a ^^^ rotR x b ^^^ (x >>> c)) rd ra s = .next t ∧ OnlyX rd s t ∧
      ∀ k : Nat, k < 64 → (t.x rd).getLsbD k = (decide (k < w.bits) && (((s.x ra).getLsbD ((k + a) % w.bits) ^^
        (s.x ra).getLsbD ((k + b) % w.bits)) ^^ (decide (k + c < w.bits) && (s.x ra).getLsbD (k + c)))) := by
  obtain ⟨ha, hb⟩ := h
  exact setX_word_result s w rd _ (getLsbD_xor_three (getLsbD_rotR_operand w s ra ha)
    (getLsbD_rotR_operand w s ra hb) (getLsbD_shift_operand w s ra c))

/-- Settles O32: the amounts of R251, for each function and width. -/
theorem sigmaFunctions : Obligations.SigmaFunctions := by
  refine ⟨fun s w rd ra => ⟨?_, ?_⟩, fun s w rd ra => ⟨?_, ?_⟩⟩
  · cases w with
    | w32 => exact three_rotations_result .w32 s rd ra 2 13 22 (by decide)
    | w64 => exact three_rotations_result .w64 s rd ra 28 34 39 (by decide)
  · cases w with
    | w32 => exact three_rotations_result .w32 s rd ra 6 11 25 (by decide)
    | w64 => exact three_rotations_result .w64 s rd ra 14 18 41 (by decide)
  · cases w with
    | w32 => exact two_rotations_shift_result .w32 s rd ra 7 18 3 (by decide)
    | w64 => exact two_rotations_shift_result .w64 s rd ra 1 8 7 (by decide)
  · cases w with
    | w32 => exact two_rotations_shift_result .w32 s rd ra 17 19 10 (by decide)
    | w64 => exact two_rotations_shift_result .w64 s rd ra 19 61 6 (by decide)

end Sys2Proof.Machine
end

section
/-! # The number ALU (40_number_alu.md R200 to R215) -/
namespace Sys2Proof.Machine

/-! ## Operands and results -/

/-- The value that `writeNumber` leaves (R200, R215). -/
theorem n_writeNumber (sz : SizeCode) (s : State) (nd : NReg) (r : Nat) :
    ((writeNumber sz s nd r).n nd).toNat = r % 2 ^ sizeBits sz := by
  rw [writeNumber_eq, State.n_setN_self, toNat_ofNat_size]

theorem onlyN_writeNumber (sz : SizeCode) (s : State) (nd : NReg) (r : Nat) :
    OnlyN nd s (writeNumber sz s nd r).advance := onlyN_setN s nd _

/-- The bytes that `writeNumber` leaves: those of the result below SIZE, and 0 above. -/
theorem byteOf_writeNumber (sz : SizeCode) (s : State) (nd : NReg) (r k : Nat) :
    byteOf ((writeNumber sz s nd r).advance.n nd) k =
      if k < sizeBytes sz then BitVec.ofNat 8 (r / 2 ^ (8 * k)) else 0 := by
  rw [byteOf_eq_ofNat, State.n_advance, n_writeNumber, sizeBits_eq_bytes]
  split
  · exact byte_mod r (by omega)
  · exact byte_of_lt ((Nat.mod_lt _ (Nat.two_pow_pos _)).trans_le (Nat.pow_le_pow_right (by decide) (by omega)))

/-- Byte `k` of a SIZE-bit operand. -/
theorem byte_numberValue (sz : SizeCode) (s : State) (r : NReg) {k : Nat} (hk : k < sizeBytes sz) :
    BitVec.ofNat 8 (numberValue sz s r / 2 ^ (8 * k)) = byteOf (s.n r) k := by
  rw [numberValue, sizeBits_eq_bytes, byte_mod _ (by omega), byteOf_eq_ofNat]

/-! ## Load, store, clear and move -/

/-- Settles O33: the SIZE/8 bytes are those of the number below SIZE. -/
theorem numberLoadAndStore : Obligations.NumberLoadAndStore := by
  intro s sz n ra hr
  refine ⟨⟨_, if_pos hr, onlyN_writeNumber sz s n _, fun k _ => ?_⟩,
    ⟨_, if_pos hr, onlyStored_storeLE s _ _ _, fun k hk => ?_⟩⟩
  · rw [byteOf_writeNumber]
    split
    · next hk => exact Memory.loadLE_byte _ _ _ _ hk
    · rfl
  · rw [State.advance_lmem, State.setLmem_lmem, Memory.get_storeLE_inside _ _ _ _ _ hk, byte_numberValue sz s n hk]

/-- Settles O34: NMOV keeps a value that is below 2^SIZE. -/
theorem numberClearAndMove : Obligations.NumberClearAndMove := by
  intro s sz nd na
  refine ⟨⟨_, rfl, onlyN_setN s nd 0, State.n_setN_self s nd 0⟩, ⟨_, rfl, onlyN_writeNumber sz s nd _, ?_⟩⟩
  rw [State.n_advance, n_writeNumber, Nat.mod_eq_of_lt (numberValue_lt sz s na)]
  rfl

/-! ## Arithmetic -/

theorem exec_nadds {sz : SizeCode} {ww : NumWidth} (h : sizeBits sz % ww.bits = 0) (nd : NReg) (ra : XReg) (s : State) :
    exec (.nadds sz ww nd ra) s = .next (writeNumber sz s nd (numberValue sz s nd + scalarValue ww s ra)).advance :=
  if_pos (beq_iff_eq.mpr h)

theorem exec_nmuls {sz : SizeCode} {ww : NumWidth} (h : sizeBits sz % ww.bits = 0) (nd : NReg) (ra : XReg) (s : State) :
    exec (.nmuls sz ww nd ra) s = .next (writeNumber sz s nd (numberValue sz s nd * scalarValue ww s ra)).advance :=
  if_pos (beq_iff_eq.mpr h)

/-- Settles O35: reducing N[rd] before or after the operation is the same. -/
theorem numberAddAndMultiply : Obligations.NumberAddAndMultiply := by
  intro s sz ww nd ra hfit
  refine ⟨⟨_, exec_nadds hfit nd ra s, onlyN_writeNumber sz s nd _, ?_⟩,
    ⟨_, exec_nmuls hfit nd ra s, onlyN_writeNumber sz s nd _, ?_⟩⟩
  · rw [State.n_advance, n_writeNumber, numberValue, Nat.mod_add_mod]
    rfl
  · rw [State.n_advance, n_writeNumber, numberValue, Nat.mod_mul_mod]
    rfl

theorem scalarValue_lt (ww : NumWidth) (s : State) (r : XReg) : scalarValue ww s r < 2 ^ 64 :=
  (Nat.mod_le _ _).trans_lt (s.x r).isLt

theorem exec_ndivs_divZero {sz : SizeCode} {ww : NumWidth} (h : sizeBits sz % ww.bits = 0) {s : State} {xb : XReg}
    (hn : scalarValue ww s xb = 0) (nd : NReg) (xr : XReg) :
    exec (.ndivs sz ww nd xr xb) s = raise .divZero (.ndivs sz ww nd xr xb) s :=
  (if_pos (beq_iff_eq.mpr h)).trans (if_pos hn)

theorem exec_ndivs {sz : SizeCode} {ww : NumWidth} (h : sizeBits sz % ww.bits = 0) {s : State} {xb : XReg}
    (hn : scalarValue ww s xb ≠ 0) (nd : NReg) (xr : XReg) :
    exec (.ndivs sz ww nd xr xb) s =
      .next ((writeNumber sz s nd (numberValue sz s nd / scalarValue ww s xb)).setX xr
        (BitVec.ofNat 64 (numberValue sz s nd % scalarValue ww s xb))).advance :=
  (if_pos (beq_iff_eq.mpr h)).trans (if_neg hn)

/-- Settles O36: quotient and remainder fit their registers, so the division identity survives the writes. -/
theorem numberDivide : Obligations.NumberDivide := by
  intro s sz ww nd xr xb hfit
  refine ⟨fun hn => exec_ndivs_divZero hfit hn nd xr, fun hn => ⟨_, exec_ndivs hfit hn nd xr, ?_⟩⟩
  have hpos : 0 < scalarValue ww s xb := Nat.pos_of_ne_zero hn
  have hr : numberValue sz s nd % scalarValue ww s xb < scalarValue ww s xb := Nat.mod_lt _ hpos
  have hq : numberValue sz s nd / scalarValue ww s xb < 2 ^ sizeBits sz :=
    (Nat.div_le_self _ _).trans_lt (numberValue_lt sz s nd)
  rw [State.x_advance, State.x_setX_self, BitVec.toNat_ofNat, Nat.mod_eq_of_lt (hr.trans (scalarValue_lt ww s xb)),
    State.n_advance, State.n_setX, n_writeNumber, Nat.mod_eq_of_lt hq]
  exact ⟨(Nat.div_add_mod' _ _).symm, hr, rfl, fun r hne => State.x_setX_ne _ xr r _ hne,
    fun r hne => State.n_setN_ne s nd r _ hne⟩

/-! ## Tests -/

/-- Two values agree mod 2^(8 n) exactly when their low `n` bytes do. -/
theorem mod_eq_mod_iff_bytes (n v w : Nat) :
    v % 2 ^ (8 * n) = w % 2 ^ (8 * n) ↔
      ∀ k < n, BitVec.ofNat 8 (v / 2 ^ (8 * k)) = BitVec.ofNat 8 (w / 2 ^ (8 * k)) := by
  constructor
  · intro h k hk
    rw [← byte_mod v (m := 8 * n) (by omega), h, byte_mod w (by omega)]
  · intro h
    have hlist : toLE n v = toLE n w := by
      refine List.ext_getElem (by simp) fun k hk _ => ?_
      rw [getElem_toLE, getElem_toLE, h k (by simpa using hk)]
    rw [← pow_256_eq, ← fromLE_toLE, ← fromLE_toLE, hlist]

/-- Settles O37: two values are equal mod 2^SIZE exactly when their low SIZE/8 bytes are. -/
theorem numberTests : Obligations.NumberTests := by
  intro s sz na nb
  refine ⟨⟨_, rfl, rfl, ?_⟩, ⟨_, rfl, rfl, ?_⟩⟩
  · have hzero := mod_eq_mod_iff_bytes (sizeBytes sz) (s.n na).toNat 0
    simp only [Nat.zero_mod, Nat.zero_div] at hzero
    simp only [State.advance_z, State.setZ_z, numberZeroFlag, beq_iff_eq, numberValue, sizeBits_eq_bytes, hzero,
      byteOf_eq_ofNat]
    rfl
  · simp only [State.advance_z, State.setZ_z, numberEqualFlag, beq_iff_eq, numberValue, sizeBits_eq_bytes,
      mod_eq_mod_iff_bytes, byteOf_eq_ofNat]

/-! ## Byte reversals -/

theorem length_swappedWordBytes (wb v k n : Nat) : (swappedWordBytes wb v k n).length = n * wb := by
  induction n generalizing k with
  | zero => simp [swappedWordBytes]
  | succ n ih => rw [swappedWordBytes, List.length_append, length_toBE, ih, Nat.succ_mul, Nat.add_comm]

/-- Byte `j` of BE_n(v). -/
theorem getElem_toBE (n v j : Nat) (h : j < (toBE n v).length) :
    (toBE n v)[j] = BitVec.ofNat 8 (v / 2 ^ (8 * (n - 1 - j))) := by
  simp only [toBE, List.getElem_reverse, getElem_toLE, length_toLE]

/-- R212: where each byte of the result comes from, the words counted from `k`. -/
theorem getElem_swappedWordBytes {wb : Nat} (hwb : 0 < wb) (v k n j : Nat)
    (h : j < (swappedWordBytes wb v k n).length) :
    (swappedWordBytes wb v k n)[j] =
      BitVec.ofNat 8 (v / 2 ^ (8 * ((k + j / wb) * wb + (wb - 1 - j % wb)))) := by
  induction n generalizing k j with
  | zero => simp [swappedWordBytes] at h
  | succ n ih =>
    simp only [swappedWordBytes]
    by_cases hj : j < wb
    · rw [List.getElem_append_left (by simpa using hj), getElem_toBE, Nat.div_div_eq_div_mul, ← pow_add,
        Nat.div_eq_of_lt hj, Nat.mod_eq_of_lt hj]
      congr 3
      ring
    · rw [List.getElem_append_right (by simpa using hj), ih]
      have hdiv : j / wb = (j - wb) / wb + 1 := Nat.div_eq_sub_div hwb (by omega)
      have hmod : j % wb = (j - wb) % wb := Nat.mod_eq_sub_mod (by omega)
      simp only [length_toBE, hdiv, hmod]
      congr 5
      ring

theorem exec_nbswapw {sz : SizeCode} {ww : NumWidth} (h : sizeBits sz % ww.bits = 0) (nd na : NReg) (s : State) :
    exec (.nbswapw sz ww nd na) s = .next (writeNumber sz s nd
      (fromLE (swappedWordBytes ww.bytes (numberValue sz s na) 0 (sizeBits sz / ww.bits)))).advance :=
  if_pos (beq_iff_eq.mpr h)

theorem bits_eq_bytes (ww : NumWidth) : ww.bits = 8 * ww.bytes := by cases ww <;> rfl

theorem bytes_pos (ww : NumWidth) : 0 < ww.bytes := by cases ww <;> decide

/-- Byte `k` of a value of WW-bit words stays in its word. -/
theorem swapped_lt {wb n k : Nat} (hwb : 0 < wb) (hdvd : wb ∣ n) (hk : k < n) :
    k / wb * wb + (wb - 1 - k % wb) < n := by
  obtain ⟨q, rfl⟩ := hdvd
  have hword : k / wb < q := Nat.div_lt_of_lt_mul hk
  calc k / wb * wb + (wb - 1 - k % wb) < k / wb * wb + wb := by omega
    _ = (k / wb + 1) * wb := by ring
    _ ≤ q * wb := Nat.mul_le_mul_right _ hword
    _ = wb * q := Nat.mul_comm _ _

/-- R126: SIZE in WW-bit words, where it is a multiple of WW. -/
theorem size_words {sz : SizeCode} {ww : NumWidth} (h : sizeBits sz % ww.bits = 0) :
    ww.bytes ∣ sizeBytes sz ∧ sizeBits sz / ww.bits * ww.bytes = sizeBytes sz := by
  rw [sizeBits_eq_bytes, bits_eq_bytes] at h ⊢
  have hdvd : ww.bytes ∣ sizeBytes sz := Nat.dvd_of_mul_dvd_mul_left (by decide) (Nat.dvd_of_mod_eq_zero h)
  exact ⟨hdvd, by rw [Nat.mul_div_mul_left _ _ (by decide), Nat.div_mul_cancel hdvd]⟩

/-- Settles O38: each byte of the result is a byte of the operand below SIZE. -/
theorem numberByteSwaps : Obligations.NumberByteSwaps := by
  intro s sz ww nd na
  refine ⟨⟨_, rfl, onlyN_writeNumber sz s nd _, fun k _ => ?_⟩, fun hfit =>
    ⟨_, exec_nbswapw hfit nd na s, onlyN_writeNumber sz s nd _, fun k _ => ?_⟩⟩
  · rw [byteOf_writeNumber]
    refine ite_congr rfl (fun hk => ?_) fun _ => rfl
    rw [byte_byteRev, if_pos hk, byte_numberValue sz s na (by omega)]
  · obtain ⟨hdvd, hlen⟩ := size_words hfit
    rw [byteOf_writeNumber]
    refine ite_congr rfl (fun hk => ?_) fun _ => rfl
    rw [fromLE_byte _ _ (by rw [length_swappedWordBytes, hlen]; exact hk), getElem_swappedWordBytes (bytes_pos ww),
      Nat.zero_add, byte_numberValue sz s na (swapped_lt (bytes_pos ww) hdvd hk)]

/-! ## Words of a number register -/

theorem exec_ngetw {ww : NumWidth} {idx : Fin 256} (h : idx.val < 512 / ww.bits) (rd : XReg) (na : NReg) (s : State) :
    exec (.ngetw ww rd na idx) s =
      .next (s.setX rd (((s.n na).extractLsb' (idx.val * ww.bits) ww.bits).setWidth 64)).advance :=
  if_pos h

theorem exec_nsetw {ww : NumWidth} {idx : Fin 256} (h : idx.val < 512 / ww.bits) (nd : NReg) (ra : XReg) (s : State) :
    exec (.nsetw ww nd ra idx) s =
      .next (s.setN nd (insertField (s.n nd) (idx.val * ww.bits) ((s.x ra).setWidth ww.bits))).advance :=
  if_pos h

/-- Settles O39: a word of the register is a field of WW bits. -/
theorem numberWordIndexing : Obligations.NumberWordIndexing := by
  intro s ww x n idx
  refine ⟨fun hidx => ⟨⟨_, exec_ngetw hidx x n s, onlyX_setX s x _, fun k hk => ?_⟩,
    ⟨_, exec_nsetw hidx n x s, onlyN_setN s n _, fun k hk => ?_⟩⟩,
    fun hidx => ⟨exec_ngetw_badIndex hidx x n s, exec_nsetw_badIndex hidx n x s⟩⟩
  · rw [State.x_advance, State.x_setX_self, BitVec.getLsbD_setWidth, BitVec.getLsbD_extractLsb', decide_eq_true hk,
      Bool.true_and]
  · rw [State.n_advance, State.n_setN_self, getLsbD_insertField _ _ _ _ hk]
    refine ite_congr rfl (fun hin => ?_) fun _ => rfl
    rw [BitVec.getLsbD_setWidth, decide_eq_true (by omega), Bool.true_and]

end Sys2Proof.Machine
end

section
/-! # APPEND and FINALIZE (42_hash_engine.md R306 to R311)

APPEND of bytes that leave room fills the block buffer from OFF; the byte that fills it is followed by COMPRESS. -/
namespace Sys2Proof.Machine

theorem HashCtx.eq_of_fields {c d : HashCtx} (hmode : c.mode = d.mode) (hstate : c.state = d.state) (hh : c.h = d.h)
    (hblk : c.blk = d.blk) (hoff : c.off = d.off) (htotal : c.total = d.total) : c = d := by
  cases c
  cases d
  simp_all

/-! ## APPEND byte by byte -/

theorem HashCtx.appendByte_of_room {c : HashCtx} (h : c.off.toNat + 1 < c.mode.blockBytes) (b : Byte) :
    c.appendByte b = { c.putByte b with off := c.off + 1 } := if_pos h

theorem HashCtx.appendByte_of_full {c : HashCtx} (h : c.mode.blockBytes ≤ c.off.toNat + 1) (b : Byte) :
    c.appendByte b = (c.putByte b).compress := if_neg h.not_gt

theorem HashCtx.getElem_putByte (c : HashCtx) (b : Byte) (j : Nat) (hj : j < 128) :
    (c.putByte b).blk[j] = if c.off.toNat = j then b else c.blk[j] :=
  Vector.getElem_setIfInBounds hj

/-- HE.OFF after a byte that leaves room: the buffer has at most 128 bytes, so 8 bits hold it. -/
theorem HashCtx.toNat_off_add_one {c : HashCtx} (h : c.off.toNat + 1 < c.mode.blockBytes) :
    (c.off + 1).toNat = c.off.toNat + 1 := by
  have hB := Mode.blockBytes_le c.mode
  have h1 : (1 : BitVec 8).toNat = 1 := rfl
  rw [BitVec.toNat_add, h1]
  omega

/-! ## APPEND of bytes that leave room -/

theorem HashCtx.append_off_of_room {c : HashCtx} {m : List Byte} (h : c.off.toNat + m.length < c.mode.blockBytes) :
    (c.append m).off.toNat = c.off.toNat + m.length := by
  rw [HashCtx.append_off c m (by omega), Nat.mod_eq_of_lt h]

theorem HashCtx.append_h_of_room {c : HashCtx} {m : List Byte} (h : c.off.toNat + m.length < c.mode.blockBytes) :
    (c.append m).h = c.h := by
  induction m generalizing c with
  | nil => rfl
  | cons b m ih =>
    rw [List.length_cons] at h
    have hroom : c.off.toNat + 1 < c.mode.blockBytes := by omega
    rw [HashCtx.append_cons, c.appendByte_of_room hroom, ih]
    · rfl
    · show (c.off + 1).toNat + m.length < c.mode.blockBytes
      rw [HashCtx.toNat_off_add_one hroom]
      omega

/-- R306: the bytes go to the buffer in order, from OFF on. -/
theorem HashCtx.getElem_append_of_room {c : HashCtx} {m : List Byte}
    (h : c.off.toNat + m.length < c.mode.blockBytes) (j : Nat) (hj : j < 128) :
    (c.append m).blk[j] =
      if c.off.toNat ≤ j ∧ j < c.off.toNat + m.length then m.getD (j - c.off.toNat) 0 else c.blk[j] := by
  induction m generalizing c with
  | nil => rw [HashCtx.append_nil, if_neg (by simp)]
  | cons b m ih =>
    rw [List.length_cons] at h ⊢
    have hroom : c.off.toNat + 1 < c.mode.blockBytes := by omega
    have hoff : (c.appendByte b).off.toNat = c.off.toNat + 1 := by
      rw [HashCtx.appendByte_off c b (by omega), Nat.mod_eq_of_lt hroom]
    have hblk : (c.appendByte b).blk[j] = if c.off.toNat = j then b else c.blk[j] := by
      simp only [c.appendByte_of_room hroom, HashCtx.getElem_putByte]
    rw [HashCtx.append_cons, ih (by rw [hoff, HashCtx.appendByte_mode]; omega), hoff, hblk]
    by_cases hself : c.off.toNat = j
    · rw [if_neg (by omega), if_pos hself, if_pos (by omega), hself, Nat.sub_self]
      rfl
    · by_cases hin : c.off.toNat + 1 ≤ j ∧ j < c.off.toNat + 1 + m.length
      · have hidx : j - c.off.toNat = j - (c.off.toNat + 1) + 1 := by omega
        rw [if_pos hin, if_pos (by omega), hidx, List.getD_cons_succ]
      · rw [if_neg hin, if_neg hself, if_neg (by omega)]

/-! ## APPEND of bytes that fill the block -/

/-- The context with the block buffer filled by the first bytes of `m`, just before COMPRESS. -/
def HashCtx.filled (c : HashCtx) (m : List Byte) : HashCtx :=
  (c.append (m.take (c.mode.blockBytes - c.off.toNat - 1))).putByte (m.getD (c.mode.blockBytes - c.off.toNat - 1) 0)

section
variable {c : HashCtx} {m : List Byte} (hoff : c.off.toNat < c.mode.blockBytes)
  (hfill : c.mode.blockBytes - c.off.toNat ≤ m.length)

@[simp] theorem HashCtx.filled_mode : (c.filled m).mode = c.mode := by simp [HashCtx.filled]

@[simp] theorem HashCtx.filled_state : (c.filled m).state = c.state := by simp [HashCtx.filled]

@[simp] theorem HashCtx.filled_total : (c.filled m).total = c.total := by simp [HashCtx.filled]

include hoff hfill

theorem HashCtx.room_before_filled :
    c.off.toNat + (m.take (c.mode.blockBytes - c.off.toNat - 1)).length = c.mode.blockBytes - 1 := by
  rw [List.length_take]
  omega

theorem HashCtx.filled_h : (c.filled m).h = c.h := by
  have hroom := HashCtx.room_before_filled hoff hfill
  exact HashCtx.append_h_of_room (by omega)

theorem HashCtx.getElem_filled (j : Nat) (hj : j < 128) :
    (c.filled m).blk[j] =
      if c.off.toNat ≤ j ∧ j < c.mode.blockBytes then m.getD (j - c.off.toNat) 0 else c.blk[j] := by
  have hroom := HashCtx.room_before_filled hoff hfill
  rw [HashCtx.filled, HashCtx.getElem_putByte, HashCtx.append_off_of_room (by omega),
    HashCtx.getElem_append_of_room (by omega), hroom]
  by_cases hlast : c.mode.blockBytes - 1 = j
  · rw [if_pos hlast, if_pos (by omega)]
    congr 1
    omega
  · rw [if_neg hlast]
    by_cases hin : c.off.toNat ≤ j ∧ j < c.mode.blockBytes - 1
    · rw [if_pos hin, if_pos (by omega), List.getD_eq_getElem?_getD, List.getD_eq_getElem?_getD,
        List.getElem?_take_of_lt (by omega)]
    · rw [if_neg hin, if_neg (by omega)]

/-- R306: the filled block is compressed and the rest is appended. -/
theorem HashCtx.append_of_fill :
    c.append m = (c.filled m).compress.append (m.drop (c.mode.blockBytes - c.off.toNat)) := by
  have hroom := HashCtx.room_before_filled hoff hfill
  have hlt : c.mode.blockBytes - c.off.toNat - 1 < m.length := by omega
  have hdrop : c.mode.blockBytes - c.off.toNat - 1 + 1 = c.mode.blockBytes - c.off.toNat := by omega
  conv_lhs =>
    rw [← List.take_append_drop (c.mode.blockBytes - c.off.toNat - 1) m, List.drop_eq_getElem_cons hlt, hdrop]
  rw [HashCtx.append_append, HashCtx.append_cons, HashCtx.appendByte_of_full, HashCtx.filled,
    List.getD_eq_getElem _ _ hlt]
  rw [HashCtx.append_off_of_room (by omega), HashCtx.append_mode]
  omega

end

/-- Settles O45: `HashCtx.filled` is the context just before the COMPRESS of a filled block. -/
theorem appendFillsAndCompresses : Obligations.AppendFillsAndCompresses := by
  intro c m hoff
  refine ⟨c.append_mode m, c.append_total m, c.append_state m, c.append_off_lt m hoff, fun hshort => ?_,
    fun hfill => ?_⟩
  · have hroom : c.off.toNat + m.length < c.mode.blockBytes := by omega
    exact ⟨HashCtx.append_off_of_room hroom, HashCtx.append_h_of_room hroom,
      fun j => HashCtx.getElem_append_of_room hroom j.val j.isLt⟩
  · exact ⟨c.filled m, HashCtx.filled_mode, HashCtx.filled_state, HashCtx.filled_total, HashCtx.filled_h hoff hfill,
      fun j => HashCtx.getElem_filled hoff hfill j.val j.isLt, HashCtx.append_of_fill hoff hfill⟩

/-! ## Zero bytes -/

theorem HashCtx.getElem_zeroTo (c : HashCtx) {hi : Nat} (hlo : c.off.toNat ≤ hi) (j : Nat) (hj : j < 128) :
    (c.zeroTo hi).blk[j] = if c.off.toNat ≤ j ∧ j < hi then 0 else c.blk[j] := by
  rw [HashCtx.zeroTo, getElem_zeroBytes, Nat.add_sub_cancel' hlo]

theorem getD_replicate_zero (n i : Nat) : (List.replicate n (0 : Byte)).getD i 0 = 0 := by
  rw [List.getD_eq_getElem?_getD, List.getElem?_replicate]
  split <;> rfl

/-- R309 step 4: zeros up to the length field, where there is room for it. -/
theorem HashCtx.padZeros_eq_append {c : HashCtx} (h : c.off.toNat ≤ Mode.lengthOffset c.mode) :
    c.padZeros = c.append (List.replicate (Mode.lengthOffset c.mode - c.off.toNat) 0) := by
  have hlo := Mode.lengthOffset_lt c.mode
  have hroom : c.off.toNat + (List.replicate (Mode.lengthOffset c.mode - c.off.toNat) (0 : Byte)).length <
      c.mode.blockBytes := by rw [List.length_replicate]; omega
  refine HashCtx.eq_of_fields (by simp) (by simp [HashCtx.padZeros]) (HashCtx.append_h_of_room hroom).symm ?_ ?_
    (by simp)
  · refine Vector.ext fun j hj => ?_
    rw [HashCtx.getElem_append_of_room hroom, List.length_replicate, Nat.add_sub_cancel' h, getD_replicate_zero]
    exact c.getElem_zeroTo h j hj
  · refine BitVec.eq_of_toNat_eq ?_
    rw [HashCtx.append_off_of_room hroom, List.length_replicate, Nat.add_sub_cancel' h]
    exact Mode.lengthOffset_mod c.mode

/-- R309 step 3: zeros to the end of the block, and COMPRESS. -/
theorem HashCtx.zeroTo_compress_eq_append {c : HashCtx} (hoff : c.off.toNat < c.mode.blockBytes) :
    (c.zeroTo c.mode.blockBytes).compress = c.append (List.replicate (c.mode.blockBytes - c.off.toNat) 0) := by
  have hfill : c.mode.blockBytes - c.off.toNat ≤
      (List.replicate (c.mode.blockBytes - c.off.toNat) (0 : Byte)).length := by rw [List.length_replicate]
  have hblk : (c.zeroTo c.mode.blockBytes).blk =
      (c.filled (List.replicate (c.mode.blockBytes - c.off.toNat) 0)).blk := by
    refine Vector.ext fun j hj => ?_
    rw [HashCtx.getElem_filled hoff hfill, getD_replicate_zero, HashCtx.getElem_zeroTo c hoff.le]
  rw [HashCtx.append_of_fill hoff hfill, List.drop_replicate, Nat.sub_self]
  refine HashCtx.eq_of_fields (by simp) (by simp) ?_ hblk rfl (by simp)
  simp only [List.replicate_zero, HashCtx.append_nil, HashCtx.compress_h, HashCtx.block, hblk,
    HashCtx.filled_h hoff hfill, HashCtx.filled_mode, HashCtx.zeroTo_mode, HashCtx.zeroTo_h]

/-! ## FINALIZE -/

/-- R6: the block and length sizes. -/
theorem Mode.sizes (m : Mode) :
    m.blockBytes = 64 ∧ m.lengthBytes = 8 ∧ Mode.lengthOffset m = 56 ∨
      m.blockBytes = 128 ∧ m.lengthBytes = 16 ∧ Mode.lengthOffset m = 112 := by
  cases m <;> decide

/-- R309, R311: the padding is the number of zero bytes that lets the length field end on a block edge. -/
theorem HashCtx.makeRoom_padZeros {c : HashCtx} {k : Nat} (hoff : c.off.toNat < c.mode.blockBytes)
    (hk : k < c.mode.blockBytes) (hedge : (c.off.toNat + k + c.mode.lengthBytes) % c.mode.blockBytes = 0) :
    c.makeRoom.padZeros = c.append (List.replicate k 0) := by
  have hsizes := Mode.sizes c.mode
  unfold HashCtx.makeRoom
  split
  · next hfull =>
    have hsplit : k = (c.mode.blockBytes - c.off.toNat) + Mode.lengthOffset c.mode := by
      obtain ⟨hB, hL, hO⟩ | ⟨hB, hL, hO⟩ := hsizes <;> rw [hB, hL] at hedge <;> omega
    have hzero : (c.append (List.replicate (c.mode.blockBytes - c.off.toNat) 0)).off = 0 := by
      rw [← HashCtx.zeroTo_compress_eq_append hoff, HashCtx.compress_off]
    rw [HashCtx.zeroTo_compress_eq_append hoff, hsplit, List.replicate_add, HashCtx.append_append,
      HashCtx.padZeros_eq_append (by rw [hzero]; exact Nat.zero_le _), hzero, HashCtx.append_mode]
    rfl
  · next hroom =>
    have hsplit : k = Mode.lengthOffset c.mode - c.off.toNat := by
      obtain ⟨hB, hL, hO⟩ | ⟨hB, hL, hO⟩ := hsizes <;> rw [hB, hL] at hedge <;> omega
    rw [hsplit, HashCtx.padZeros_eq_append (by omega)]

theorem lengthField_eq (m : Mode) (v : Nat) :
    lengthField m v = if m = .rmd160 then toLE m.lengthBytes v else toBE m.lengthBytes v := by
  cases m <;> rfl

/-- R309 to R311: FINALIZE is APPEND of the padding. -/
theorem HashCtx.finalize_h {c : HashCtx} {k : Nat} (hoff : c.off.toNat < c.mode.blockBytes)
    (hk : k < c.mode.blockBytes) (hedge : (c.off.toNat + 1 + k + c.mode.lengthBytes) % c.mode.blockBytes = 0) :
    c.finalize.h = (c.append ([0x80] ++ List.replicate k 0 ++ lengthField c.mode c.lengthBits)).h := by
  have hoff1 : (c.append [0x80]).off.toNat = (c.off.toNat + 1) % c.mode.blockBytes := HashCtx.append_off c _ hoff
  have hpad : (c.append [0x80]).makeRoom.padZeros = (c.append [0x80]).append (List.replicate k 0) := by
    refine HashCtx.makeRoom_padZeros (c.append_mode _ ▸ c.append_off_lt _ hoff) (c.append_mode _ ▸ hk) ?_
    rw [hoff1, HashCtx.append_mode, Nat.add_assoc, Nat.mod_add_mod, ← Nat.add_assoc]
    exact hedge
  rw [HashCtx.append_append, HashCtx.append_append, ← hpad]
  rfl

/-- Settles O46: with or without an extra block, FINALIZE appends the padding. -/
theorem finalizePads : Obligations.FinalizePads := by
  intro c k hoff hk hedge
  refine ⟨?_, rfl, ?_, c.finalize_total, c.finalize_mode⟩
  · rw [HashCtx.finalize_h hoff hk hedge, lengthField_eq]
    rfl
  · rw [HashCtx.finalize_off]
    cases c.mode <;> rfl

end Sys2Proof.Machine
end

section
/-! # The digest of a message (42_hash_engine.md R300, R306 to R311) -/
namespace Sys2Proof.Machine

/-- The buffer of a block taken whole is the message's block. -/
theorem HashCtx.block_filled {c : HashCtx} {m : List Byte} (hoff : c.off = 0) (hm : c.mode.blockBytes ≤ m.length) :
    (c.filled m).block = m.take c.mode.blockBytes := by
  have hzero : c.off.toNat = 0 := by rw [hoff]; rfl
  have hpos := Mode.blockBytes_pos c.mode
  have hle := Mode.blockBytes_le c.mode
  refine List.ext_getElem (by simp [HashCtx.block]; omega) fun j hj hj' => ?_
  have hjB : j < c.mode.blockBytes := by simp only [List.length_take] at hj'; omega
  simp only [HashCtx.block, List.getElem_take, Vector.getElem_toList]
  rw [HashCtx.getElem_filled (by omega) (by omega), hzero, if_pos ⟨Nat.zero_le _, hjB⟩, Nat.sub_zero,
    List.getD_eq_getElem _ _ (by omega)]

/-- R300, R306: whole blocks from an empty buffer are compressed one after the other. -/
theorem HashCtx.append_blocks (n : Nat) {c : HashCtx} {m : List Byte} (hoff : c.off = 0)
    (hm : m.length = n * c.mode.blockBytes) :
    (c.append m).h = (blocksOf c.mode.blockBytes n m).foldl (compressFn c.mode) c.h := by
  induction n generalizing c m with
  | zero =>
    rw [Nat.zero_mul] at hm
    rw [List.length_eq_zero_iff.mp hm]
    rfl
  | succ n ih =>
    have hpos := Mode.blockBytes_pos c.mode
    have hzero : c.off.toNat = 0 := by rw [hoff]; rfl
    have hone : c.mode.blockBytes ≤ m.length := by rw [hm]; exact Nat.le_mul_of_pos_left _ n.succ_pos
    have hrest : (m.drop c.mode.blockBytes).length = n * c.mode.blockBytes := by
      rw [List.length_drop, hm, Nat.succ_mul, Nat.add_sub_cancel]
    have hnext := ih (c := (c.filled m).compress) (m := m.drop c.mode.blockBytes) rfl
      (by rw [HashCtx.compress_mode, HashCtx.filled_mode]; exact hrest)
    simp only [HashCtx.compress_mode, HashCtx.filled_mode, HashCtx.compress_h, HashCtx.block_filled hoff hone,
      HashCtx.filled_h (hzero ▸ hpos) (by omega : c.mode.blockBytes - c.off.toNat ≤ m.length)] at hnext
    rw [HashCtx.append_of_fill (by omega) (by omega), hzero, Nat.sub_zero, hnext]
    rfl

/-! ## APPEND reads neither TOTAL nor STATE -/

/-- The context with TOTAL and STATE replaced. -/
def HashCtx.withCount (c : HashCtx) (total : Word64) (state : HashState) : HashCtx :=
  { c with total := total, state := state }

theorem HashCtx.appendByte_withCount (c : HashCtx) (total : Word64) (state : HashState) (b : Byte) :
    (c.withCount total state).appendByte b = (c.appendByte b).withCount total state := by
  by_cases h : c.off.toNat + 1 < c.mode.blockBytes
  · rw [HashCtx.appendByte_of_room h, HashCtx.appendByte_of_room (c := c.withCount total state) h]
    rfl
  · have hfull := not_lt.mp h
    rw [HashCtx.appendByte_of_full hfull, HashCtx.appendByte_of_full (c := c.withCount total state) hfull]
    rfl

theorem HashCtx.append_withCount (c : HashCtx) (total : Word64) (state : HashState) (m : List Byte) :
    (c.withCount total state).append m = (c.append m).withCount total state := by
  induction m generalizing c with
  | nil => rfl
  | cons b m ih => rw [HashCtx.append_cons, HashCtx.appendByte_withCount, ih, HashCtx.append_cons]

theorem HashCtx.update_eq (c : HashCtx) (m : List Byte) (n : Nat) :
    c.update m n = (c.append m).withCount (BitVec.ofNat 64 (c.total.toNat + n)) (afterUpdate c.state n) := rfl

theorem HashCtx.update_append_h (c : HashCtx) (m p : List Byte) (n : Nat) :
    ((c.update m n).append p).h = (c.append (m ++ p)).h := by
  rw [HashCtx.update_eq, HashCtx.append_withCount, HashCtx.append_append]
  rfl

/-! ## The whole message -/

theorem toLE_mod (n v : Nat) : toLE n (v % 2 ^ (8 * n)) = toLE n v := by
  refine List.ext_getElem (by simp) fun k hk _ => ?_
  rw [getElem_toLE, getElem_toLE, byte_mod]
  rw [length_toLE] at hk
  omega

theorem lengthField_mod (m : Mode) (v : Nat) :
    lengthField m (v % 2 ^ (8 * m.lengthBytes)) = lengthField m v := by
  simp only [lengthField_eq, toBE, toLE_mod]

/-- R309 step 1: of a message below 2^64 bytes, TOTAL is the whole length. -/
theorem lengthField_init_update {m : Mode} {msg : List Byte} (hlen : msg.length < 2 ^ 64) :
    lengthField m ((HashCtx.init m).update msg msg.length).lengthBits = lengthField m (8 * msg.length) := by
  have htotal : ((HashCtx.init m).update msg msg.length).total.toNat = msg.length := by
    rw [HashCtx.update_total, HashCtx.init_total, BitVec.toNat_ofNat]
    exact (congrArg (· % 2 ^ 64) (Nat.zero_add _)).trans (Nat.mod_eq_of_lt hlen)
  rw [HashCtx.lengthBits, htotal, HashCtx.update_mode, HashCtx.init_mode, lengthField_mod]

/-- Settles O47: the padded message is whole blocks, appended from an empty buffer. -/
theorem digestFoldsThePaddedMessage : Obligations.DigestFoldsThePaddedMessage := by
  intro m msg k hlen hk hedge field padded
  have hB := Mode.blockBytes_pos m
  have hfield : lengthField m (8 * msg.length) = field := lengthField_eq m _
  have hoff : ((HashCtx.init m).update msg msg.length).off.toNat = msg.length % m.blockBytes := by
    rw [HashCtx.update_off, HashCtx.append_off _ _ (by exact hB)]
    exact congrArg (· % _) (Nat.zero_add _)
  have hlast : (((HashCtx.init m).update msg msg.length).off.toNat + 1 + k + m.lengthBytes) % m.blockBytes = 0 := by
    rw [hoff, Nat.add_assoc, Nat.add_assoc, Nat.mod_add_mod, ← Nat.add_assoc, ← Nat.add_assoc]
    exact hedge
  have hblocks : padded.length = padded.length / m.blockBytes * m.blockBytes := by
    have hpadded : padded.length = msg.length + 1 + k + m.lengthBytes := by
      simp only [padded, List.length_append, List.length_singleton, List.length_replicate, ← hfield,
        length_lengthField]
    rw [Nat.div_mul_cancel]
    exact hpadded ▸ Nat.dvd_of_mod_eq_zero hedge
  have hfinal := HashCtx.finalize_h (c := (HashCtx.init m).update msg msg.length) (k := k)
    (by rw [hoff, HashCtx.update_mode]; exact Nat.mod_lt _ hB) (by rw [HashCtx.update_mode]; exact hk)
    (by rw [HashCtx.update_mode]; exact hlast)
  rw [hfinal, HashCtx.update_append_h, HashCtx.update_mode, HashCtx.init_mode, lengthField_init_update hlen, hfield,
    ← List.append_assoc, ← List.append_assoc]
  exact HashCtx.append_blocks (c := HashCtx.init m) _ rfl hblocks

/-! ## A message in parts -/

theorem afterUpdate_afterUpdate (old : HashState) (a b : Nat) :
    afterUpdate (afterUpdate old a) b = afterUpdate old (a + b) := by
  unfold afterUpdate
  by_cases ha : a = 0 <;> by_cases hb : b = 0 <;> simp [ha, hb]

/-- R315: two updates are one with the bytes of both. -/
theorem HashCtx.update_update (c : HashCtx) (m p : List Byte) (a b : Nat) :
    (c.update m a).update p b = c.update (m ++ p) (a + b) := by
  have htotal : BitVec.ofNat 64 ((BitVec.ofNat 64 (c.total.toNat + a)).toNat + b) =
      BitVec.ofNat 64 (c.total.toNat + (a + b)) := by
    refine BitVec.eq_of_toNat_eq ?_
    simp only [BitVec.toNat_ofNat]
    omega
  rw [HashCtx.update_eq (c.update m a), HashCtx.update_eq c, HashCtx.append_withCount, HashCtx.update_eq c,
    HashCtx.append_append]
  simp only [HashCtx.withCount, afterUpdate_afterUpdate, htotal]

theorem HashCtx.update_nil (c : HashCtx) : c.update [] 0 = c := by
  simp [HashCtx.update, afterUpdate]

theorem foldl_update (c : HashCtx) (parts : List (List Byte)) :
    parts.foldl (fun c p => HashCtx.update c p p.length) c = c.update parts.flatten parts.flatten.length := by
  induction parts generalizing c with
  | nil => exact c.update_nil.symm
  | cons p parts ih => rw [List.foldl_cons, ih, HashCtx.update_update, List.flatten_cons, List.length_append]

/-- R303: a HUPD that leaves the sequencer RUNNING has taken the bytes of its range. -/
theorem exec_hupd_running {s t : State} {ra rb : XReg} (h : exec (.hupd ra rb) s = .next t) (ht : t.run = .running) :
    (s.he.state = .empty ∨ s.he.state = .accum) ∧ s.inRange (s.x ra).toNat (s.x rb).toNat ∧
    t = (s.setHe (s.he.update (s.lmem.readBytes (s.x ra).toNat (s.x rb).toNat) (s.x rb).toNat)).advance := by
  by_cases hs : s.he.state = .empty ∨ s.he.state = .accum
  · obtain ⟨hout, -⟩ := exec_access (i := .hupd ra rb) rfl hs
    by_cases hr : s.inRange (s.x ra).toNat (s.x rb).toNat
    · rw [exec_hupd_inRange hs hr] at h
      exact ⟨hs, hr, (Host.Outcome.next.inj h).symm⟩
    · cases (hout hr).symm.trans h
      cases ht
  · cases (exec_hupd_refused ra rb hs).symm.trans h
    cases ht

/-- Settles O48: an update after an update is one update, and adjacent ranges hold the joined range's bytes. -/
theorem streamingEquivalence : Obligations.StreamingEquivalence := by
  refine ⟨fun m parts => foldl_update _ parts, fun s t u v ra rb rc rd re hrun hc he ht htrun hu hurun hv => ?_⟩
  obtain ⟨hs, -, rfl⟩ := exec_hupd_running ht htrun
  obtain ⟨-, hr, rfl⟩ := exec_hupd_running hu hurun
  simp only [State.inRange, State.x_advance, State.x_setHe, State.advance_cfg, State.setHe_cfg, hc] at hr
  rw [exec_hupd_inRange hs (by rw [State.inRange, he]; omega)] at hv
  obtain rfl := Host.Outcome.next.inj hv
  refine ⟨hrun, ?_⟩
  simp only [State.advance_he, State.setHe_he, State.x_advance, State.x_setHe, State.advance_lmem, State.setHe_lmem,
    HashCtx.update_update, hc, he, Memory.readBytes_add]

/-! ## The buffer at and beyond OFF -/

/-- The contexts agree but for the bytes of the buffer at or beyond OFF. -/
structure SameBelowOff (c d : HashCtx) : Prop where
  mode : d.mode = c.mode
  state : d.state = c.state
  total : d.total = c.total
  h : d.h = c.h
  off : d.off = c.off
  blk : ∀ (j : Nat) (hj : j < 128), j < c.off.toNat → d.blk[j] = c.blk[j]

/-- A byte put at OFF: the buffers then agree one byte farther. -/
theorem SameBelowOff.putByte {c d : HashCtx} (hs : SameBelowOff c d) (b : Byte) (j : Nat) (hj : j < 128)
    (hlt : j < c.off.toNat + 1) : (d.putByte b).blk[j] = (c.putByte b).blk[j] := by
  rw [HashCtx.getElem_putByte, HashCtx.getElem_putByte, hs.off]
  refine ite_congr rfl (fun _ => rfl) fun hne => hs.blk j hj (by omega)

theorem SameBelowOff.appendByte {c d : HashCtx} (hs : SameBelowOff c d) (hoff : c.off.toNat < c.mode.blockBytes)
    (b : Byte) : SameBelowOff (c.appendByte b) (d.appendByte b) := by
  have hB := Mode.blockBytes_le c.mode
  by_cases hroom : c.off.toNat + 1 < c.mode.blockBytes
  · rw [HashCtx.appendByte_of_room hroom, HashCtx.appendByte_of_room (by rw [hs.off, hs.mode]; exact hroom)]
    refine ⟨hs.mode, hs.state, hs.total, hs.h, congrArg (· + 1) hs.off, fun j hj hlt => hs.putByte b j hj ?_⟩
    rw [← HashCtx.toNat_off_add_one hroom]
    exact hlt
  · have hfull : c.mode.blockBytes ≤ c.off.toNat + 1 := by omega
    rw [HashCtx.appendByte_of_full hfull, HashCtx.appendByte_of_full (by rw [hs.off, hs.mode]; exact hfull)]
    refine ⟨hs.mode, hs.state, hs.total, ?_, rfl, fun j _ hlt => absurd hlt (Nat.not_lt_zero j)⟩
    have hblock : (d.putByte b).block = (c.putByte b).block := by
      simp only [HashCtx.block, HashCtx.putByte_mode, hs.mode]
      refine List.ext_getElem (by simp) fun j hj _ => ?_
      simp only [List.length_take, Vector.length_toList] at hj
      simp only [List.getElem_take, Vector.getElem_toList]
      exact hs.putByte b j (by omega) (by omega)
    rw [HashCtx.compress_h, HashCtx.compress_h, hblock, HashCtx.putByte_mode, HashCtx.putByte_mode, hs.mode,
      HashCtx.putByte_h, HashCtx.putByte_h, hs.h]

theorem SameBelowOff.append {c d : HashCtx} (hs : SameBelowOff c d) (hoff : c.off.toNat < c.mode.blockBytes)
    (m : List Byte) : SameBelowOff (c.append m) (d.append m) := by
  induction m generalizing c d with
  | nil => exact hs
  | cons b m ih =>
    refine ih (hs.appendByte hoff b) ?_
    rw [HashCtx.appendByte_mode]
    exact HashCtx.append_off_lt c [b] hoff

/-- R309: some number of zero bytes lets the length field end on a block edge. -/
theorem exists_padding (m : Mode) (off : Nat) :
    ∃ k, k < m.blockBytes ∧ (off + 1 + k + m.lengthBytes) % m.blockBytes = 0 := by
  refine ⟨(m.blockBytes - (off + 1 + m.lengthBytes) % m.blockBytes) % m.blockBytes,
    Nat.mod_lt _ (Mode.blockBytes_pos m), ?_⟩
  obtain ⟨hB, hL, -⟩ | ⟨hB, hL, -⟩ := Mode.sizes m <;> rw [hB, hL] <;> omega

theorem SameBelowOff.finalize_h {c d : HashCtx} (hs : SameBelowOff c d) (hoff : c.off.toNat < c.mode.blockBytes) :
    d.finalize.h = c.finalize.h := by
  obtain ⟨k, hk, hedge⟩ := exists_padding c.mode c.off.toNat
  have hbits : d.lengthBits = c.lengthBits := by rw [HashCtx.lengthBits, HashCtx.lengthBits, hs.total, hs.mode]
  rw [HashCtx.finalize_h hoff hk hedge, HashCtx.finalize_h (c := d) (k := k) (by rw [hs.off, hs.mode]; exact hoff)
    (by rw [hs.mode]; exact hk) (by rw [hs.off, hs.mode]; exact hedge), hs.mode, hbits]
  exact (hs.append hoff _).h

/-- R313: the digest bytes depend on the mode and the digest words only. -/
theorem output_congr {c d : HashCtx} (hmode : d.mode = c.mode) (hh : d.h = c.h) : d.output = c.output := by
  simp only [HashCtx.output, HashCtx.wireBytes, hmode, hh]

/-- Settles O49: APPEND writes a byte of the buffer before COMPRESS reads it, and FINALIZE is APPEND. -/
theorem staleBufferBytesAreNeverRead : Obligations.StaleBufferBytesAreNeverRead := by
  intro c blk m hoff hblk d
  have hsame : SameBelowOff c d := ⟨rfl, rfl, rfl, rfl, rfl, fun j hj => hblk ⟨j, hj⟩⟩
  have happend := hsame.append hoff m
  have hoff' : (c.append m).off.toNat < (c.append m).mode.blockBytes := c.append_mode m ▸ c.append_off_lt m hoff
  refine ⟨happend.h, happend.off, output_congr ?_ (happend.finalize_h hoff')⟩
  rw [HashCtx.finalize_mode, HashCtx.finalize_mode, happend.mode]

end Sys2Proof.Machine
end

section
/-! # The hash commands complete (42_hash_engine.md R302 to R305, R312, R313, R316) -/
namespace Sys2Proof.Machine

/-- Settles O40: HSTAT zero-extends the field it selects. -/
theorem hashInitWipeStatus : Obligations.HashInitWipeStatus := by
  intro s m rd
  refine ⟨rfl, rfl, ⟨_, rfl, onlyX_setX s rd _, ?_⟩, ⟨_, rfl, onlyX_setX s rd _, ?_⟩, ⟨_, rfl, onlyX_setX s rd _, ?_⟩,
    ⟨_, rfl, onlyX_setX s rd _, ?_⟩⟩
  all_goals rw [State.x_advance, State.x_setX_self, HashCtx.status]
  all_goals exact BitVec.toNat_setWidth_of_le (by decide)

/-- Settles O42: the context is that of `HashCtx.update` with the bytes of the range. -/
theorem hashUpdate : Obligations.HashUpdate := by
  intro s ra rb hs hr
  refine ⟨_, s.lmem.readBytes (s.x ra).toNat (s.x rb).toNat, exec_hupd_inRange hs hr, rfl, Memory.length_readBytes ..,
    fun k b hb => ?_, BitVec.toNat_ofNat .., HashCtx.update_mode .., rfl, rfl, rfl, fun hzero => ?_⟩
  · obtain ⟨hk, rfl⟩ := List.getElem?_eq_some_iff.mp hb
    exact Memory.getElem_readBytes ..
  · rw [State.advance_he, State.setHe_he, hzero]
    exact s.he.update_nil

/-! ## The digest bytes -/

/-- Byte `j` of equally long pieces put one after the other. -/
theorem getD_flatMap_const {α : Type} (l : List α) (f : α → List Byte) {n : Nat} (hf : ∀ a, (f a).length = n) (a : α)
    {j : Nat} (hj : j < n * l.length) : (l.flatMap f).getD j 0 = (f (l.getD (j / n) a)).getD (j % n) 0 := by
  induction l generalizing j with
  | nil => exact absurd hj (Nat.not_lt_zero j)
  | cons b l ih =>
    rw [List.flatMap_cons]
    by_cases hfirst : j < n
    · rw [List.getD_append _ _ _ _ (by rwa [hf]), Nat.div_eq_of_lt hfirst, Nat.mod_eq_of_lt hfirst]
      rfl
    · have hn : 0 < n := Nat.pos_of_ne_zero (by rintro rfl; simp at hj)
      have hrest : j - n < n * l.length := by
        rw [List.length_cons, Nat.mul_succ] at hj
        omega
      have hdiv : j / n = (j - n) / n + 1 := Nat.div_eq_sub_div hn (by omega)
      have hmod : j % n = (j - n) % n := Nat.mod_eq_sub_mod (by omega)
      rw [List.getD_append_right _ _ _ _ (by rw [hf]; omega), hf, ih hrest, hdiv, hmod, List.getD_cons_succ]

theorem getD_toLE {n k : Nat} (v : Word64) (hk : k < n) : (toLE n v.toNat).getD k 0 = byteOf v k := by
  rw [List.getD_eq_getElem _ _ (by simpa using hk), getElem_toLE, byteOf_eq_ofNat]

theorem getD_toBE {n k : Nat} (v : Word64) (hk : k < n) : (toBE n v.toNat).getD k 0 = byteOf v (n - 1 - k) := by
  rw [List.getD_eq_getElem _ _ (by simpa using hk), getElem_toBE, byteOf_eq_ofNat]

theorem HashCtx.wireBytes_rmd160 {c : HashCtx} (h : c.mode = .rmd160) :
    c.wireBytes = c.h.toList.flatMap fun v => toLE 4 v.toNat := by
  simp only [HashCtx.wireBytes, h]

theorem HashCtx.wireBytes_sha2 {c : HashCtx} (h : c.mode ≠ .rmd160) :
    c.wireBytes = c.h.toList.flatMap fun v => toBE c.mode.width.bytes v.toNat := by
  cases hm : c.mode with
  | rmd160 => exact absurd hm h
  | sha256 | sha224 | sha512 | sha384 | sha512t256 | sha512t224 =>
    simp only [HashCtx.wireBytes, hm]
    rfl

theorem Mode.digestBytes_le (m : Mode) : m.digestBytes ≤ m.width.bytes * 8 := by cases m <;> decide

/-- R313: a digest byte, by the word it lies in and its place there. -/
theorem HashCtx.getD_output (c : HashCtx) {j : Nat} (hj : j < c.mode.digestBytes) :
    c.output.getD j 0 =
      if c.mode = .rmd160 then byteOf (c.h.toList.getD (j / 4) 0) (j % 4)
      else byteOf (c.h.toList.getD (j / c.mode.width.bytes) 0) (c.mode.width.bytes - 1 - j % c.mode.width.bytes) := by
  have hlen : j < c.mode.width.bytes * c.h.toList.length := by
    rw [Vector.length_toList]
    exact hj.trans_le (Mode.digestBytes_le c.mode)
  have hwire : c.output.getD j 0 = c.wireBytes.getD j 0 := by
    rw [HashCtx.output, List.getD_eq_getElem?_getD, List.getElem?_take_of_lt hj, List.getD_eq_getElem?_getD]
  rw [hwire]
  split
  · next hm =>
    have hbytes : c.mode.width.bytes = 4 := by rw [hm]; rfl
    rw [hbytes] at hlen
    rw [HashCtx.wireBytes_rmd160 hm, getD_flatMap_const _ _ (by simp) 0 hlen, getD_toLE _ (Nat.mod_lt _ (by decide))]
  · next hm =>
    have hpos : 0 < c.mode.width.bytes := by cases c.mode <;> decide
    rw [HashCtx.wireBytes_sha2 hm, getD_flatMap_const _ _ (by simp) 0 hlen, getD_toBE _ (Nat.mod_lt _ hpos)]

theorem HashCtx.digested_eq (c : HashCtx) : c.digested = if c.state = .final then c else c.finalize := by
  split
  · exact c.digested_final ‹_›
  · exact c.digested_not_final ‹_›

/-- R304: what HDIG leaves at its address. -/
theorem get_writeBytes_output {c : HashCtx} (m : Memory) (a : Nat) {j : Nat} (hj : j < c.mode.digestBytes) :
    (m.writeBytes a c.output).get (a + j) = c.output.getD j 0 := by
  have hlen : j < c.output.length := by rw [HashCtx.length_output]; exact hj
  rw [Memory.get_writeBytes_inside _ _ _ _ hlen, List.getD_eq_getElem _ _ hlen]

/-- Settles O43: the bytes of OUTPUT stand at X[ra], each found in its digest word. -/
theorem hashDigest : Obligations.HashDigest := by
  intro s ra hs hr
  refine ⟨_, exec_hdig_inRange hs hr, rfl, s.he.digested_eq, fun a ha => ?_, fun j hj => ?_⟩
  · refine Memory.get_writeBytes_outside _ _ _ _ ?_
    rw [HashCtx.length_output, HashCtx.digested_mode]
    exact ha
  · have hj' : j < s.he.digested.mode.digestBytes := s.he.digested_mode.symm ▸ hj
    have hbyte := (get_writeBytes_output s.lmem (s.x ra).toNat hj').trans (HashCtx.getD_output _ hj')
    rw [HashCtx.digested_mode] at hbyte
    exact hbyte

/-- R304: a HDIG that leaves the sequencer RUNNING has written the digest to its range. -/
theorem exec_hdig_running {s t : State} {ra : XReg} (h : exec (.hdig ra) s = .next t) (ht : t.run = .running) :
    t = ((s.setHe s.he.digested).setLmem (s.lmem.writeBytes (s.x ra).toNat s.he.digested.output)).advance := by
  by_cases hs : s.he.state = .uninit
  · cases (exec_hdig_hashState ra hs).symm.trans h
    cases ht
  · by_cases hr : s.inRange (s.x ra).toNat s.he.mode.digestBytes
    · exact (Host.Outcome.next.inj ((exec_hdig_inRange hs hr).symm.trans h)).symm
    · cases (exec_hdig_dataFault hs hr).symm.trans h
      cases ht

/-- Settles O44: after the first HDIG the context is FINAL, which a second one outputs again as it is. -/
theorem digestIsIdempotent : Obligations.DigestIsIdempotent := by
  intro s t ra rb hrun h ht hr
  obtain rfl := exec_hdig_running h ht
  have hfinal : s.he.digested.digested = s.he.digested := HashCtx.digested_final _ s.he.digested_state
  have hnext := exec_hdig_inRange (ra := rb)
    (s := ((s.setHe s.he.digested).setLmem (s.lmem.writeBytes (s.x ra).toNat s.he.digested.output)).advance)
    (by simp) (by simpa using hr)
  refine ⟨_, hnext, hfinal, fun j hj => ?_⟩
  have hj' : j < s.he.digested.mode.digestBytes := s.he.digested_mode.symm ▸ hj
  have hfirst := get_writeBytes_output s.lmem (s.x ra).toNat hj'
  have hsecond := get_writeBytes_output (s.lmem.writeBytes (s.x ra).toNat s.he.digested.output) (s.x rb).toNat hj'
  simp only [State.advance_lmem, State.setLmem_lmem, State.advance_he, State.setLmem_he, State.setHe_he,
    State.x_advance, State.x_setLmem, State.x_setHe, hfinal, hfirst, hsecond]

end Sys2Proof.Machine
end

section
/-! # Canonical memories (10_state.md R49) -/
namespace Sys2Proof.Machine

/-- In a canonical memory the first entry is the lowest address that does not read as an unlisted one. -/
theorem Memory.get_of_lt_head {k a : Nat} {b : Byte} {m : Memory} (h : Memory.wf ((k, b) :: m) = true) (ha : a < k) :
    Memory.get ((k, b) :: m) a = Memory.unlisted := by
  obtain ⟨-, hk, -⟩ := (Memory.wf_cons_iff _ _ _).mp h
  refine Memory.get_eq_unlisted _ _ fun c hc => ?_
  obtain rfl | hc := List.mem_cons.mp hc
  · exact ha.ne'
  · exact (ha.trans (hk c hc)).ne'

theorem Memory.get_head (k : Nat) (b : Byte) (m : Memory) : Memory.get ((k, b) :: m) k = b := if_pos rfl

/-- The rest of a canonical memory reads at every address as the whole does, the first entry's address apart. -/
theorem Memory.get_tail {k : Nat} {b : Byte} {m : Memory} (h : Memory.wf ((k, b) :: m) = true) (a : Nat) :
    Memory.get m a = if k = a then Memory.unlisted else Memory.get ((k, b) :: m) a := by
  obtain ⟨-, hk, -⟩ := (Memory.wf_cons_iff _ _ _).mp h
  split
  · next hka => exact Memory.get_eq_unlisted _ _ fun c hc => (hka ▸ hk c hc).ne'
  · next hka => exact (if_neg hka).symm

/-- Where two canonical memories read alike, the first entry of neither lies below that of the other. -/
theorem Memory.head_le_head {k₁ k₂ : Nat} {b₁ b₂ : Byte} {m₁ m₂ : Memory} (h₁ : Memory.wf ((k₁, b₁) :: m₁) = true)
    (h₂ : Memory.wf ((k₂, b₂) :: m₂) = true)
    (hget : ∀ a, Memory.get ((k₁, b₁) :: m₁) a = Memory.get ((k₂, b₂) :: m₂) a) : k₂ ≤ k₁ := by
  obtain ⟨hb, -, -⟩ := (Memory.wf_cons_iff _ _ _).mp h₁
  refine not_lt.mp fun hlt => hb ?_
  rw [← Memory.get_head k₁ b₁ m₁, hget, Memory.get_of_lt_head h₂ hlt]

theorem Memory.eq_of_get_eq {m₁ m₂ : Memory} (h₁ : m₁.wf = true) (h₂ : m₂.wf = true)
    (hget : ∀ a, m₁.get a = m₂.get a) : m₁ = m₂ := by
  induction m₁ generalizing m₂ with
  | nil =>
    cases m₂ with
    | nil => rfl
    | cons c m₂ =>
      obtain ⟨hb, -, -⟩ := (Memory.wf_cons_iff _ _ _).mp h₂
      exact absurd ((Memory.get_head c.1 c.2 m₂).symm.trans (hget c.1).symm) hb
  | cons c₁ m₁ ih =>
    cases m₂ with
    | nil =>
      obtain ⟨hb, -, -⟩ := (Memory.wf_cons_iff _ _ _).mp h₁
      exact absurd ((Memory.get_head c₁.1 c₁.2 m₁).symm.trans (hget c₁.1)) hb
    | cons c₂ m₂ =>
      obtain ⟨k₁, b₁⟩ := c₁
      obtain ⟨k₂, b₂⟩ := c₂
      obtain rfl : k₁ = k₂ := le_antisymm (Memory.head_le_head h₂ h₁ fun a => (hget a).symm)
        (Memory.head_le_head h₁ h₂ hget)
      obtain rfl : b₁ = b₂ := by simpa only [Memory.get_head] using hget k₁
      obtain ⟨-, -, hm₁⟩ := (Memory.wf_cons_iff _ _ _).mp h₁
      obtain ⟨-, -, hm₂⟩ := (Memory.wf_cons_iff _ _ _).mp h₂
      rw [ih hm₁ hm₂ fun a => by rw [Memory.get_tail h₁, Memory.get_tail h₂, hget]]

/-- Settles O58: the first entries name the same lowest address, and the rests read alike. -/
theorem memoryEqualWhenBytesEqual : Obligations.MemoryEqualWhenBytesEqual :=
  fun _ _ h₁ h₂ hget => Memory.eq_of_get_eq h₁ h₂ hget

end Sys2Proof.Machine
end
